-- ==== Sys2Proof/Word.lean ====
section
/-!
DEFINITION. The word types of the machine. Bit 0 is the least significant bit (R6).
-/

namespace Sys2Proof

/-- Eight bits: a byte lane of a memory location, PX, MR2, SR2, SE, a page register. -/
abbrev Byte := BitVec 8

/-- Sixteen bits: one DM-bus transfer (`DM_BUS_W`, R5), fourteen of the data registers (D4), a DAG register (`DAG_W`). -/
abbrev Word := BitVec 16

/-- Twenty-four bits: an address (`ADDR_W`, R40) and the pc (R27). -/
abbrev Addr := BitVec 24

/-- Twenty-four bits: one PM-bus transfer (`PM_BUS_W`, R5), a location of 24-bit memory (R42), an instruction word (R70). -/
abbrev Word24 := BitVec 24

/-- Forty bits: MR as `MR2 ++ MR1 ++ MR0` and SR as `SR2 ++ SR1 ++ SR0` (R11). -/
abbrev Acc := BitVec 40

end Sys2Proof
end

