-- ==== Sys2Proof/Syntax.lean ====
section
/-!
DEFINITION. The abstract syntax of the multifunction instructions (D1): the instruction type `Instr`, one
constructor per row of spec/opcode_table.json, and the parsed assembly text it comes from (R70 to R79).
-/

namespace Sys2Proof

/-! ## Registers an instruction names -/

/-- The register file, DREG: sixteen data registers (R10). -/
inductive Dreg where
  | ax0 | ax1 | ay0 | ay1 | ar
  | mx0 | mx1 | my0 | my1 | mr0 | mr1 | mr2
  | sr0 | sr1 | sr2 | si
  deriving DecidableEq, Repr

/-- DREGX, the destinations of the DM-bus read of a dual-read form (R12). -/
inductive DregX where
  | ax0 | ax1 | mx0 | mx1
  deriving DecidableEq, Repr

/-- DREGY, the destinations of the PM-bus read of a dual-read form (R12). -/
inductive DregY where
  | ay0 | ay1 | my0 | my1
  deriving DecidableEq, Repr

/-- DREGX is a subset of the register file (R12). -/
def DregX.toDreg : DregX → Dreg
  | .ax0 => .ax0
  | .ax1 => .ax1
  | .mx0 => .mx0
  | .mx1 => .mx1

/-- DREGY is a subset of the register file (R12). -/
def DregY.toDreg : DregY → Dreg
  | .ay0 => .ay0
  | .ay1 => .ay1
  | .my0 => .my0
  | .my1 => .my1

/-- The two data address generators (R19). -/
inductive Dag where
  | dag1 | dag2
  deriving DecidableEq, Repr

/-- The number in 0..7 of the `k`-th index or modify register of a generator: DAG1 owns 0..3, DAG2 owns 4..7 (R19). -/
def Dag.num (g : Dag) (k : Fin 4) : Fin 8 :=
  match g with
  | .dag1 => ⟨k.val, by omega⟩
  | .dag2 => ⟨k.val + 4, by omega⟩

/-- A memory operand `(Ii += Mj)`. The index and the modify register come from one generator (R20), so a pair that
crosses the generators has no term of this type. The spelling `DM` or `PM` selects nothing in the forms that use this
operand (R44), so the operand does not hold it. -/
structure MemOperand where
  dag : Dag
  i : Fin 4
  m : Fin 4
  deriving DecidableEq, Repr

/-- The number of the index register of a memory operand. -/
def MemOperand.ireg (o : MemOperand) : Fin 8 := o.dag.num o.i

/-- The number of the modify register of a memory operand. -/
def MemOperand.mreg (o : MemOperand) : Fin 8 := o.dag.num o.m

/-- The two reads of a dual-read form: `dx = DM(Ia += Mb), dy = PM(Ic += Md)` with `a, b` in DAG1 and `c, d` in DAG2
(R45, R73, R74). -/
structure DualReads where
  dx : DregX
  dmI : Fin 4
  dmM : Fin 4
  dy : DregY
  pmI : Fin 4
  pmM : Fin 4
  deriving DecidableEq, Repr

/-- The DM-bus operand of a dual-read form: DAG1 (R45). -/
def DualReads.dm (d : DualReads) : MemOperand := ⟨.dag1, d.dmI, d.dmM⟩

/-- The PM-bus operand of a dual-read form: DAG2 (R45). -/
def DualReads.pm (d : DualReads) : MemOperand := ⟨.dag2, d.pmI, d.pmM⟩

/-! ## The compute clause (R78; the admitted expressions are those of R86, R87 and R89) -/

/-- The ALU functions, AMF codes 10000 to 11111 (R86). -/
inductive AluFn where
  | passY | incY | addC | add | notY | negY | subB | sub
  | decY | rsub | rsubB | notX | and | or | xor | absX
  deriving DecidableEq, Repr

/-- What a MAC function does with the accumulator (R86). -/
inductive MacAcc where
  | mul | add | sub
  deriving DecidableEq, Repr

/-- The modifier of a MAC clause: number formats of `xop` and `yop`, or `(RND)` (R86, R210). -/
inductive MacFmt where
  | rnd | ss | su | us | uu
  deriving DecidableEq, Repr

/-- The fifteen MAC functions, AMF codes 00001 to 01111 (R86). -/
structure MacFn where
  acc : MacAcc
  fmt : MacFmt
  deriving DecidableEq, Repr

/-- The shifting operations whose result is SR (R87). -/
inductive ShiftKind where
  | lshift | ashift | norm
  deriving DecidableEq, Repr

/-- The position `(HI)` or `(LO)` of the input in the shifter field (R87, R215). -/
inductive Half where
  | hi | lo
  deriving DecidableEq, Repr

/-- The modifier of EXP (R87). -/
inductive ExpMode where
  | hi | hix | lo
  deriving DecidableEq, Repr

/-- The sixteen shifter functions, SF codes 0000 to 1111 (R87). `orOld` is the `SR OR` option. -/
inductive ShiftFn where
  | shift (kind : ShiftKind) (half : Half) (orOld : Bool)
  | exp (mode : ExpMode)
  | expadj
  deriving DecidableEq, Repr

/-- XOP of an ALU function (R89). -/
inductive AluX where
  | ax0 | ax1 | ar | mr0 | mr1 | mr2 | sr0 | sr1
  deriving DecidableEq, Repr

/-- YOP of an ALU function: two registers, the feedback register AF, or the constant 0 (R89). -/
inductive AluY where
  | ay0 | ay1 | af | zero
  deriving DecidableEq, Repr

/-- XOP of a MAC function (R89). -/
inductive MacX where
  | mx0 | mx1 | ar | mr0 | mr1 | mr2 | sr0 | sr1
  deriving DecidableEq, Repr

/-- YOP of a MAC function (R89). -/
inductive MacY where
  | my0 | my1 | sr1 | zero
  deriving DecidableEq, Repr

/-- XOP of a shifter function: one of eight registers (R89). -/
inductive ShiftX where
  | si | sr0 | sr1 | sr2 | ar | mr0 | mr1 | mr2
  deriving DecidableEq, Repr

/-- An ALU clause without its result register. A function that takes one operand ignores the other selector. -/
structure AluClause where
  fn : AluFn
  x : AluX
  y : AluY
  deriving DecidableEq, Repr

/-- A MAC clause without its result register. -/
structure MacClause where
  fn : MacFn
  x : MacX
  y : MacY
  deriving DecidableEq, Repr

/-- A shifter clause. Its result register follows from its function (R87). -/
structure ShiftClause where
  fn : ShiftFn
  x : ShiftX
  deriving DecidableEq, Repr

/-- Result register of an ALU clause: AR or the feedback register AF (R13). -/
inductive AluDest where
  | ar | af
  deriving DecidableEq, Repr

/-- Result register of a MAC clause: MR or SR (R13). -/
inductive MacDest where
  | mr | sr
  deriving DecidableEq, Repr

/-- `ComputeOp` of R104: the syntax of a compute clause with its result register. -/
inductive ComputeOp where
  | alu (c : AluClause) (z : AluDest)
  | mac (c : MacClause) (z : MacDest)
  | shift (c : ShiftClause)
  deriving DecidableEq, Repr

/-- Names of the registers a compute clause may write (R13, R104, R106). -/
inductive ResultReg where
  | ar | af | mr | sr | se | sb
  deriving DecidableEq, Repr

/-- The result register a shifter function writes (R87): SR, SE, or SB for the one function that targets it. -/
def ShiftFn.dest : ShiftFn → ResultReg
  | .shift _ _ _ => .sr
  | .exp _ => .se
  | .expadj => .sb

/-- The result register of a compute clause (R13, R106). -/
def ComputeOp.dest : ComputeOp → ResultReg
  | .alu _ .ar => .ar
  | .alu _ .af => .af
  | .mac _ .mr => .mr
  | .mac _ .sr => .sr
  | .shift c => c.fn.dest

/-! ## Instructions -/

/-- The instructions: one constructor per row of spec/opcode_table.json (R80). -/
inductive Instr where
  /-- ALU_DUAL_READ (R130). The result register is AR. -/
  | aluDualRead (c : AluClause) (d : DualReads)
  /-- MAC_DUAL_READ (R131). The result register is MR. -/
  | macDualRead (c : MacClause) (d : DualReads)
  /-- DUAL_READ (R140). -/
  | dualRead (d : DualReads)
  /-- ALU_MEM_READ (R150). -/
  | aluMemRead (c : AluClause) (z : AluDest) (dst : Dreg) (o : MemOperand)
  /-- MAC_MEM_READ (R151). -/
  | macMemRead (c : MacClause) (z : MacDest) (dst : Dreg) (o : MemOperand)
  /-- SHIFT_MEM_READ (R152). -/
  | shiftMemRead (c : ShiftClause) (dst : Dreg) (o : MemOperand)
  /-- ALU_MEM_WRITE (R165). -/
  | aluMemWrite (c : AluClause) (z : AluDest) (src : Dreg) (o : MemOperand)
  /-- MAC_MEM_WRITE (R166). -/
  | macMemWrite (c : MacClause) (z : MacDest) (src : Dreg) (o : MemOperand)
  /-- SHIFT_MEM_WRITE (R167). -/
  | shiftMemWrite (c : ShiftClause) (src : Dreg) (o : MemOperand)
  /-- ALU_STATUS_ONLY (R184): `<ALU>, AR = AR`, also written `NONE = <ALU>`. -/
  | aluStatusOnly (c : AluClause)
  /-- ALU_REG_MOVE (R180). -/
  | aluRegMove (c : AluClause) (z : AluDest) (d1 d2 : Dreg)
  /-- MAC_REG_MOVE (R181). -/
  | macRegMove (c : MacClause) (z : MacDest) (d1 d2 : Dreg)
  /-- SHIFT_REG_MOVE (R182). -/
  | shiftRegMove (c : ShiftClause) (d1 d2 : Dreg)
  deriving DecidableEq, Repr

/-- The compute clause of an instruction: none for DUAL_READ (R140). -/
def Instr.computeOp : Instr → Option ComputeOp
  | .aluDualRead c _ => some (.alu c .ar)
  | .macDualRead c _ => some (.mac c .mr)
  | .dualRead _ => none
  | .aluMemRead c z _ _ => some (.alu c z)
  | .macMemRead c z _ _ => some (.mac c z)
  | .shiftMemRead c _ _ => some (.shift c)
  | .aluMemWrite c z _ _ => some (.alu c z)
  | .macMemWrite c z _ _ => some (.mac c z)
  | .shiftMemWrite c _ _ => some (.shift c)
  | .aluStatusOnly c => some (.alu c .ar)
  | .aluRegMove c z _ _ => some (.alu c z)
  | .macRegMove c z _ _ => some (.mac c z)
  | .shiftRegMove c _ _ => some (.shift c)

/-! ## The parsed assembly text (R71 to R78)

What a text may say is wider than what spells an instruction: R91 lists the texts that are refused and a name for each. -/

/-- A register name as a text writes it. -/
inductive RegName where
  | dreg (r : Dreg)
  | af | se | sb | px
  deriving DecidableEq, Repr

/-- An operand of a compute clause as a text writes it. -/
inductive OperandText where
  | reg (r : RegName)
  | zero
  deriving DecidableEq, Repr

/-- The left side of a compute clause as a text writes it; `none` is the `NONE` of R184. -/
inductive ResultText where
  | reg (r : ResultReg)
  | none
  deriving DecidableEq, Repr

/-- The right side of a compute clause as a text writes it, the excluded forms of R78 and R91 among them. An ALU
function of one operand has a second slot that its text does not write: it holds any operand of the slot's set (an XOP
in `x`, a YOP in `y`), and the meaning ignores it (the model's choice, log 33). -/
inductive ExprText where
  | alu (fn : AluFn) (x y : OperandText)
  | mac (fn : MacFn) (x y : OperandText)
  | shift (fn : ShiftFn) (x : OperandText)
  | macSaturate
  | divs
  | divq
  | shiftImmediate
  deriving DecidableEq, Repr

/-- A compute clause as a text writes it, with or without `IF condition`. -/
structure ComputeText where
  conditional : Bool
  result : ResultText
  expr : ExprText
  deriving DecidableEq, Repr

/-- The spelling of a memory reference (R44). -/
inductive Spelling where
  | dm | pm
  deriving DecidableEq, Repr

/-- The address part of a memory reference as a text writes it: `(Ii += Mj)`, or one of the addressing forms that no
syntax diagram shows (R91, `addr_mode`). -/
inductive AddrText where
  | postModify (i m : Fin 8)
  | noModify (i : Fin 8)
  | postImmediate (i : Fin 8) (k : Int)
  | preModify (i m : Fin 8)
  deriving DecidableEq, Repr

/-- `DM( … )` or `PM( … )`. -/
structure MemText where
  spelling : Spelling
  addr : AddrText
  deriving DecidableEq, Repr

/-- One clause of a multifunction instruction (R71). -/
inductive Clause where
  | compute (c : ComputeText)
  | read (dst : RegName) (mem : MemText)
  | write (mem : MemText) (src : RegName)
  | move (dst src : RegName)
  deriving DecidableEq, Repr

/-- The text of one instruction: its clauses in the order they are written (R71, R72). -/
abbrev Text := List Clause

end Sys2Proof
end

