-- ==== Sys2Proof/Machine/Registers.lean ====
section
/-!
DEFINITION. The register files as plain data, and `RegView` and `ComputeEffect` of R104.
-/

namespace Sys2Proof.Machine

open Sys2Proof

/-- The registers of the computation units (R10, R11, R14, R15; SB: R28, R87). -/
structure CompRegs where
  ax0 : Word
  ax1 : Word
  ay0 : Word
  ay1 : Word
  ar : Word
  af : Word
  mx0 : Word
  mx1 : Word
  my0 : Word
  my1 : Word
  mr0 : Word
  mr1 : Word
  mr2 : Byte
  sr0 : Word
  sr1 : Word
  sr2 : Byte
  si : Word
  se : Byte
  sb : BitVec 5
  deriving DecidableEq, Repr, Inhabited

/-- The registers of both data address generators: `I[0..7]`, `M[0..7]`, `L[0..7]`, `B[0..7]` (R19). -/
structure DagRegs where
  i : Vector Word 8
  m : Vector Word 8
  l : Vector Word 8
  b : Vector Word 8
  deriving DecidableEq, Repr

/-- The status flags of ASTAT, in the order of their bits 0 to 8 (R24). -/
structure Astat where
  az : Bool
  an : Bool
  av : Bool
  ac : Bool
  as : Bool
  aq : Bool
  mv : Bool
  ss : Bool
  sv : Bool
  deriving DecidableEq, Repr, Inhabited

/-- The mode bits the spec names: the overflow latch, AR saturation and the multiplier mode (R28, R201), the rounding
mode (R213), and the bits that select the secondary computation registers and DAG registers (R31). -/
structure Modes where
  avLatch : Bool
  arSat : Bool
  /-- M_MODE: 0 fractional, 1 integer (R201). -/
  mMode : Bool
  biasedRnd : Bool
  secReg : Bool
  secDag : Bool
  deriving DecidableEq, Repr, Inhabited

/-- `RegView` of R104: the registers, flags and mode bits of the state before the instruction, never memory, never pc.
The registers are those a compute clause can read (R105). -/
structure RegView where
  regs : CompRegs
  astat : Astat
  modes : Modes
  deriving DecidableEq, Repr, Inhabited

/-- The register write of a compute clause: at most one result register (R106), with its value. -/
inductive ResultWrite where
  | nothing
  | ar (v : Word)
  | af (v : Word)
  | mr (v : Acc)
  | sr (v : Acc)
  | se (v : Byte)
  | sb (v : BitVec 5)
  deriving DecidableEq, Repr, Inhabited

/-- `ComputeEffect` of R104: what the compute clause writes, and the flags after it. -/
structure ComputeEffect where
  result : ResultWrite
  astat : Astat
  deriving DecidableEq, Repr, Inhabited

/-- The values of an uninterpreted `Compute` (R104): one for each kind of result, and the flags. -/
structure FreeEffect where
  word : Word
  acc : Acc
  se : Byte
  sb : BitVec 5
  astat : Astat
  deriving DecidableEq, Repr, Inhabited

/-- How a data move reads and writes one of the 8-bit registers MR2 and SR2 (R16, R17). -/
structure ByteFx where
  /-- Its 16-bit value as the source of a data move (R16). -/
  extend : Byte → Word
  /-- The byte it takes from a moved value (R17). -/
  narrow : Word → Byte
  /-- The byte it takes when MR1 (or SR1) takes a moved value, from that value and the old byte (R17). -/
  fill : Word → Byte → Byte

/-- An instance of `P_DREG_WRITE_FX` (R16, R17, D5): one for MR1 and MR2, one for SR1 and SR2. -/
structure DregFx where
  mr : ByteFx
  sr : ByteFx

/-- The values of `P_W24_LOW` (R48, D14): what bits 7:0 of a 24-bit location hold after a 16-bit write. -/
inductive W24Low where
  /-- A free byte, drawn for the write. -/
  | any
  /-- What they held before. -/
  | keep
  /-- Zero. -/
  | zero
  deriving DecidableEq, Repr

/-- Whether an address is 16-bit memory, 24-bit memory, or has no memory behind it (R41). -/
inductive MemKind where
  | w16 | w24 | absent
  deriving DecidableEq, Repr

/-- One entry of a memory map: the addresses from `base` on, `size` of them, are of one kind. -/
structure Region where
  base : Nat
  size : Nat
  kind : MemKind
  deriving DecidableEq, Repr

/-- Where the program text stands: the `len` addresses from `base` on (D24, D26). -/
structure ProgramText where
  base : Addr
  len : Nat
  deriving DecidableEq, Repr

end Sys2Proof.Machine
end

