-- ==== Sys2Proof/Config.lean ====
section
/-!
DEFINITION. What the machine's platform fixes and the spec leaves open, as constants with no body (nothing can be
proved about their values), and the family's values that reset uses. The open parameters that are plain data of one
launch (the memory map, the program text) are fields of State; the others are the fields of
`Params` (Machine/Params.lean).
-/

namespace Sys2Proof.Config

open Sys2Proof.Machine

/-- FREE VALUE (log 3). What the byte lane numbered by its key held at launch, where nothing has been written or placed
there: "a draw, never ... zero" (R53). -/
opaque launchByte : Nat → Byte

/-- FREE VALUE (log 7). The draw of the `n`-th write under `P_W24_LOW = any`: bits 7:0 of a 24-bit location after a 16-bit write (R48). -/
opaque w24Low : Nat → Byte

/-- FREE VALUE (log 8), the value of the open parameter `P_PX_DM24` in the configuration the machine runs: whether the DM-bus read of 24-bit memory in a dual-read form clears PX (R47). -/
opaque pxDm24 : Bool

/-- FREE VALUE (logs 13 to 16). An uninterpreted `Compute` (R104): the results and flags of the clauses, modes and
operand values for which the candidate of 46_compute_clause_annex.md gives none (R201, R213, R217, R218). -/
opaque freeCompute : ComputeOp → RegView → FreeEffect

/-- PRESUMED (log 2): the memory map of the ADSP-2191's internal memory, 24-bit from 0x0000 to 0x7FFF and 16-bit from
0x8000 to 0xFFFF of page 0. It is State.reset's map and nothing else's: a state may hold any map (`P_MEMMAP`, R41). -/
def familyMemMap : List Region :=
  [⟨0x000000, 0x8000, .w24⟩, ⟨0x008000, 0x8000, .w16⟩]

/-- PRESUMED (log 2): the family's reset address, the start of its boot memory. -/
def familyResetPc : Addr := 0xFF0000#24

end Sys2Proof.Config
end

