-- ==== Sys2Proof/WellFormed.lean ====
section
/-!
DEFINITION. Well-formedness: the names of R91's refusals, and the checks that an `Instr` can still fail (the other
refusals of R91 have no term of `Instr`, and are given to the text in Machine/Assemble.lean).
-/

namespace Sys2Proof

/-- The reasons of R91 and R184, R185, each under the name the spec gives it. -/
inductive Reason where
  | notRestrictedForm
  | excludedSat
  | excludedDiv
  | excludedShiftImm
  | excludedIf
  | noShiftInType1
  | type1Result
  | dagPairing
  | dagBus
  | type1Dest
  | addrMode
  | sameDestination
  | sr2Source
  | arArNonAlu
  | arArAf
  /-- Not a name of R91: an `Instr` spelled as ALU_REG_MOVE whose text is ALU_STATUS_ONLY's (R180, first line of its
  pseudocode; opcode table, "takes priority over ALU_REG_MOVE"). It encodes to the other instruction's word. -/
  | statusOnlySpelling
  deriving DecidableEq, Repr

/-- The register-file registers that a write to a result register changes (R11, R106). -/
def ResultReg.dregs : ResultReg → List Dreg
  | .ar => [.ar]
  | .af => []
  | .mr => [.mr0, .mr1, .mr2]
  | .sr => [.sr0, .sr1, .sr2]
  | .se => []
  | .sb => []

/-- `CW(op)`, the set of register-file registers the clause writes (R106). -/
def ComputeOp.cw (op : ComputeOp) : List Dreg := op.dest.dregs

/-- `MW` of R115: the register-file registers a data move with destination `d` writes, `DregWrite`'s side effects of
R17 among them. -/
def Dreg.mw : Dreg → List Dreg
  | .mr1 => [.mr1, .mr2]
  | .sr1 => [.sr1, .sr2]
  | d => [d]

/-- R115: the compute clause and the data move have a destination in common. -/
def sameDestination (op : ComputeOp) (dst : Dreg) : Bool :=
  op.cw.any fun r => dst.mw.contains r

/-- R116: SR2 is the source of the data move while the compute result register is SR. -/
def sr2Source (op : ComputeOp) (src : Dreg) : Bool :=
  src == .sr2 && op.cw.contains .sr2

/-- The checks of a move `d1 = d2` beside a MAC or shifter clause, in the order R181 writes them. -/
def moveCheck (op : ComputeOp) (d1 d2 : Dreg) : Option Reason :=
  if d1 = .ar ∧ d2 = .ar then some .arArNonAlu
  else if sameDestination op d1 then some .sameDestination
  else if sr2Source op d2 then some .sr2Source
  else none

/-- The first check of R91 that an instruction fails, if it fails one. -/
def Instr.check : Instr → Option Reason
  | .aluDualRead _ _ => none
  | .macDualRead _ _ => none
  | .dualRead _ => none
  | .aluMemRead c z dst _ => if sameDestination (.alu c z) dst then some .sameDestination else none
  | .macMemRead c z dst _ => if sameDestination (.mac c z) dst then some .sameDestination else none
  | .shiftMemRead c dst _ => if sameDestination (.shift c) dst then some .sameDestination else none
  | .aluMemWrite c z src _ => if sr2Source (.alu c z) src then some .sr2Source else none
  | .macMemWrite c z src _ => if sr2Source (.mac c z) src then some .sr2Source else none
  | .shiftMemWrite c src _ => if sr2Source (.shift c) src then some .sr2Source else none
  | .aluStatusOnly _ => none
  | .aluRegMove c z d1 d2 =>
    if d1 = .ar ∧ d2 = .ar then
      match z with
      | .ar => some .statusOnlySpelling
      | .af => some .arArAf
    else if sameDestination (.alu c z) d1 then some .sameDestination
    else if sr2Source (.alu c z) d2 then some .sr2Source
    else none
  | .macRegMove c z d1 d2 => moveCheck (.mac c z) d1 d2
  | .shiftRegMove c d1 d2 => moveCheck (.shift c) d1 d2

/-- An instruction is well formed when it fails no check of R91. -/
abbrev WellFormed (i : Instr) : Prop := i.check = none

end Sys2Proof
end

