-- ==== Sys2Proof/Decode.lean ====
section
/-!
DEFINITION. The code tables of R86 to R89, the decoder of the five opcode types (R81 to R85), total on any bytes, and
the encoder written from the same tables. Every bit layout is the spec's general knowledge (D1, log 18); the shifter
XOP codes are PRESUMED (log 19).
-/

namespace Sys2Proof

/-! ## Code tables -/

/-- DREG, DDREG and SDREG codes (R88). -/
def Dreg.ofCode (c : BitVec 4) : Dreg :=
  match c with
  | 0x0#4 => .ax0
  | 0x1#4 => .ax1
  | 0x2#4 => .mx0
  | 0x3#4 => .mx1
  | 0x4#4 => .ay0
  | 0x5#4 => .ay1
  | 0x6#4 => .my0
  | 0x7#4 => .my1
  | 0x8#4 => .mr2
  | 0x9#4 => .sr2
  | 0xA#4 => .ar
  | 0xB#4 => .si
  | 0xC#4 => .mr1
  | 0xD#4 => .sr1
  | 0xE#4 => .mr0
  | _ => .sr0 -- 1111, the remaining code

/-- DREG, DDREG and SDREG codes (R88). -/
def Dreg.code : Dreg → BitVec 4
  | .ax0 => 0x0#4
  | .ax1 => 0x1#4
  | .mx0 => 0x2#4
  | .mx1 => 0x3#4
  | .ay0 => 0x4#4
  | .ay1 => 0x5#4
  | .my0 => 0x6#4
  | .my1 => 0x7#4
  | .mr2 => 0x8#4
  | .sr2 => 0x9#4
  | .ar => 0xA#4
  | .si => 0xB#4
  | .mr1 => 0xC#4
  | .sr1 => 0xD#4
  | .mr0 => 0xE#4
  | .sr0 => 0xF#4

/-- DD codes of Type 1 (R88). -/
def DregX.ofCode (c : BitVec 2) : DregX :=
  match c with
  | 0#2 => .ax0
  | 1#2 => .ax1
  | 2#2 => .mx0
  | 3#2 => .mx1

/-- DD codes of Type 1 (R88). -/
def DregX.code : DregX → BitVec 2
  | .ax0 => 0#2
  | .ax1 => 1#2
  | .mx0 => 2#2
  | .mx1 => 3#2

/-- PD codes of Type 1 (R88). -/
def DregY.ofCode (c : BitVec 2) : DregY :=
  match c with
  | 0#2 => .ay0
  | 1#2 => .ay1
  | 2#2 => .my0
  | 3#2 => .my1

/-- PD codes of Type 1 (R88). -/
def DregY.code : DregY → BitVec 2
  | .ay0 => 0#2
  | .ay1 => 1#2
  | .my0 => 2#2
  | .my1 => 3#2

/-- G: 0 is DAG1, 1 is DAG2 (R82, R88). -/
def Dag.ofCode (c : BitVec 1) : Dag :=
  match c with
  | 0#1 => .dag1
  | 1#1 => .dag2

/-- G: 0 is DAG1, 1 is DAG2 (R82, R88). -/
def Dag.code : Dag → BitVec 1
  | .dag1 => 0#1
  | .dag2 => 1#1

/-- I and M fields: 00 to 11 number the registers of the generator (R88). -/
def dagRegOfCode (c : BitVec 2) : Fin 4 := c.toFin

/-- I and M fields: 00 to 11 number the registers of the generator (R88). -/
def dagRegCode (k : Fin 4) : BitVec 2 := BitVec.ofFin k

/-- Z beside an ALU function: 0 is AR, 1 is AF (R82, R83). -/
def AluDest.ofCode (c : BitVec 1) : AluDest :=
  match c with
  | 0#1 => .ar
  | 1#1 => .af

/-- Z beside an ALU function: 0 is AR, 1 is AF (R82, R83). -/
def AluDest.code : AluDest → BitVec 1
  | .ar => 0#1
  | .af => 1#1

/-- Z beside a MAC function: 0 is MR, 1 is SR (R82, R83). -/
def MacDest.ofCode (c : BitVec 1) : MacDest :=
  match c with
  | 0#1 => .mr
  | 1#1 => .sr

/-- Z beside a MAC function: 0 is MR, 1 is SR (R82, R83). -/
def MacDest.code : MacDest → BitVec 1
  | .mr => 0#1
  | .sr => 1#1

/-- XOP codes of ALU functions (R89). -/
def AluX.ofCode (c : BitVec 3) : AluX :=
  match c with
  | 0#3 => .ax0
  | 1#3 => .ax1
  | 2#3 => .ar
  | 3#3 => .mr0
  | 4#3 => .mr1
  | 5#3 => .mr2
  | 6#3 => .sr0
  | 7#3 => .sr1

/-- XOP codes of ALU functions (R89). -/
def AluX.code : AluX → BitVec 3
  | .ax0 => 0#3
  | .ax1 => 1#3
  | .ar => 2#3
  | .mr0 => 3#3
  | .mr1 => 4#3
  | .mr2 => 5#3
  | .sr0 => 6#3
  | .sr1 => 7#3

/-- YOP codes of ALU functions (R89). -/
def AluY.ofCode (c : BitVec 2) : AluY :=
  match c with
  | 0#2 => .ay0
  | 1#2 => .ay1
  | 2#2 => .af
  | 3#2 => .zero

/-- YOP codes of ALU functions (R89). -/
def AluY.code : AluY → BitVec 2
  | .ay0 => 0#2
  | .ay1 => 1#2
  | .af => 2#2
  | .zero => 3#2

/-- XOP codes of MAC functions (R89). -/
def MacX.ofCode (c : BitVec 3) : MacX :=
  match c with
  | 0#3 => .mx0
  | 1#3 => .mx1
  | 2#3 => .ar
  | 3#3 => .mr0
  | 4#3 => .mr1
  | 5#3 => .mr2
  | 6#3 => .sr0
  | 7#3 => .sr1

/-- XOP codes of MAC functions (R89). -/
def MacX.code : MacX → BitVec 3
  | .mx0 => 0#3
  | .mx1 => 1#3
  | .ar => 2#3
  | .mr0 => 3#3
  | .mr1 => 4#3
  | .mr2 => 5#3
  | .sr0 => 6#3
  | .sr1 => 7#3

/-- YOP codes of MAC functions (R89). -/
def MacY.ofCode (c : BitVec 2) : MacY :=
  match c with
  | 0#2 => .my0
  | 1#2 => .my1
  | 2#2 => .sr1
  | 3#2 => .zero

/-- YOP codes of MAC functions (R89). -/
def MacY.code : MacY → BitVec 2
  | .my0 => 0#2
  | .my1 => 1#2
  | .sr1 => 2#2
  | .zero => 3#2

/-- XOP codes of shifter functions. PRESUMED (log 19): the spec names the eight registers and gives no codes (R89); the
six codes 010 to 111 are those of the ALU and MAC tables. -/
def ShiftX.ofCode (c : BitVec 3) : ShiftX :=
  match c with
  | 0#3 => .si
  | 1#3 => .sr2
  | 2#3 => .ar
  | 3#3 => .mr0
  | 4#3 => .mr1
  | 5#3 => .mr2
  | 6#3 => .sr0
  | 7#3 => .sr1

/-- XOP codes of shifter functions, PRESUMED (log 19). -/
def ShiftX.code : ShiftX → BitVec 3
  | .si => 0#3
  | .sr2 => 1#3
  | .ar => 2#3
  | .mr0 => 3#3
  | .mr1 => 4#3
  | .mr2 => 5#3
  | .sr0 => 6#3
  | .sr1 => 7#3

/-- What an AMF code says (R86). -/
inductive Amf where
  | noOperation
  | mac (fn : MacFn)
  | alu (fn : AluFn)
  deriving DecidableEq, Repr

/-- AMF codes (R86). -/
def Amf.ofCode (c : BitVec 5) : Amf :=
  match c with
  | 0b00000#5 => .noOperation
  | 0b00001#5 => .mac ⟨.mul, .rnd⟩
  | 0b00010#5 => .mac ⟨.add, .rnd⟩
  | 0b00011#5 => .mac ⟨.sub, .rnd⟩
  | 0b00100#5 => .mac ⟨.mul, .ss⟩
  | 0b00101#5 => .mac ⟨.mul, .su⟩
  | 0b00110#5 => .mac ⟨.mul, .us⟩
  | 0b00111#5 => .mac ⟨.mul, .uu⟩
  | 0b01000#5 => .mac ⟨.add, .ss⟩
  | 0b01001#5 => .mac ⟨.add, .su⟩
  | 0b01010#5 => .mac ⟨.add, .us⟩
  | 0b01011#5 => .mac ⟨.add, .uu⟩
  | 0b01100#5 => .mac ⟨.sub, .ss⟩
  | 0b01101#5 => .mac ⟨.sub, .su⟩
  | 0b01110#5 => .mac ⟨.sub, .us⟩
  | 0b01111#5 => .mac ⟨.sub, .uu⟩
  | 0b10000#5 => .alu .passY
  | 0b10001#5 => .alu .incY
  | 0b10010#5 => .alu .addC
  | 0b10011#5 => .alu .add
  | 0b10100#5 => .alu .notY
  | 0b10101#5 => .alu .negY
  | 0b10110#5 => .alu .subB
  | 0b10111#5 => .alu .sub
  | 0b11000#5 => .alu .decY
  | 0b11001#5 => .alu .rsub
  | 0b11010#5 => .alu .rsubB
  | 0b11011#5 => .alu .notX
  | 0b11100#5 => .alu .and
  | 0b11101#5 => .alu .or
  | 0b11110#5 => .alu .xor
  | _ => .alu .absX -- 11111, the remaining code

/-- AMF codes of the ALU functions (R86). -/
def AluFn.code : AluFn → BitVec 5
  | .passY => 0b10000#5
  | .incY => 0b10001#5
  | .addC => 0b10010#5
  | .add => 0b10011#5
  | .notY => 0b10100#5
  | .negY => 0b10101#5
  | .subB => 0b10110#5
  | .sub => 0b10111#5
  | .decY => 0b11000#5
  | .rsub => 0b11001#5
  | .rsubB => 0b11010#5
  | .notX => 0b11011#5
  | .and => 0b11100#5
  | .or => 0b11101#5
  | .xor => 0b11110#5
  | .absX => 0b11111#5

/-- AMF codes of the MAC functions (R86). -/
def MacFn.code : MacFn → BitVec 5
  | ⟨.mul, .rnd⟩ => 0b00001#5
  | ⟨.add, .rnd⟩ => 0b00010#5
  | ⟨.sub, .rnd⟩ => 0b00011#5
  | ⟨.mul, .ss⟩ => 0b00100#5
  | ⟨.mul, .su⟩ => 0b00101#5
  | ⟨.mul, .us⟩ => 0b00110#5
  | ⟨.mul, .uu⟩ => 0b00111#5
  | ⟨.add, .ss⟩ => 0b01000#5
  | ⟨.add, .su⟩ => 0b01001#5
  | ⟨.add, .us⟩ => 0b01010#5
  | ⟨.add, .uu⟩ => 0b01011#5
  | ⟨.sub, .ss⟩ => 0b01100#5
  | ⟨.sub, .su⟩ => 0b01101#5
  | ⟨.sub, .us⟩ => 0b01110#5
  | ⟨.sub, .uu⟩ => 0b01111#5

/-- SF codes (R87). -/
def ShiftFn.ofCode (c : BitVec 4) : ShiftFn :=
  match c with
  | 0b0000#4 => .shift .lshift .hi false
  | 0b0001#4 => .shift .lshift .hi true
  | 0b0010#4 => .shift .lshift .lo false
  | 0b0011#4 => .shift .lshift .lo true
  | 0b0100#4 => .shift .ashift .hi false
  | 0b0101#4 => .shift .ashift .hi true
  | 0b0110#4 => .shift .ashift .lo false
  | 0b0111#4 => .shift .ashift .lo true
  | 0b1000#4 => .shift .norm .hi false
  | 0b1001#4 => .shift .norm .hi true
  | 0b1010#4 => .shift .norm .lo false
  | 0b1011#4 => .shift .norm .lo true
  | 0b1100#4 => .exp .hi
  | 0b1101#4 => .exp .hix
  | 0b1110#4 => .exp .lo
  | _ => .expadj -- 1111, the remaining code

/-- SF codes (R87). -/
def ShiftFn.code : ShiftFn → BitVec 4
  | .shift .lshift .hi false => 0b0000#4
  | .shift .lshift .hi true => 0b0001#4
  | .shift .lshift .lo false => 0b0010#4
  | .shift .lshift .lo true => 0b0011#4
  | .shift .ashift .hi false => 0b0100#4
  | .shift .ashift .hi true => 0b0101#4
  | .shift .ashift .lo false => 0b0110#4
  | .shift .ashift .lo true => 0b0111#4
  | .shift .norm .hi false => 0b1000#4
  | .shift .norm .hi true => 0b1001#4
  | .shift .norm .lo false => 0b1010#4
  | .shift .norm .lo true => 0b1011#4
  | .exp .hi => 0b1100#4
  | .exp .hix => 0b1101#4
  | .exp .lo => 0b1110#4
  | .expadj => 0b1111#4

/-! ## Decoding -/

/-- Why a word or a byte string is no instruction of this chapter. -/
inductive DecodeError where
  /-- Fewer bytes than one instruction word (R70). -/
  | shortWord
  /-- The prefix bits are those of no row of the opcode table: another opcode, hence another instruction (U18). -/
  | otherOpcode
  /-- Type 4 or Type 8 with AMF 00000: a plain load, store or register move, outside this chapter (R82, the table's
  constraints). -/
  | noCompute
  deriving DecidableEq, Repr

/-- The field of `len` bits of a word from bit `lo` up. -/
def bits (w : Word24) (lo len : Nat) : BitVec len := w.extractLsb' lo len

/-- The ALU clause of the fields AMF, YOP at 12:11 and XOP at 10:8 (R81 to R83, R89). -/
def aluClauseOf (fn : AluFn) (w : Word24) : AluClause :=
  ⟨fn, .ofCode (bits w 8 3), .ofCode (bits w 11 2)⟩

/-- The MAC clause of the fields AMF, YOP at 12:11 and XOP at 10:8 (R81 to R83, R89). -/
def macClauseOf (fn : MacFn) (w : Word24) : MacClause :=
  ⟨fn, .ofCode (bits w 8 3), .ofCode (bits w 11 2)⟩

/-- The shifter clause of the fields SF at 14:11 and XOP at 10:8 (R84, R85). -/
def shiftClauseOf (w : Word24) : ShiftClause :=
  ⟨.ofCode (bits w 11 4), .ofCode (bits w 8 3)⟩

/-- The two reads of a Type 1 word: PD, DD, PMI, PMM, DMI, DMM (R81). -/
def dualReadsOf (w : Word24) : DualReads where
  dx := .ofCode (bits w 18 2)
  dmI := dagRegOfCode (bits w 2 2)
  dmM := dagRegOfCode (bits w 0 2)
  dy := .ofCode (bits w 20 2)
  pmI := dagRegOfCode (bits w 6 2)
  pmM := dagRegOfCode (bits w 4 2)

/-- The memory operand of a Type 4 or Type 12 word: I at 3:2, M at 1:0, G at bit `g` (R82, R84). -/
def memOperandOf (g : Nat) (w : Word24) : MemOperand :=
  ⟨.ofCode (bits w g 1), dagRegOfCode (bits w 2 2), dagRegOfCode (bits w 0 2)⟩

/-- Type 1 (R81). -/
def decodeType1 (w : Word24) : Except DecodeError Instr :=
  match Amf.ofCode (bits w 13 5) with
  | .noOperation => .ok (.dualRead (dualReadsOf w))
  | .mac fn => .ok (.macDualRead (macClauseOf fn w) (dualReadsOf w))
  | .alu fn => .ok (.aluDualRead (aluClauseOf fn w) (dualReadsOf w))

/-- Type 4 (R82). D is bit 19, Z is bit 18. -/
def decodeType4 (w : Word24) : Except DecodeError Instr :=
  let r := Dreg.ofCode (bits w 4 4)
  let o := memOperandOf 20 w
  match Amf.ofCode (bits w 13 5) with
  | .noOperation => .error .noCompute
  | .mac fn =>
    if bits w 19 1 = 0#1 then .ok (.macMemRead (macClauseOf fn w) (.ofCode (bits w 18 1)) r o)
    else .ok (.macMemWrite (macClauseOf fn w) (.ofCode (bits w 18 1)) r o)
  | .alu fn =>
    if bits w 19 1 = 0#1 then .ok (.aluMemRead (aluClauseOf fn w) (.ofCode (bits w 18 1)) r o)
    else .ok (.aluMemWrite (aluClauseOf fn w) (.ofCode (bits w 18 1)) r o)

/-- Type 8 (R83). `Z = 0` with `DDREG = SDREG = 1010` beside an ALU function is ALU_STATUS_ONLY. -/
def decodeType8 (w : Word24) : Except DecodeError Instr :=
  let d1 := Dreg.ofCode (bits w 4 4)
  let d2 := Dreg.ofCode (bits w 0 4)
  match Amf.ofCode (bits w 13 5) with
  | .noOperation => .error .noCompute
  | .mac fn => .ok (.macRegMove (macClauseOf fn w) (.ofCode (bits w 18 1)) d1 d2)
  | .alu fn =>
    if bits w 18 1 = 0#1 ∧ bits w 0 8 = 0xAA#8 then .ok (.aluStatusOnly (aluClauseOf fn w))
    else .ok (.aluRegMove (aluClauseOf fn w) (.ofCode (bits w 18 1)) d1 d2)

/-- Type 12 (R84). D is bit 15, G is bit 16. -/
def decodeType12 (w : Word24) : Except DecodeError Instr :=
  let r := Dreg.ofCode (bits w 4 4)
  let o := memOperandOf 16 w
  if bits w 15 1 = 0#1 then .ok (.shiftMemRead (shiftClauseOf w) r o)
  else .ok (.shiftMemWrite (shiftClauseOf w) r o)

/-- Type 14 (R85). -/
def decodeType14 (w : Word24) : Except DecodeError Instr :=
  .ok (.shiftRegMove (shiftClauseOf w) (.ofCode (bits w 4 4)) (.ofCode (bits w 0 4)))

/-- The instruction a word stands for (R81 to R85), or why it stands for none of this chapter (U18). -/
def decode (w : Word24) : Except DecodeError Instr :=
  if bits w 22 2 = 0b11#2 then decodeType1 w
  else if bits w 21 3 = 0b011#3 then decodeType4 w
  else if bits w 19 5 = 0b00101#5 then decodeType8 w
  else if bits w 17 7 = 0b0001001#7 then decodeType12 w
  else if bits w 15 9 = 0b000100000#9 then decodeType14 w
  else .error .otherOpcode

/-- A word from its three byte lanes, the lane of bits 7:0 first (log 4). -/
def wordOfLanes (b0 b1 b2 : Byte) : Word24 := b2 ++ (b1 ++ b0)

/-- The first instruction of a byte string and the bytes after it. -/
def decodeBytes : List Byte → Except DecodeError (Instr × List Byte)
  | b0 :: b1 :: b2 :: rest =>
    match decode (wordOfLanes b0 b1 b2) with
    | .ok i => .ok (i, rest)
    | .error e => .error e
  | _ => .error .shortWord

/-- The instruction word that the opcode table's numbering of bits gives: the low `nbits` bits of `w`, the bits above
them 0. -/
def tableWord (nbits w : Nat) : Word24 := BitVec.ofNat 24 (w % 2 ^ nbits)

/-- The decoder's answer for an instruction whose bits are `w`, numbered as the opcode table numbers them. -/
def decodeTableWord (nbits w : Nat) : Option Instr :=
  match decode (tableWord nbits w) with
  | .ok i => some i
  | .error _ => none

/-! ## Encoding -/

/-- The fields YOP and XOP of an ALU clause. -/
def AluClause.operandCode (c : AluClause) : BitVec 5 := c.y.code ++ c.x.code

/-- The fields YOP and XOP of a MAC clause. -/
def MacClause.operandCode (c : MacClause) : BitVec 5 := c.y.code ++ c.x.code

/-- The fields PMI, PMM, DMI, DMM of the two reads. -/
def DualReads.addressCode (d : DualReads) : BitVec 8 :=
  dagRegCode d.pmI ++ (dagRegCode d.pmM ++ (dagRegCode d.dmI ++ dagRegCode d.dmM))

/-- The fields I and M of a memory operand. -/
def MemOperand.addressCode (o : MemOperand) : BitVec 4 := dagRegCode o.i ++ dagRegCode o.m

/-- A Type 1 word (R81). -/
def encodeType1 (d : DualReads) (amf : BitVec 5) (yx : BitVec 5) : Word24 :=
  0b11#2 ++ (d.dy.code ++ (d.dx.code ++ (amf ++ (yx ++ d.addressCode))))

/-- A Type 4 word (R82). -/
def encodeType4 (o : MemOperand) (dir z : BitVec 1) (amf : BitVec 5) (yx : BitVec 5) (r : Dreg) : Word24 :=
  0b011#3 ++ (o.dag.code ++ (dir ++ (z ++ (amf ++ (yx ++ (r.code ++ o.addressCode))))))

/-- A Type 8 word (R83). -/
def encodeType8 (z : BitVec 1) (amf : BitVec 5) (yx : BitVec 5) (d1 d2 : Dreg) : Word24 :=
  0b00101#5 ++ (z ++ (amf ++ (yx ++ (d1.code ++ d2.code))))

/-- A Type 12 word (R84). -/
def encodeType12 (o : MemOperand) (dir : BitVec 1) (c : ShiftClause) (r : Dreg) : Word24 :=
  0b0001001#7 ++ (o.dag.code ++ (dir ++ (c.fn.code ++ (c.x.code ++ (r.code ++ o.addressCode)))))

/-- A Type 14 word (R85). -/
def encodeType14 (c : ShiftClause) (d1 d2 : Dreg) : Word24 :=
  0b000100000#9 ++ (c.fn.code ++ (c.x.code ++ (d1.code ++ d2.code)))

/-- The word of an instruction (R81 to R85). The fields without a meaning in DUAL_READ are 0 (R140). -/
def encode : Instr → Word24
  | .aluDualRead c d => encodeType1 d c.fn.code c.operandCode
  | .macDualRead c d => encodeType1 d c.fn.code c.operandCode
  | .dualRead d => encodeType1 d 0#5 0#5
  | .aluMemRead c z dst o => encodeType4 o 0#1 z.code c.fn.code c.operandCode dst
  | .macMemRead c z dst o => encodeType4 o 0#1 z.code c.fn.code c.operandCode dst
  | .shiftMemRead c dst o => encodeType12 o 0#1 c dst
  | .aluMemWrite c z src o => encodeType4 o 1#1 z.code c.fn.code c.operandCode src
  | .macMemWrite c z src o => encodeType4 o 1#1 z.code c.fn.code c.operandCode src
  | .shiftMemWrite c src o => encodeType12 o 1#1 c src
  | .aluStatusOnly c => encodeType8 0#1 c.fn.code c.operandCode .ar .ar
  | .aluRegMove c z d1 d2 => encodeType8 z.code c.fn.code c.operandCode d1 d2
  | .macRegMove c z d1 d2 => encodeType8 z.code c.fn.code c.operandCode d1 d2
  | .shiftRegMove c d1 d2 => encodeType14 c d1 d2

/-! ## The opcode table's fixed bits -/

/-- A field of a row that has one value: the bits from `lo` up, `len` of them. -/
structure FixedField where
  lo : Nat
  len : Nat
  value : Nat
  deriving DecidableEq, Repr

/-- The word has the field's value in the field's bits. -/
def FixedField.fits (f : FixedField) (w : Word24) : Prop := (bits w f.lo f.len).toNat = f.value

/-- The fixed fields of an instruction's row of spec/opcode_table.json. -/
def Instr.fixedFields : Instr → List FixedField
  | .aluDualRead _ _ => [⟨17, 1, 1⟩, ⟨22, 2, 3⟩]
  | .macDualRead _ _ => [⟨17, 1, 0⟩, ⟨22, 2, 3⟩]
  | .dualRead _ => [⟨13, 5, 0⟩, ⟨22, 2, 3⟩]
  | .aluMemRead _ _ _ _ => [⟨17, 1, 1⟩, ⟨19, 1, 0⟩, ⟨21, 3, 3⟩]
  | .macMemRead _ _ _ _ => [⟨17, 1, 0⟩, ⟨19, 1, 0⟩, ⟨21, 3, 3⟩]
  | .shiftMemRead _ _ _ => [⟨15, 1, 0⟩, ⟨17, 7, 9⟩]
  | .aluMemWrite _ _ _ _ => [⟨17, 1, 1⟩, ⟨19, 1, 1⟩, ⟨21, 3, 3⟩]
  | .macMemWrite _ _ _ _ => [⟨17, 1, 0⟩, ⟨19, 1, 1⟩, ⟨21, 3, 3⟩]
  | .shiftMemWrite _ _ _ => [⟨15, 1, 1⟩, ⟨17, 7, 9⟩]
  | .aluStatusOnly _ => [⟨0, 8, 170⟩, ⟨17, 7, 21⟩]
  | .aluRegMove _ _ _ _ => [⟨17, 1, 1⟩, ⟨19, 5, 5⟩]
  | .macRegMove _ _ _ _ => [⟨17, 1, 0⟩, ⟨19, 5, 5⟩]
  | .shiftRegMove _ _ _ => [⟨15, 9, 32⟩]

end Sys2Proof
end

