-- ==== Sys2Proof/Machine/State.lean ====
section
/-!
DEFINITION. The machine's state, its faults and refusals, and the state after reset. INVENTORY.md lists every field.
-/

namespace Sys2Proof.Machine

open Sys2Proof

/-- Memory: byte lanes by key, keys strictly rising. Address `a` has the keys `3 * a`, `3 * a + 1` and `3 * a + 2`; the
lane `3 * a + k` holds bits `8 * k + 7` down to `8 * k` of the location (log 4). -/
abbrev Memory := List Host.Cell

/-- Why the machine stops with a fault. -/
inductive Fault where
  /-- Raised by a data access to an address with no memory behind it (R50, D9). Safe: the model stops. -/
  | noMemory
  /-- Raised by an instruction the source gives "unpredictable and erroneous results" or forbids without an outcome, with
  the check it fails: the same destination twice (R92, R115) or SR2 beside an SR result (R92, R116). Safe: the model stops. -/
  | unpredictable (why : Reason)
  /-- Raised by `step` on a word that is none of the thirteen rows of the opcode table (U18). Safe: the model stops. -/
  | undecodable (why : DecodeError)
  deriving DecidableEq, Repr

/-- Why an instruction is refused. -/
inductive Refusal where
  /-- Raised by `exec` alone, for an instruction that has no meaning yet. Safe: the model stops. -/
  | notModelled (mnemonic : String)
  /-- Raised by the move `AR = AR` beside a MAC or shifter clause (R185, D17). Safe: the model stops. -/
  | arArNonAlu
  /-- Raised by the move `AR = AR` beside an ALU clause that names AF (R184, D17). Safe: the model stops. -/
  | arArAf
  /-- Raised by a DM-bus write to an address that holds program text (R59, D24). Safe: the model stops. -/
  | storeToCode
  /-- Raised by `step` when the pc is past the program text: the run has ended (D26). Safe: the model stops. -/
  | endOfProgram
  deriving DecidableEq, Repr

/-- Everything the spec gives the machine. -/
structure State where
  /-- The primary copy of the computation registers (R10, R13, R14, R15, R31). -/
  primary : CompRegs
  /-- The secondary copy of the computation registers (R31). -/
  secondary : CompRegs
  /-- The primary copy of the DAG registers (R19, R31). -/
  dagPrimary : DagRegs
  /-- The secondary copy of the DAG registers (R31). -/
  dagSecondary : DagRegs
  /-- PX (R22). -/
  px : Byte
  /-- ASTAT (R24). -/
  astat : Astat
  /-- The mode bits (R28, R31, R201, R213). -/
  modes : Modes
  /-- The page register of DAG1 (R29). -/
  dmpg1 : Byte
  /-- The page register of DAG2 (R29). -/
  dmpg2 : Byte
  /-- The program counter (R27). -/
  pc : Addr
  /-- `P_MEMMAP` (R41): a parameter of the launch, which no step changes. -/
  memMap : List Region
  /-- The extent of the program text (D24, D26): a parameter of the launch, which no step changes. -/
  text : ProgramText
  /-- Memory contents (R42). -/
  mem : Memory
  /-- The MODEL's own field: how many 16-bit writes to 24-bit memory there were, which numbers their draws
  (`P_W24_LOW = any`, R48, log 7). -/
  draws : Nat
  deriving DecidableEq, Repr

/-- Every computation register zero (log 1). -/
def CompRegs.zero : CompRegs where
  ax0 := 0
  ax1 := 0
  ay0 := 0
  ay1 := 0
  ar := 0
  af := 0
  mx0 := 0
  mx1 := 0
  my0 := 0
  my1 := 0
  mr0 := 0
  mr1 := 0
  mr2 := 0
  sr0 := 0
  sr1 := 0
  sr2 := 0
  si := 0
  se := 0
  sb := 0

/-- Every DAG register zero (log 1). -/
def DagRegs.zero : DagRegs where
  i := Vector.replicate 8 0
  m := Vector.replicate 8 0
  l := Vector.replicate 8 0
  b := Vector.replicate 8 0

/-- Every flag zero (log 2). -/
def Astat.zero : Astat := ⟨false, false, false, false, false, false, false, false, false⟩

/-- Every mode bit zero (log 2). -/
def Modes.zero : Modes := ⟨false, false, false, false, false, false⟩

/-- The machine right after reset. The spec gives no reset value for anything (R32, R260): the values are those of
logs 1, 2, 3, 5 and 7. No program stands in memory. -/
def State.reset : State where
  primary := .zero
  secondary := .zero
  dagPrimary := .zero
  dagSecondary := .zero
  px := 0
  astat := .zero
  modes := .zero
  dmpg1 := 0
  dmpg2 := 0
  pc := Config.familyResetPc
  memMap := Config.familyMemMap
  text := ⟨Config.familyResetPc, 0⟩
  mem := []
  draws := 0

end Sys2Proof.Machine
end

