-- ==== Sys2Proof/Machine/Ops.lean ====
section
/-!
DEFINITION. The named operations over memory and registers: byte lanes, locations, the three bus primitives (R46 to
R48), the active register copies (R31), and the writes a step is made of. Nothing here raises or returns from an
exception: no instruction of this chapter does (R240, R243, R244).
-/

namespace Sys2Proof.Machine

open Sys2Proof

/-! ## Byte lanes -/

/-- What a memory lists under a key: `none` where nothing has been written or placed. -/
def memLookup : Memory → Nat → Option Byte
  | [], _ => none
  | (k, v) :: m, key => if k = key then some v else memLookup m key

/-- List a byte under a key, keeping the keys rising. -/
def memInsert : Memory → Nat → Byte → Memory
  | [], key, v => [(key, v)]
  | (k, x) :: m, key, v =>
    if key < k then (key, v) :: (k, x) :: m
    else if key = k then (key, v) :: m
    else (k, x) :: memInsert m key v

/-- The canonical form of a memory: keys strictly rising. -/
abbrev Memory.wf (m : Memory) : Prop := m.Pairwise fun c d => c.1 < d.1

/-- The key of byte lane `k` of address `a` (log 4). -/
def laneKey (a : Addr) (k : Nat) : Nat := 3 * a.toNat + k

/-- One byte of memory by key. A byte nothing has written or placed reads as what the launch left there, a free value
(R53, log 3). -/
def State.byte (s : State) (key : Nat) : Byte :=
  (memLookup s.mem key).getD (Config.launchByte key)

/-- Byte lane `k` of a location: bits `8 * k + 7` down to `8 * k`. -/
def State.lane (s : State) (a : Addr) (k : Nat) : Byte := s.byte (laneKey a k)

/-! ## Locations (R41, R42) -/

/-- `Mem16[a]` (R42). -/
def State.mem16 (s : State) (a : Addr) : Word := s.lane a 1 ++ s.lane a 0

/-- `Mem24[a]` (R42). -/
def State.mem24 (s : State) (a : Addr) : Word24 := wordOfLanes (s.lane a 0) (s.lane a 1) (s.lane a 2)

/-- `Mem24[a][23:8]`, the part of a 24-bit location that a 16-bit transfer carries (R46 to R48). -/
def State.high24 (s : State) (a : Addr) : Word := s.lane a 2 ++ s.lane a 1

/-- `Mem24[a][7:0]` (R47). -/
def State.low24 (s : State) (a : Addr) : Byte := s.lane a 0

/-- `Mem16[a] <- v` (R42). -/
def setMem16 (m : Memory) (a : Addr) (v : Word) : Memory :=
  memInsert (memInsert m (laneKey a 0) (v.extractLsb' 0 8)) (laneKey a 1) (v.extractLsb' 8 8)

/-- Write the three byte lanes of a 24-bit location, the lane of bits 7:0 first. -/
def setLanes (m : Memory) (a : Addr) (b0 b1 b2 : Byte) : Memory :=
  memInsert (memInsert (memInsert m (laneKey a 0) b0) (laneKey a 1) b1) (laneKey a 2) b2

/-- `Mem24[a] <- v` (R42). -/
def setMem24 (m : Memory) (a : Addr) (v : Word24) : Memory :=
  setLanes m a (v.extractLsb' 0 8) (v.extractLsb' 8 8) (v.extractLsb' 16 8)

/-- The address holds program text (R59, D24). -/
def ProgramText.holds (t : ProgramText) (a : Addr) : Bool := (a - t.base).toNat < t.len

/-- The kind a memory map gives an address: that of the first region it falls in, `absent` in none (R41). -/
def mapKind : List Region → Nat → MemKind
  | [], _ => .absent
  | r :: rest, a => if r.base ≤ a ∧ a < r.base + r.size then r.kind else mapKind rest a

/-- `MemKind(a)` (R41). An address that holds program text is 24-bit memory, since an instruction is one 24-bit word
(DEDUCED, log 6). -/
def State.memKind (s : State) (a : Addr) : MemKind :=
  if s.text.holds a then .w24 else mapKind s.memMap a.toNat

/-! ## The bus primitives -/

/-- `DMBusRead(a)` (R46): the 16-bit word of 16-bit memory, bits 23:8 of 24-bit memory; nothing from an address with no
memory behind it (R50). -/
def State.dmBusRead (s : State) (a : Addr) : Option Word :=
  match s.memKind a with
  | .w16 => some (s.mem16 a)
  | .w24 => some (s.high24 a)
  | .absent => none

/-- `PMBusRead(a)` (R47): the word for the data register, and the byte for PX: bits 7:0 of 24-bit memory, 0 from 16-bit
memory (D11, log 12). -/
def State.pmBusRead (s : State) (a : Addr) : Option (Word × Byte) :=
  match s.memKind a with
  | .w16 => some (s.mem16 a, 0)
  | .w24 => some (s.high24 a, s.low24 a)
  | .absent => none

/-- Bits 7:0 of a 24-bit location after a 16-bit write, for each value of `P_W24_LOW` (R48). A draw is the free value of
this write's number (log 7). -/
def State.lowAfterWrite (s : State) (a : Addr) : W24Low → Byte
  | .any => Config.w24Low s.draws
  | .keep => s.low24 a
  | .zero => 0

/-- `DMBusWrite(a, v)` (R48): the word of 16-bit memory; bits 23:8 of 24-bit memory, whose bits 7:0 are then as
`P_W24_LOW` says, `any` where it is not given (log 7); nothing at an address with no memory behind it (R50). -/
def State.dmBusWrite (s : State) (a : Addr) (v : Word) (low : W24Low := .any) : Option State :=
  match s.memKind a with
  | .w16 => some { s with mem := setMem16 s.mem a v }
  | .w24 =>
    some
      { s with
        mem := setLanes s.mem a (s.lowAfterWrite a low) (v.extractLsb' 0 8) (v.extractLsb' 8 8)
        draws := s.draws + 1 }
  | .absent => none

/-! ## The active register copies (R31) -/

/-- The computation registers the register names denote. -/
def State.comp (s : State) : CompRegs := if s.modes.secReg then s.secondary else s.primary

/-- The copy of the computation registers that is not active. -/
def State.compOther (s : State) : CompRegs := if s.modes.secReg then s.primary else s.secondary

/-- Replace the active computation registers. -/
def State.setComp (s : State) (c : CompRegs) : State :=
  if s.modes.secReg then { s with secondary := c } else { s with primary := c }

/-- The DAG registers the register names denote. -/
def State.dag (s : State) : DagRegs := if s.modes.secDag then s.dagSecondary else s.dagPrimary

/-- The copy of the DAG registers that is not active. -/
def State.dagOther (s : State) : DagRegs := if s.modes.secDag then s.dagPrimary else s.dagSecondary

/-- Replace the active DAG registers. -/
def State.setDag (s : State) (d : DagRegs) : State :=
  if s.modes.secDag then { s with dagSecondary := d } else { s with dagPrimary := d }

/-- `I[i] <- v`. -/
def State.setI (s : State) (i : Fin 8) (v : Word) : State :=
  s.setDag { s.dag with i := s.dag.i.set i v }

/-- `RegView` of the state (R104). -/
def State.view (s : State) : RegView := ⟨s.comp, s.astat, s.modes⟩

/-! ## The accumulators (R11) -/

/-- MR as `MR2 ++ MR1 ++ MR0`. -/
def CompRegs.mr (c : CompRegs) : Acc := c.mr2 ++ (c.mr1 ++ c.mr0)

/-- SR as `SR2 ++ SR1 ++ SR0`. -/
def CompRegs.sr (c : CompRegs) : Acc := c.sr2 ++ (c.sr1 ++ c.sr0)

/-- Write the three parts of MR (R106). -/
def CompRegs.setMr (c : CompRegs) (v : Acc) : CompRegs :=
  { c with mr0 := v.extractLsb' 0 16, mr1 := v.extractLsb' 16 16, mr2 := v.extractLsb' 32 8 }

/-- Write the three parts of SR (R106). -/
def CompRegs.setSr (c : CompRegs) (v : Acc) : CompRegs :=
  { c with sr0 := v.extractLsb' 0 16, sr1 := v.extractLsb' 16 16, sr2 := v.extractLsb' 32 8 }

/-! ## The write phase -/

/-- Apply `e.writes` (R120). -/
def applyResult : ResultWrite → CompRegs → CompRegs
  | .nothing, c => c
  | .ar v, c => { c with ar := v }
  | .af v, c => { c with af := v }
  | .mr v, c => c.setMr v
  | .sr v, c => c.setSr v
  | .se v, c => { c with se := v }
  | .sb v, c => { c with sb := v }

/-- `apply e.writes ; ASTAT <- e.astat` (R120). -/
def State.commit (s : State) (e : ComputeEffect) : State :=
  { s.setComp (applyResult e.result s.comp) with astat := e.astat }

/-- `pc <- pc + 1` (R27, R119). -/
def State.advance (s : State) : State := { s with pc := s.pc + 1 }

end Sys2Proof.Machine
end

