-- ==== Sys2Proof/Machine/Operands.lean ====
section
/-!
DEFINITION. Every operand form, over the registers: the data-move primitives `DregRead` and `DregWrite` (R16, R17), the
post-modify of `(Ii += Mj)` (R110 to R113), and the operands of the compute clauses (R89). What the spec leaves open of
them is an argument; its default stands beside it. Machine/Access.lean reads and writes the state through them.
-/

namespace Sys2Proof.Machine

open Sys2Proof

/-! ## Register-file registers in a data move -/

/-- The byte that fills MR2 or SR2 when MR1 or SR1 is written: eight copies of bit 15 (R17). -/
def signByte (v : Word) : Byte := if v.msb then 0xFF else 0x00

/-- The spec's default `P_DREG_WRITE_FX` (R16, R17, D5, log 9): MR2 and SR2 take the low byte, are read sign-extended, and
are filled with the sign of what MR1 or SR1 takes. -/
def familyFx : DregFx :=
  let fx : ByteFx :=
    { extend := fun b => b.signExtend 16
      narrow := fun v => v.extractLsb' 0 8
      fill := fun v _ => signByte v }
  { mr := fx, sr := fx }

/-- `DregRead(r)` over the registers (R16), for any `P_DREG_WRITE_FX`. -/
def CompRegs.dregRead (c : CompRegs) (r : Dreg) (fx : DregFx := familyFx) : Word :=
  match r with
  | .ax0 => c.ax0
  | .ax1 => c.ax1
  | .ay0 => c.ay0
  | .ay1 => c.ay1
  | .ar => c.ar
  | .mx0 => c.mx0
  | .mx1 => c.mx1
  | .my0 => c.my0
  | .my1 => c.my1
  | .mr0 => c.mr0
  | .mr1 => c.mr1
  | .mr2 => fx.mr.extend c.mr2
  | .sr0 => c.sr0
  | .sr1 => c.sr1
  | .sr2 => fx.sr.extend c.sr2
  | .si => c.si

/-- `DregWrite(r, v)` over the registers (R17), right-justified, for any `P_DREG_WRITE_FX`. -/
def CompRegs.dregWrite (c : CompRegs) (r : Dreg) (v : Word) (fx : DregFx := familyFx) : CompRegs :=
  match r with
  | .ax0 => { c with ax0 := v }
  | .ax1 => { c with ax1 := v }
  | .ay0 => { c with ay0 := v }
  | .ay1 => { c with ay1 := v }
  | .ar => { c with ar := v }
  | .mx0 => { c with mx0 := v }
  | .mx1 => { c with mx1 := v }
  | .my0 => { c with my0 := v }
  | .my1 => { c with my1 := v }
  | .mr0 => { c with mr0 := v }
  | .mr1 => { c with mr1 := v, mr2 := fx.mr.fill v c.mr2 }
  | .mr2 => { c with mr2 := fx.mr.narrow v }
  | .sr0 => { c with sr0 := v }
  | .sr1 => { c with sr1 := v, sr2 := fx.sr.fill v c.sr2 }
  | .sr2 => { c with sr2 := fx.sr.narrow v }
  | .si => { c with si := v }

/-! ## The memory operand -/

/-- The spec's default `P_PAGE(s, i)` (R109, D6, log 10): DMPG1 for I0 to I3, DMPG2 for I4 to I7. -/
def State.page (s : State) (i : Fin 8) : Byte := if i.val < 4 then s.dmpg1 else s.dmpg2

/-- Linear post-modify (R112). -/
def linearModify (i m : Word) : Word := i + m

/-- The spec's default circular post-modify `P_CIRC(I, M, L, B)` (R113, D8, log 11). -/
def circularModify (i m l b : Word) : Word :=
  let t : Int := i.toNat + m.toInt
  if 0 ≤ m.toInt then
    BitVec.ofInt 16 (if t < b.toNat + l.toNat then t else t - l.toNat)
  else
    BitVec.ofInt 16 (if (b.toNat : Int) ≤ t then t else t + l.toNat)

/-- `Modify(I, M, L, B)` (R111), for any `P_CIRC`. -/
def modifyIndex (i m l b : Word) (circ : Word → Word → Word → Word → Word := circularModify) : Word :=
  if l = 0 then linearModify i m else circ i m l b

/-! ## The operands of a compute clause -/

/-- The value of an ALU XOP (R89). MR2 is extended as a data move reads it (DEDUCED, log 17). -/
def aluXValue (c : CompRegs) : AluX → Word
  | .ax0 => c.ax0
  | .ax1 => c.ax1
  | .ar => c.ar
  | .mr0 => c.mr0
  | .mr1 => c.mr1
  | .mr2 => c.mr2.signExtend 16
  | .sr0 => c.sr0
  | .sr1 => c.sr1

/-- The value of an ALU YOP (R89). The constant 0 has the value 0, with the results and flags R202 to R206 give for it:
the model's choice (DEDUCED, log 31), since R213 and U14 leave "`yop` = constant 0" open and only R213's place in the
section on MAC clauses confines that to them. -/
def aluYValue (c : CompRegs) : AluY → Word
  | .ay0 => c.ay0
  | .ay1 => c.ay1
  | .af => c.af
  | .zero => 0

/-- The value of a MAC XOP (R89). MR2 is extended as a data move reads it (DEDUCED, log 17). -/
def macXValue (c : CompRegs) : MacX → Word
  | .mx0 => c.mx0
  | .mx1 => c.mx1
  | .ar => c.ar
  | .mr0 => c.mr0
  | .mr1 => c.mr1
  | .mr2 => c.mr2.signExtend 16
  | .sr0 => c.sr0
  | .sr1 => c.sr1

/-- The value of a MAC YOP (R89). -/
def macYValue (c : CompRegs) : MacY → Word
  | .my0 => c.my0
  | .my1 => c.my1
  | .sr1 => c.sr1
  | .zero => 0

/-- The value of a shifter XOP (R89). MR2 and SR2 are extended as a data move reads them (DEDUCED, log 17). -/
def shiftXValue (c : CompRegs) : ShiftX → Word
  | .si => c.si
  | .sr0 => c.sr0
  | .sr1 => c.sr1
  | .sr2 => c.sr2.signExtend 16
  | .ar => c.ar
  | .mr0 => c.mr0
  | .mr1 => c.mr1
  | .mr2 => c.mr2.signExtend 16

end Sys2Proof.Machine
end

