-- ==== Sys2Proof/Machine/Flags.lean ====
section
/-!
DEFINITION. Every flag computation of the annex: ALU carry and overflow (R202 to R206), the flags of an ALU clause, and
the MAC overflow flag (R212). The flags of a shifter clause are a free value (R217). All of it is the spec's general
knowledge (R200, log 13).
-/

namespace Sys2Proof.Machine

open Sys2Proof

/-- What an ALU function gives: the result, the carry and the signed overflow. -/
structure AluOut where
  r : Word
  ac : Bool
  av : Bool
  deriving DecidableEq, Repr

/-- The ALU's addition `x + y + c`: the exact sum narrowed to 16 bits, its carry out, and whether the signed sum is
outside 16 bits (R202 to R206). -/
def addWithCarry (x y : Word) (c : Bool) : AluOut :=
  let r : Word := BitVec.ofNat 16 (x.toNat + y.toNat + c.toNat)
  { r
    ac := decide (2 ^ 16 ≤ x.toNat + y.toNat + c.toNat)
    av := decide (x.toInt + y.toInt + (c.toNat : Int) ≠ r.toInt) }

/-- A function that clears the carry and overflow flags (R206). -/
def logicOut (r : Word) : AluOut := { r, ac := false, av := false }

/-- `ABS xop`: carry cleared, overflow when `x = 0x8000` (R206). -/
def absOut (x : Word) : AluOut :=
  { r := if x.msb then 0 - x else x, ac := false, av := decide (x = 0x8000) }

/-- The sixteen ALU functions (R202 to R206), for AR_SAT = 0. `c` is AC before the instruction (R25). -/
def aluOut (fn : AluFn) (x y : Word) (c : Bool) : AluOut :=
  match fn with
  | .passY => logicOut y
  | .incY => addWithCarry y 0 true
  | .addC => addWithCarry x y c
  | .add => addWithCarry x y false
  | .notY => logicOut (~~~y)
  | .negY => addWithCarry 0 (~~~y) true
  | .subB => addWithCarry x (~~~y) c
  | .sub => addWithCarry x (~~~y) true
  | .decY => addWithCarry y 0xFFFF false
  | .rsub => addWithCarry y (~~~x) true
  | .rsubB => addWithCarry y (~~~x) c
  | .notX => logicOut (~~~x)
  | .and => logicOut (x &&& y)
  | .or => logicOut (x ||| y)
  | .xor => logicOut (x ^^^ y)
  | .absX => absOut x

/-- AS after an ALU clause: the sign of `x` for ABS, unchanged otherwise (R206 and the head of the annex's section 2). -/
def aluSign (fn : AluFn) (x : Word) (before : Bool) : Bool :=
  match fn with
  | .absX => x.msb
  | _ => before

/-- ASTAT after an ALU clause, for AR_SAT = 0: AZ and AN from the result, AC and AV from the function, AV sticky while
AV_LATCH = 1 (R202 to R206, R222, log 14); AQ, MV, SS, SV unchanged. -/
def aluFlags (fn : AluFn) (x : Word) (o : AluOut) (v : RegView) : Astat :=
  { v.astat with
    az := decide (o.r = 0)
    an := o.r.msb
    av := o.av || (v.modes.avLatch && v.astat.av)
    ac := o.ac
    as := aluSign fn x v.astat.as }

/-- MV after a MAC clause: bits 39:31 of the new accumulator are not all equal (R212). -/
def macOverflow (r : Acc) : Bool :=
  !(decide (r.extractLsb' 31 9 = 0#9) || decide (r.extractLsb' 31 9 = 0x1FF#9))

end Sys2Proof.Machine
end

