-- ==== Sys2Proof/Machine/Compute.lean ====
section
/-!
DEFINITION. `Compute` (R104, `P_COMPUTE`): the candidate of 46_compute_clause_annex.md where it defines a result or a
flag, an uninterpreted function of the clause and the register view elsewhere (`Config.freeCompute`). It is the
value of a field of the configuration (Machine/Params.lean); the composition of a step (Machine/Forms.lean) takes any.
-/

namespace Sys2Proof.Machine

open Sys2Proof

/-- The write of a 16-bit result to AR or AF (R106). -/
def aluWrite : AluDest → Word → ResultWrite
  | .ar, r => .ar r
  | .af, r => .af r

/-- The write of a 40-bit result to MR or SR (R106). -/
def macWrite : MacDest → Acc → ResultWrite
  | .mr, r => .mr r
  | .sr, r => .sr r

/-- An ALU clause (R202 to R206). With AR_SAT = 1, for which the annex gives no rule (R201, R222), the result and the
flags AZ, AN, AV, AC are free values; AV stays sticky while AV_LATCH = 1 (R222, log 14). -/
def aluEffect (c : AluClause) (z : AluDest) (v : RegView) : ComputeEffect :=
  let x := aluXValue v.regs c.x
  let o := aluOut c.fn x (aluYValue v.regs c.y) v.astat.ac
  let free := Config.freeCompute (.alu c z) v
  if v.modes.arSat then
    { result := aluWrite z free.word
      astat :=
        { aluFlags c.fn x o v with
          az := free.astat.az
          an := free.astat.an
          av := free.astat.av || (v.modes.avLatch && v.astat.av)
          ac := free.astat.ac } }
  else
    { result := aluWrite z o.r, astat := aluFlags c.fn x o v }

/-- The exact product of R210: each operand read as its format says, doubled in fractional mode (M_MODE = 0). The
modifier `(RND)` has no product here (R213). -/
def macProduct (fmt : MacFmt) (x y : Word) (integerMode : Bool) : Int :=
  let k : Int := if integerMode then 1 else 2
  match fmt with
  | .uu => x.toNat * y.toNat * k
  | .us => x.toNat * y.toInt * k
  | .su => x.toInt * y.toNat * k
  | .ss | .rnd => x.toInt * y.toInt * k

/-- The accumulator after a MAC clause (R210, R211): product, sum or difference modulo 2^40. -/
def macResult (fn : MacFn) (x y : Word) (acc : Acc) (integerMode : Bool) : Acc :=
  let p := macProduct fn.fmt x y integerMode
  match fn.acc with
  | .mul => BitVec.ofInt 40 p
  | .add => BitVec.ofInt 40 (acc.toInt + p)
  | .sub => BitVec.ofInt 40 (acc.toInt - p)

/-- The accumulator a MAC clause reads: its own result register (R105, R213). -/
def macAcc (c : CompRegs) : MacDest → Acc
  | .mr => c.mr
  | .sr => c.sr

/-- The MAC clauses R210 to R212 do not give: the modifier `(RND)` and the constant 0 as `yop` (R213). -/
def macIsOpen (c : MacClause) : Bool := c.fn.fmt == .rnd || c.y == .zero

/-- A MAC clause (R210 to R213). Result and flags of a clause R213 leaves out are free values; with result SR the
arithmetic is that of MR and the overflow flags MV and SV are free values (R213, log 15). The rules are applied for
every value of AR_SAT and AV_LATCH, although R201 gives them for 0 alone (DEDUCED, log 34). -/
def macEffect (c : MacClause) (z : MacDest) (v : RegView) : ComputeEffect :=
  let free := Config.freeCompute (.mac c z) v
  if macIsOpen c then
    { result := macWrite z free.acc, astat := free.astat }
  else
    let r := macResult c.fn (macXValue v.regs c.x) (macYValue v.regs c.y) (macAcc v.regs z) v.modes.mMode
    match z with
    | .mr => { result := .mr r, astat := { v.astat with mv := macOverflow r } }
    | .sr => { result := .sr r, astat := { v.astat with mv := free.astat.mv, sv := free.astat.sv } }

/-- The 40-bit field of an arithmetic shift: the input at `(HI)` or `(LO)`, sign-extended (R215). -/
def ashiftField (half : Half) (x : Word) : Acc :=
  match half with
  | .hi => (x ++ 0#16).signExtend 40
  | .lo => x.signExtend 40

/-- The 40-bit field of a logical shift: the input at `(HI)` or `(LO)`, zero-extended (R216). -/
def lshiftField (half : Half) (x : Word) : Acc :=
  match half with
  | .hi => (x ++ 0#16).zeroExtend 40
  | .lo => x.zeroExtend 40

/-- `ASHIFT` by the signed shift code `n`: left with zeros entering, right with the sign entering (R215). -/
def ashiftBy (f : Acc) (n : Int) : Acc :=
  if 0 ≤ n then f <<< n.toNat else f.sshiftRight (-n).toNat

/-- `LSHIFT` by the signed shift code `n`: left or right with zeros entering (R216). -/
def lshiftBy (f : Acc) (n : Int) : Acc :=
  if 0 ≤ n then f <<< n.toNat else f >>> (-n).toNat

/-- The `SR OR` option (R216). -/
def orOption (orOld : Bool) (old res : Acc) : Acc := if orOld then old ||| res else res

/-- The SR result of a shifter function (R215, R216). NORM, and a shift code of magnitude 40 or more, have a free value
for the shifted field (R218, log 16). -/
def shiftResult (kind : ShiftKind) (half : Half) (orOld : Bool) (x : Word) (n : Int) (old free : Acc) : Acc :=
  match kind with
  | .ashift => orOption orOld old (if n.natAbs < 40 then ashiftBy (ashiftField half x) n else free)
  | .lshift => orOption orOld old (if n.natAbs < 40 then lshiftBy (lshiftField half x) n else free)
  | .norm => free

/-- A shifter clause (R215 to R218). The flags after it are a free value (R217); so are the results of EXP and EXPADJ
(R218, log 16). The rules are applied for every value of AR_SAT and AV_LATCH, although R201 gives them for 0 alone
(DEDUCED, log 34). -/
def shiftEffect (c : ShiftClause) (v : RegView) : ComputeEffect :=
  let free := Config.freeCompute (.shift c) v
  match c.fn with
  | .shift kind half orOld =>
    { result := .sr (shiftResult kind half orOld (shiftXValue v.regs c.x) v.regs.se.toInt v.regs.sr free.acc)
      astat := free.astat }
  | .exp _ => { result := .se free.se, astat := free.astat }
  | .expadj => { result := .sb free.sb, astat := free.astat }

/-- `Compute(op, s)` (R104). -/
def compute (op : ComputeOp) (v : RegView) : ComputeEffect :=
  match op with
  | .alu c z => aluEffect c z v
  | .mac c z => macEffect c z v
  | .shift c => shiftEffect c v

/-- The effect of no compute clause: nothing written, the flags unchanged (R108, R140). -/
def noCompute (v : RegView) : ComputeEffect := { result := .nothing, astat := v.astat }

/-- Status only: the flags of the effect, its writes discarded (R184). -/
def statusOnly (e : ComputeEffect) : ComputeEffect := { e with result := .nothing }

end Sys2Proof.Machine
end

