-- ==== Sys2Proof/Machine/Params.lean ====
section
/-!
DEFINITION. The open parameters of 00_scope.md section 4 as the fields of a configuration (R5, R200). Every meaning, every
form and `stepWith` take the configuration as an argument. The one open parameter that is not here, `P_MEMMAP`, is a
field of State, so that a state can be written out with its memory map.
-/

namespace Sys2Proof.Machine

open Sys2Proof

/-- A configuration: one value for each open parameter (R5). -/
structure Params where
  /-- `P_PAGE(s, i)`: the upper address bits of an access through I`i` (R109, D6). -/
  page : State → Fin 8 → Byte
  /-- `P_CIRC(I, M, L, B)`: circular post-modify (R111, D8). -/
  circ : Word → Word → Word → Word → Word
  /-- `P_DREG_WRITE_FX` (R16, R17, D5). -/
  dregFx : DregFx
  /-- `P_W24_LOW` (R48, D14). -/
  w24Low : W24Low
  /-- `P_PX_DM24`: whether a DM-bus read of 24-bit memory in a dual-read form leaves PX zero (R47, D12). -/
  pxDm24 : Bool
  /-- `P_INTERRUPTS`, the interrupt agent: the state after an interrupt taken at the start of a step, if one is taken there
  (R242, D20; which steps ask it: log 28). -/
  interrupt : State → Option State
  /-- `P_COMPUTE`, the function `Compute` of R104 (D19, R200). -/
  compute : ComputeOp → RegView → ComputeEffect

/-- The configuration that `exec` and `step` run (DESIGN CHOICE, log 32): the spec's recommended value of each parameter
(`P_PAGE`, `P_CIRC`, `P_DREG_WRITE_FX`: logs 9, 10, 11; `P_W24_LOW`: log 7; `P_INTERRUPTS`: log 28), a free value for
`P_PX_DM24` (log 8), and for `P_COMPUTE` the annex's candidate (log 13). -/
def params : Params where
  page := State.page
  circ := circularModify
  dregFx := familyFx
  w24Low := .any
  pxDm24 := Config.pxDm24
  interrupt _ := none
  compute := compute

end Sys2Proof.Machine
end

