-- ==== Sys2Proof/Machine/Access.lean ====
section
/-!
DEFINITION. The operand forms over the state, under a configuration: `DregRead` and `DregWrite` (R16, R17), and the
effective address and the post-modify of a memory operand (R109, R110). The configuration is `params` where none is
given.
-/

namespace Sys2Proof.Machine

open Sys2Proof

/-- `DregRead(r)` (R16). -/
def State.dregRead (s : State) (r : Dreg) (P : Params := params) : Word := s.comp.dregRead r P.dregFx

/-- `DregWrite(r, v)` (R17). -/
def State.dregWrite (s : State) (r : Dreg) (v : Word) (P : Params := params) : State :=
  s.setComp (s.comp.dregWrite r v P.dregFx)

/-- `EA(s, i) = P_PAGE(s, i) ++ s.I[i]` (R109). -/
def State.ea (s : State) (i : Fin 8) (P : Params := params) : Addr := P.page s i ++ s.dag.i[i]

/-- The post-modified value of the index register of `(Ii += Mj)`, with the length and base registers of the index
register (R110). -/
def State.nextIndex (s : State) (o : MemOperand) (P : Params := params) : Word :=
  modifyIndex s.dag.i[o.ireg] s.dag.m[o.mreg] s.dag.l[o.ireg] s.dag.b[o.ireg] P.circ

end Sys2Proof.Machine
end

