-- ==== Sys2Proof/Machine/Forms.lean ====
section
/-!
DEFINITION. The five forms as shared operations, from the step template R120: a read phase that takes every value from
the state before the instruction, then a write phase (R101). Each takes the compute effect and the
configuration as arguments, so it is the same for every value of the open parameters (R5, R104).
-/

namespace Sys2Proof.Machine

open Sys2Proof

/-- The outcome of an instruction of this machine. -/
abbrev Result := Host.Outcome State Fault Refusal

/-- What the read phase of a dual-read form delivers (R130, R140). -/
structure DualFetch where
  vD : Word
  vP : Word
  px : Byte
  iD : Word
  iP : Word
  deriving DecidableEq, Repr

/-- PX after a dual read (R47, R132, C4): the byte of the PM-bus access, or 0 if `P_PX_DM24` holds and the DM-bus access
is to 24-bit memory. -/
def pxAfter (dmKind : MemKind) (p : Byte) (P : Params) : Byte := if dmKind = .w24 ∧ P.pxDm24 = true then 0 else p

/-- The read phase of the two reads; nothing if an address has no memory behind it (R50). -/
def State.dualFetch (s : State) (d : DualReads) (P : Params) : Option DualFetch :=
  let aD := s.ea d.dm.ireg P
  match s.dmBusRead aD, s.pmBusRead (s.ea d.pm.ireg P) with
  | some vD, some (vP, p) => some ⟨vD, vP, pxAfter (s.memKind aD) p P, s.nextIndex d.dm P, s.nextIndex d.pm P⟩
  | _, _ => none

/-- The write phase of the two reads (R130, R140). -/
def State.dualWrite (s : State) (d : DualReads) (f : DualFetch) (P : Params) : State :=
  let s := (s.dregWrite d.dx.toDreg f.vD P).dregWrite d.dy.toDreg f.vP P
  { (s.setI d.dm.ireg f.iD).setI d.pm.ireg f.iP with px := f.px }

/-- Compute with Dual Memory Read, and Dual Memory Read (R130, R131, R140). -/
def dualReadForm (e : ComputeEffect) (d : DualReads) (s : State) (P : Params) : Result :=
  match s.dualFetch d P with
  | some f => .next ((s.commit e).dualWrite d f P).advance
  | none => .fault .noMemory

/-- Compute with Memory Read (R150). -/
def memReadForm (op : ComputeOp) (e : ComputeEffect) (dst : Dreg) (o : MemOperand) (s : State) (P : Params) :
    Result :=
  if sameDestination op dst then .fault (.unpredictable .sameDestination)
  else
    match s.dmBusRead (s.ea o.ireg P) with
    | some v => .next (((s.commit e).dregWrite dst v P).setI o.ireg (s.nextIndex o P)).advance
    | none => .fault .noMemory

/-- Compute with Memory Write (R165): a write to an address that holds program text is refused (R59). -/
def memWriteForm (op : ComputeOp) (e : ComputeEffect) (src : Dreg) (o : MemOperand) (s : State) (P : Params) :
    Result :=
  if sr2Source op src then .fault (.unpredictable .sr2Source)
  else if s.text.holds (s.ea o.ireg P) then .refused .storeToCode
  else
    match s.dmBusWrite (s.ea o.ireg P) (s.dregRead src P) P.w24Low with
    | some s' => .next ((s'.commit e).setI o.ireg (s.nextIndex o P)).advance
    | none => .fault .noMemory

/-- Compute with Register to Register Move (R180), apart from the move `AR = AR`. -/
def regMoveForm (op : ComputeOp) (e : ComputeEffect) (d1 d2 : Dreg) (s : State) (P : Params) : Result :=
  if sameDestination op d1 then .fault (.unpredictable .sameDestination)
  else if sr2Source op d2 then .fault (.unpredictable .sr2Source)
  else .next ((s.commit e).dregWrite d1 (s.dregRead d2 P) P).advance

/-- The move `d1 = d2` beside a MAC or shifter clause: `AR = AR` is refused (R181, R185). -/
def nonAluMoveForm (op : ComputeOp) (e : ComputeEffect) (d1 d2 : Dreg) (s : State) (P : Params) : Result :=
  if d1 = .ar ∧ d2 = .ar then .refused .arArNonAlu else regMoveForm op e d1 d2 s P

/-- Status only (R184): the flags of the effect and nothing else. -/
def statusOnlyForm (e : ComputeEffect) (s : State) : Result := .next (s.commit (statusOnly e)).advance

end Sys2Proof.Machine
end

