-- ==== Sys2Proof/Machine/DualRead.lean ====
section
/-!
DEFINITION. The meanings of ALU_DUAL_READ, MAC_DUAL_READ (41_compute_dual_memory_read.md) and DUAL_READ
(42_dual_memory_read.md).
-/

namespace Sys2Proof.Machine

open Sys2Proof

/-- ALU_DUAL_READ (R130). The result register is AR. -/
def execAluDualRead (c : AluClause) (d : DualReads) (s : State) (P : Params := params) : Result :=
  dualReadForm (P.compute (.alu c .ar) s.view) d s P

/-- MAC_DUAL_READ (R131). The result register is MR. -/
def execMacDualRead (c : MacClause) (d : DualReads) (s : State) (P : Params := params) : Result :=
  dualReadForm (P.compute (.mac c .mr) s.view) d s P

/-- DUAL_READ (R140). -/
def execDualRead (d : DualReads) (s : State) (P : Params := params) : Result :=
  dualReadForm (noCompute s.view) d s P

end Sys2Proof.Machine
end

