-- ==== Sys2Proof/Machine/MemRead.lean ====
section
/-!
DEFINITION. The meanings of ALU_MEM_READ, MAC_MEM_READ and SHIFT_MEM_READ (43_compute_memory_read.md). The access is
always over the DM bus and never touches PX (R153).
-/

namespace Sys2Proof.Machine

open Sys2Proof

/-- ALU_MEM_READ (R150). -/
def execAluMemRead (c : AluClause) (z : AluDest) (dst : Dreg) (o : MemOperand) (s : State) (P : Params := params) :
    Result :=
  memReadForm (.alu c z) (P.compute (.alu c z) s.view) dst o s P

/-- MAC_MEM_READ (R151). -/
def execMacMemRead (c : MacClause) (z : MacDest) (dst : Dreg) (o : MemOperand) (s : State) (P : Params := params) :
    Result :=
  memReadForm (.mac c z) (P.compute (.mac c z) s.view) dst o s P

/-- SHIFT_MEM_READ (R152). -/
def execShiftMemRead (c : ShiftClause) (dst : Dreg) (o : MemOperand) (s : State) (P : Params := params) : Result :=
  memReadForm (.shift c) (P.compute (.shift c) s.view) dst o s P

end Sys2Proof.Machine
end

