-- ==== Sys2Proof/Machine/MemWrite.lean ====
section
/-!
DEFINITION. The meanings of ALU_MEM_WRITE, MAC_MEM_WRITE and SHIFT_MEM_WRITE (44_compute_memory_write.md). The access is
always over the DM bus and neither reads nor writes PX (R168).
-/

namespace Sys2Proof.Machine

open Sys2Proof

/-- ALU_MEM_WRITE (R165). -/
def execAluMemWrite (c : AluClause) (z : AluDest) (src : Dreg) (o : MemOperand) (s : State) (P : Params := params) :
    Result :=
  memWriteForm (.alu c z) (P.compute (.alu c z) s.view) src o s P

/-- MAC_MEM_WRITE (R166). -/
def execMacMemWrite (c : MacClause) (z : MacDest) (src : Dreg) (o : MemOperand) (s : State) (P : Params := params) :
    Result :=
  memWriteForm (.mac c z) (P.compute (.mac c z) s.view) src o s P

/-- SHIFT_MEM_WRITE (R167). -/
def execShiftMemWrite (c : ShiftClause) (src : Dreg) (o : MemOperand) (s : State) (P : Params := params) : Result :=
  memWriteForm (.shift c) (P.compute (.shift c) s.view) src o s P

end Sys2Proof.Machine
end

