-- ==== Sys2Proof/Machine/RegMove.lean ====
section
/-!
DEFINITION. The meanings of ALU_STATUS_ONLY, ALU_REG_MOVE, MAC_REG_MOVE and SHIFT_REG_MOVE
(45_compute_register_move.md). No memory, no DAG register and not PX is touched (R180).
-/

namespace Sys2Proof.Machine

open Sys2Proof

/-- ALU_STATUS_ONLY (R184). -/
def execAluStatusOnly (c : AluClause) (s : State) (P : Params := params) : Result :=
  statusOnlyForm (P.compute (.alu c .ar) s.view) s

/-- ALU_REG_MOVE (R180). The move `AR = AR` is status only beside a clause with result AR and refused beside one with
result AF (R184). -/
def execAluRegMove (c : AluClause) (z : AluDest) (d1 d2 : Dreg) (s : State) (P : Params := params) : Result :=
  if d1 = .ar ∧ d2 = .ar then
    match z with
    | .ar => statusOnlyForm (P.compute (.alu c .ar) s.view) s
    | .af => .refused .arArAf
  else regMoveForm (.alu c z) (P.compute (.alu c z) s.view) d1 d2 s P

/-- MAC_REG_MOVE (R181). -/
def execMacRegMove (c : MacClause) (z : MacDest) (d1 d2 : Dreg) (s : State) (P : Params := params) : Result :=
  nonAluMoveForm (.mac c z) (P.compute (.mac c z) s.view) d1 d2 s P

/-- SHIFT_REG_MOVE (R182). -/
def execShiftRegMove (c : ShiftClause) (d1 d2 : Dreg) (s : State) (P : Params := params) : Result :=
  nonAluMoveForm (.shift c) (P.compute (.shift c) s.view) d1 d2 s P

end Sys2Proof.Machine
end

