-- ==== Sys2Proof/Machine/Dispatch.lean ====
section
/-!
DEFINITION. One arm per instruction.
-/

namespace Sys2Proof.Machine

open Sys2Proof

/-- The meaning of an instruction. -/
def exec (i : Instr) (s : State) : Host.Outcome State Fault Refusal :=
  match i with
  | .aluDualRead c d => Sys2Proof.Machine.execAluDualRead c d s
  | .macDualRead c d => Sys2Proof.Machine.execMacDualRead c d s
  | .dualRead d => Sys2Proof.Machine.execDualRead d s
  | .aluMemRead c z dst o => Sys2Proof.Machine.execAluMemRead c z dst o s
  | .macMemRead c z dst o => Sys2Proof.Machine.execMacMemRead c z dst o s
  | .shiftMemRead c dst o => Sys2Proof.Machine.execShiftMemRead c dst o s
  | .aluMemWrite c z src o => Sys2Proof.Machine.execAluMemWrite c z src o s
  | .macMemWrite c z src o => Sys2Proof.Machine.execMacMemWrite c z src o s
  | .shiftMemWrite c src o => Sys2Proof.Machine.execShiftMemWrite c src o s
  | .aluStatusOnly c => Sys2Proof.Machine.execAluStatusOnly c s
  | .aluRegMove c z d1 d2 => Sys2Proof.Machine.execAluRegMove c z d1 d2 s
  | .macRegMove c z d1 d2 => Sys2Proof.Machine.execMacRegMove c z d1 d2 s
  | .shiftRegMove c d1 d2 => Sys2Proof.Machine.execShiftRegMove c d1 d2 s

end Sys2Proof.Machine
end

