-- ==== Sys2Proof/Machine/Fetch.lean ====
section
/-!
DEFINITION. Fetching an instruction and running it: the program text is the 24-bit words of memory at the addresses it holds, indexed
by the pc (R27, R40, D24, D26).
-/

namespace Sys2Proof.Machine

open Sys2Proof

/-- The instruction word at the pc; nothing when the pc is past the program text (D26). -/
def State.fetch (s : State) : Option Word24 :=
  if s.text.holds s.pc then some (s.mem24 s.pc) else none

/-- Fetch, decode and run one instruction, `run` being the meaning of an instruction. The run ends at the end of the
program text (D26); a word that is no instruction of this chapter faults (U18). -/
def State.runFetched (s : State) (run : Instr → State → Result) : Result :=
  match s.fetch with
  | none => .refused .endOfProgram
  | some w =>
    match decode w with
    | .ok i => run i s
    | .error e => .fault (.undecodable e)

/-- Place an instruction word at the pc as program text (log 5). The extent of the text changes only if it does not
hold the pc already. -/
def State.placeWord (s : State) (w : Word24) : State :=
  { s with
    text := if s.text.holds s.pc then s.text else ⟨s.pc, 1⟩
    mem := setMem24 s.mem s.pc w }

end Sys2Proof.Machine
end

