-- ==== Sys2Proof/Machine/Step.lean ====
section
/-!
DEFINITION. One step: fetch at the pc, decode, run. The instruction itself advances the pc (R27); the step adds nothing
around it.
-/

namespace Sys2Proof.Machine

open Sys2Proof

/-- One step of the machine: the step under any configuration (`stepWith`) at `params`, which takes no interrupt (logs 28
and 32). -/
def step (s : State) : Host.Outcome State Fault Refusal := s.runFetched exec

/-- `s` with the instruction whose bits are `w` (numbered as the opcode table numbers them) placed where `step` fetches
its next instruction (log 5). -/
def State.withFetchWord (s : State) (nbits w : Nat) : State := s.placeWord (tableWord nbits w)

end Sys2Proof.Machine
end

