-- ==== Sys2Proof/Machine/Assemble.lean ====
section
/-!
DEFINITION. From the parsed text of an instruction to the instruction it spells, or why it spells none (R70 to R79, R91,
D1, D18, D27); and the canonical text of an instruction (R72). Clauses are found by their kind, not by their place, so
the order they are written in does not matter (R72, R103).
-/

namespace Sys2Proof.Machine

open Sys2Proof

/-- Why a text spells no instruction of this chapter. -/
inductive TextError where
  /-- The clauses are not those of one of the five syntaxes R73 to R77; given also to some texts that fail a check of R91
  besides (DESIGN CHOICE, log 30). -/
  | notAForm
  /-- A refusal of R91, R184 or R185, under its name. -/
  | refused (why : Reason)
  deriving DecidableEq, Repr

/-- The ALU XOP a text names, if it is one (R89). -/
def aluXOfText : OperandText → Option AluX
  | .reg (.dreg .ax0) => some .ax0
  | .reg (.dreg .ax1) => some .ax1
  | .reg (.dreg .ar) => some .ar
  | .reg (.dreg .mr0) => some .mr0
  | .reg (.dreg .mr1) => some .mr1
  | .reg (.dreg .mr2) => some .mr2
  | .reg (.dreg .sr0) => some .sr0
  | .reg (.dreg .sr1) => some .sr1
  | _ => none

/-- The ALU YOP a text names, if it is one (R89). -/
def aluYOfText : OperandText → Option AluY
  | .reg (.dreg .ay0) => some .ay0
  | .reg (.dreg .ay1) => some .ay1
  | .reg .af => some .af
  | .zero => some .zero
  | _ => none

/-- The MAC XOP a text names, if it is one (R89). -/
def macXOfText : OperandText → Option MacX
  | .reg (.dreg .mx0) => some .mx0
  | .reg (.dreg .mx1) => some .mx1
  | .reg (.dreg .ar) => some .ar
  | .reg (.dreg .mr0) => some .mr0
  | .reg (.dreg .mr1) => some .mr1
  | .reg (.dreg .mr2) => some .mr2
  | .reg (.dreg .sr0) => some .sr0
  | .reg (.dreg .sr1) => some .sr1
  | _ => none

/-- The MAC YOP a text names, if it is one (R89). -/
def macYOfText : OperandText → Option MacY
  | .reg (.dreg .my0) => some .my0
  | .reg (.dreg .my1) => some .my1
  | .reg (.dreg .sr1) => some .sr1
  | .zero => some .zero
  | _ => none

/-- The shifter XOP a text names, if it is one (R89). -/
def shiftXOfText : OperandText → Option ShiftX
  | .reg (.dreg .si) => some .si
  | .reg (.dreg .sr0) => some .sr0
  | .reg (.dreg .sr1) => some .sr1
  | .reg (.dreg .sr2) => some .sr2
  | .reg (.dreg .ar) => some .ar
  | .reg (.dreg .mr0) => some .mr0
  | .reg (.dreg .mr1) => some .mr1
  | .reg (.dreg .mr2) => some .mr2
  | _ => none

/-- A compute clause once its text is read. -/
inductive ClauseOp where
  /-- A clause with a result register of its unit (R13). -/
  | op (o : ComputeOp)
  /-- `NONE = <ALU>` (R79, R184). -/
  | noneAlu (c : AluClause)
  /-- A clause whose result is none of its unit's (R13), and whether its unit is the shifter. In a dual-read form it has a
  name of R91; in the others it is none of the syntaxes. -/
  | otherResult (shifter : Bool)
  deriving DecidableEq, Repr

/-- An ALU expression with its result (R13, R78, R184). Both slots must hold an operand of their set, also the one a
function of one operand does not write (DESIGN CHOICE, log 33). -/
def aluOfText (fn : AluFn) (x y : OperandText) (result : ResultText) : Except TextError ClauseOp :=
  match aluXOfText x, aluYOfText y with
  | some x, some y =>
    match result with
    | .reg .ar => .ok (.op (.alu ⟨fn, x, y⟩ .ar))
    | .reg .af => .ok (.op (.alu ⟨fn, x, y⟩ .af))
    | .none => .ok (.noneAlu ⟨fn, x, y⟩)
    | _ => .ok (.otherResult false)
  | _, _ => .error (.refused .notRestrictedForm)

/-- A MAC expression with its result (R13, R78). -/
def macOfText (fn : MacFn) (x y : OperandText) (result : ResultText) : Except TextError ClauseOp :=
  match macXOfText x, macYOfText y with
  | some x, some y =>
    match result with
    | .reg .mr => .ok (.op (.mac ⟨fn, x, y⟩ .mr))
    | .reg .sr => .ok (.op (.mac ⟨fn, x, y⟩ .sr))
    | _ => .ok (.otherResult false)
  | _, _ => .error (.refused .notRestrictedForm)

/-- A shifter expression with its result (R13, R78, R87). -/
def shiftOfText (fn : ShiftFn) (x : OperandText) (result : ResultText) : Except TextError ClauseOp :=
  match shiftXOfText x with
  | some x => .ok (if result = .reg fn.dest then .op (.shift ⟨fn, x⟩) else .otherResult true)
  | none => .error (.refused .notRestrictedForm)

/-- A compute clause (R78), its exclusions first (R91). -/
def computeOfText (c : ComputeText) : Except TextError ClauseOp :=
  if c.conditional then .error (.refused .excludedIf)
  else
    match c.expr with
    | .macSaturate => .error (.refused .excludedSat)
    | .divs => .error (.refused .excludedDiv)
    | .divq => .error (.refused .excludedDiv)
    | .shiftImmediate => .error (.refused .excludedShiftImm)
    | .alu fn x y => aluOfText fn x y c.result
    | .mac fn x y => macOfText fn x y c.result
    | .shift fn x => shiftOfText fn x c.result

/-- The number of a DAG register within its generator (R19). -/
def withinDag (i : Fin 8) : Fin 4 := ⟨i.val % 4, by omega⟩

/-- A memory operand: only `(Ii += Mj)`, with both registers of one generator (R20, R91). -/
def operandOfText : AddrText → Except TextError MemOperand
  | .postModify i m =>
    if i.val < 4 ∧ m.val < 4 then .ok ⟨.dag1, withinDag i, withinDag m⟩
    else if 4 ≤ i.val ∧ 4 ≤ m.val then .ok ⟨.dag2, withinDag i, withinDag m⟩
    else .error (.refused .dagPairing)
  | .noModify _ => .error (.refused .addrMode)
  | .postImmediate _ _ => .error (.refused .addrMode)
  | .preModify _ _ => .error (.refused .addrMode)

/-- A register of DREG, or the text is none of the forms (R75 to R77). -/
def dregOfText : RegName → Except TextError Dreg
  | .dreg r => .ok r
  | _ => .error .notAForm

/-- DREGX, the destinations of the DM-bus read of a dual-read form (R12). -/
def dregXOfText : RegName → Option DregX
  | .dreg .ax0 => some .ax0
  | .dreg .ax1 => some .ax1
  | .dreg .mx0 => some .mx0
  | .dreg .mx1 => some .mx1
  | _ => none

/-- DREGY, the destinations of the PM-bus read of a dual-read form (R12). -/
def dregYOfText : RegName → Option DregY
  | .dreg .ay0 => some .ay0
  | .dreg .ay1 => some .ay1
  | .dreg .my0 => some .my0
  | .dreg .my1 => some .my1
  | _ => none

/-- The `DM( )` read and the `PM( )` read of a dual-read form (R45, R73, R74, R91). -/
def dualOfText (dx : RegName) (dm : AddrText) (dy : RegName) (pm : AddrText) : Except TextError DualReads :=
  match operandOfText dm, operandOfText pm with
  | .ok oD, .ok oP =>
    if oD.dag = .dag1 ∧ oP.dag = .dag2 then
      match dregXOfText dx, dregYOfText dy with
      | some x, some y => .ok ⟨x, oD.i, oD.m, y, oP.i, oP.m⟩
      | _, _ => .error (.refused .type1Dest)
    else .error (.refused .dagBus)
  | .error e, _ => .error e
  | _, .error e => .error e

/-- Two reads in either order: one is spelled `DM( )`, the other `PM( )` (R72 to R74). Two reads spelled alike are none of
the syntaxes, whatever their operands (the order of reasons is the model's, R241, log 30). -/
def readsOfText (r1 r2 : RegName × MemText) : Except TextError DualReads :=
  match r1.2.spelling, r2.2.spelling with
  | .dm, .pm => dualOfText r1.1 r1.2.addr r2.1 r2.2.addr
  | .pm, .dm => dualOfText r2.1 r2.2.addr r1.1 r1.2.addr
  | _, _ => .error .notAForm

/-- Compute with Dual Memory Read (R73): an ALU clause to AR or a MAC clause to MR; `no_shift_in_type1` for every shifter
clause, `type1_result` for every other result (R91). -/
def dualReadOfText (o : ClauseOp) (d : DualReads) : Except TextError Instr :=
  match o with
  | .op (.alu c .ar) => .ok (.aluDualRead c d)
  | .op (.mac c .mr) => .ok (.macDualRead c d)
  | .op (.shift _) => .error (.refused .noShiftInType1)
  | .otherResult true => .error (.refused .noShiftInType1)
  | _ => .error (.refused .type1Result)

/-- Compute with Memory Read (R75). -/
def memReadOfText (o : ClauseOp) (dst : Dreg) (m : MemOperand) : Except TextError Instr :=
  match o with
  | .op (.alu c z) => .ok (.aluMemRead c z dst m)
  | .op (.mac c z) => .ok (.macMemRead c z dst m)
  | .op (.shift c) => .ok (.shiftMemRead c dst m)
  | _ => .error .notAForm

/-- Compute with Memory Write (R76). -/
def memWriteOfText (o : ClauseOp) (src : Dreg) (m : MemOperand) : Except TextError Instr :=
  match o with
  | .op (.alu c z) => .ok (.aluMemWrite c z src m)
  | .op (.mac c z) => .ok (.macMemWrite c z src m)
  | .op (.shift c) => .ok (.shiftMemWrite c src m)
  | _ => .error .notAForm

/-- Compute with Register to Register Move (R77); the move `AR = AR` beside an ALU clause with result AR is status only
(R184). -/
def regMoveOfText (o : ClauseOp) (d1 d2 : Dreg) : Except TextError Instr :=
  match o with
  | .op (.alu c .ar) => if d1 = .ar ∧ d2 = .ar then .ok (.aluStatusOnly c) else .ok (.aluRegMove c .ar d1 d2)
  | .op (.alu c .af) => .ok (.aluRegMove c .af d1 d2)
  | .op (.mac c z) => .ok (.macRegMove c z d1 d2)
  | .op (.shift c) => .ok (.shiftRegMove c d1 d2)
  | _ => .error .notAForm

/-- An instruction passes only if it fails no check of R91. -/
def checked (i : Instr) : Except TextError Instr :=
  match i.check with
  | none => .ok i
  | some why => .error (.refused why)

/-- The compute clauses of a text. -/
def computesOf (t : Text) : List ComputeText :=
  t.filterMap fun | .compute c => some c | _ => none

/-- The memory reads of a text. -/
def readsOf (t : Text) : List (RegName × MemText) :=
  t.filterMap fun | .read dst m => some (dst, m) | _ => none

/-- The memory writes of a text. -/
def writesOf (t : Text) : List (MemText × RegName) :=
  t.filterMap fun | .write m src => some (m, src) | _ => none

/-- The register moves of a text. -/
def movesOf (t : Text) : List (RegName × RegName) :=
  t.filterMap fun | .move d s => some (d, s) | _ => none

/-- The instruction a text spells (R71 to R79), or why it spells none (R91). Where several reasons hold, R241 leaves the
choice open; the order here is the model's (log 30): the kinds of the clauses, the compute clause, the registers of a
single access or move or the spelling of two reads, the operands, and last what takes both clauses. -/
def assemble (t : Text) : Except TextError Instr :=
  match computesOf t, readsOf t, writesOf t, movesOf t with
  | [], [r1, r2], [], [] => do
    let d ← readsOfText r1 r2
    checked (.dualRead d)
  | [c], [r1, r2], [], [] => do
    let o ← computeOfText c
    let d ← readsOfText r1 r2
    checked (← dualReadOfText o d)
  | [c], [r], [], [] => do
    let o ← computeOfText c
    let dst ← dregOfText r.1
    let m ← operandOfText r.2.addr
    checked (← memReadOfText o dst m)
  | [c], [], [w], [] => do
    let o ← computeOfText c
    let src ← dregOfText w.2
    let m ← operandOfText w.1.addr
    checked (← memWriteOfText o src m)
  | [c], [], [], [v] => do
    let o ← computeOfText c
    let d1 ← dregOfText v.1
    let d2 ← dregOfText v.2
    checked (← regMoveOfText o d1 d2)
  | [c], [], [], [] => do
    let o ← computeOfText c
    match o with
    | .noneAlu a => checked (.aluStatusOnly a)
    | _ => .error .notAForm
  | _, _, _, _ => .error .notAForm

/-! ## The canonical text of an instruction (R72) -/

/-- The text of an ALU operand. -/
def AluX.toText : AluX → OperandText
  | .ax0 => .reg (.dreg .ax0)
  | .ax1 => .reg (.dreg .ax1)
  | .ar => .reg (.dreg .ar)
  | .mr0 => .reg (.dreg .mr0)
  | .mr1 => .reg (.dreg .mr1)
  | .mr2 => .reg (.dreg .mr2)
  | .sr0 => .reg (.dreg .sr0)
  | .sr1 => .reg (.dreg .sr1)

/-- The text of an ALU operand. -/
def AluY.toText : AluY → OperandText
  | .ay0 => .reg (.dreg .ay0)
  | .ay1 => .reg (.dreg .ay1)
  | .af => .reg .af
  | .zero => .zero

/-- The text of a MAC operand. -/
def MacX.toText : MacX → OperandText
  | .mx0 => .reg (.dreg .mx0)
  | .mx1 => .reg (.dreg .mx1)
  | .ar => .reg (.dreg .ar)
  | .mr0 => .reg (.dreg .mr0)
  | .mr1 => .reg (.dreg .mr1)
  | .mr2 => .reg (.dreg .mr2)
  | .sr0 => .reg (.dreg .sr0)
  | .sr1 => .reg (.dreg .sr1)

/-- The text of a MAC operand. -/
def MacY.toText : MacY → OperandText
  | .my0 => .reg (.dreg .my0)
  | .my1 => .reg (.dreg .my1)
  | .sr1 => .reg (.dreg .sr1)
  | .zero => .zero

/-- The text of a shifter operand. -/
def ShiftX.toText : ShiftX → OperandText
  | .si => .reg (.dreg .si)
  | .sr0 => .reg (.dreg .sr0)
  | .sr1 => .reg (.dreg .sr1)
  | .sr2 => .reg (.dreg .sr2)
  | .ar => .reg (.dreg .ar)
  | .mr0 => .reg (.dreg .mr0)
  | .mr1 => .reg (.dreg .mr1)
  | .mr2 => .reg (.dreg .mr2)

/-- The clause of a compute operation. -/
def clauseOfOp (o : ComputeOp) : Clause :=
  .compute
    { conditional := false
      result := .reg o.dest
      expr :=
        match o with
        | .alu c _ => .alu c.fn (AluX.toText c.x) (AluY.toText c.y)
        | .mac c _ => .mac c.fn (MacX.toText c.x) (MacY.toText c.y)
        | .shift c => .shift c.fn (ShiftX.toText c.x) }

/-- The text of a memory operand under a spelling. -/
def memToText (sp : Spelling) (o : MemOperand) : MemText := ⟨sp, .postModify o.ireg o.mreg⟩

/-- The two read clauses of a dual-read form, the DM read first (R72). -/
def dualToText (d : DualReads) : List Clause :=
  [.read (.dreg d.dx.toDreg) (memToText .dm d.dm), .read (.dreg d.dy.toDreg) (memToText .pm d.pm)]

/-- The canonical text of an instruction (R72), the single accesses spelled `DM`. -/
def disassemble : Instr → Text
  | .aluDualRead c d => clauseOfOp (.alu c .ar) :: dualToText d
  | .macDualRead c d => clauseOfOp (.mac c .mr) :: dualToText d
  | .dualRead d => dualToText d
  | .aluMemRead c z dst o => [clauseOfOp (.alu c z), .read (.dreg dst) (memToText .dm o)]
  | .macMemRead c z dst o => [clauseOfOp (.mac c z), .read (.dreg dst) (memToText .dm o)]
  | .shiftMemRead c dst o => [clauseOfOp (.shift c), .read (.dreg dst) (memToText .dm o)]
  | .aluMemWrite c z src o => [.write (memToText .dm o) (.dreg src), clauseOfOp (.alu c z)]
  | .macMemWrite c z src o => [.write (memToText .dm o) (.dreg src), clauseOfOp (.mac c z)]
  | .shiftMemWrite c src o => [.write (memToText .dm o) (.dreg src), clauseOfOp (.shift c)]
  | .aluStatusOnly c => [clauseOfOp (.alu c .ar), .move (.dreg .ar) (.dreg .ar)]
  | .aluRegMove c z d1 d2 => [clauseOfOp (.alu c z), .move (.dreg d1) (.dreg d2)]
  | .macRegMove c z d1 d2 => [clauseOfOp (.mac c z), .move (.dreg d1) (.dreg d2)]
  | .shiftRegMove c d1 d2 => [clauseOfOp (.shift c), .move (.dreg d1) (.dreg d2)]

end Sys2Proof.Machine
end

