-- ==== Sys2Proof/Machine/Parametric.lean ====
section
/-!
DEFINITION. The meaning of an instruction and the step under any configuration of the open parameters (R5, R104, R200).
`exec` and `step` are these functions at `params` (log 32).
-/

namespace Sys2Proof.Machine

open Sys2Proof

/-- The meaning of an instruction, the open parameters being `P`. -/
def execWith (P : Params) (i : Instr) (s : State) : Result :=
  match i with
  | .aluDualRead c d => execAluDualRead c d s P
  | .macDualRead c d => execMacDualRead c d s P
  | .dualRead d => execDualRead d s P
  | .aluMemRead c z dst o => execAluMemRead c z dst o s P
  | .macMemRead c z dst o => execMacMemRead c z dst o s P
  | .shiftMemRead c dst o => execShiftMemRead c dst o s P
  | .aluMemWrite c z src o => execAluMemWrite c z src o s P
  | .macMemWrite c z src o => execMacMemWrite c z src o s P
  | .shiftMemWrite c src o => execShiftMemWrite c src o s P
  | .aluStatusOnly c => execAluStatusOnly c s P
  | .aluRegMove c z d1 d2 => execAluRegMove c z d1 d2 s P
  | .macRegMove c z d1 d2 => execMacRegMove c z d1 d2 s P
  | .shiftRegMove c d1 d2 => execShiftRegMove c d1 d2 s P

/-- One step, the open parameters being `P`: an interrupt that `P_INTERRUPTS` takes here, between two instructions and
never inside one (R100, R242), or else the instruction at the pc. DESIGN CHOICE (log 28): the agent is asked at every
step, also where the pc is past the program text, where the run otherwise ends (D26), and where the word at the pc
decodes to no instruction; the spec does not say. -/
def stepWith (P : Params) (s : State) : Result :=
  match P.interrupt s with
  | some s' => .next s'
  | none => s.runFetched (execWith P)

end Sys2Proof.Machine
end

