-- ==== Sys2Proof/Machine/Timing.lean ====
section
/-!
DEFINITION. The cycle tables (R270 to R272), as a function of the number of bus conflicts. They are the spec's
documentation: no semantic rule reads them (R273, D25), the step does not either, and there is no clock in State.
-/

namespace Sys2Proof.Machine

open Sys2Proof

/-- How many memory accesses an instruction makes, its own fetch among them: three items for the dual-read forms, two
for the single-access forms (R270, R271), the fetch alone for the register move (R272). -/
def fetchItems : Instr → Nat
  | .aluDualRead _ _ => 3
  | .macDualRead _ _ => 3
  | .dualRead _ => 3
  | .aluMemRead _ _ _ _ => 2
  | .macMemRead _ _ _ _ => 2
  | .shiftMemRead _ _ _ => 2
  | .aluMemWrite _ _ _ _ => 2
  | .macMemWrite _ _ _ _ => 2
  | .shiftMemWrite _ _ _ => 2
  | .aluStatusOnly _ => 1
  | .aluRegMove _ _ _ _ => 1
  | .macRegMove _ _ _ _ => 1
  | .shiftRegMove _ _ _ => 1

/-- The cycles an instruction takes with a number of bus conflicts: one cycle, and one more for each conflict; nothing
where the tables have no row (R270 to R272). -/
def cycles (i : Instr) (conflicts : Nat) : Option Nat :=
  if conflicts < fetchItems i then some (1 + conflicts) else none

end Sys2Proof.Machine
end

