-- ==== Sys2Proof/Safety.lean ====
section
/-!
DEFINITION. The invariant of the machine's states, and what a safe run is, in the terms the statements use.
-/

namespace Sys2Proof.Machine

open Sys2Proof

/-- The byte lane of a key exists in the machine: its address has memory behind it, and the location has that lane (two
lanes in 16-bit memory, three in 24-bit memory: R41, R42). -/
def State.laneExists (s : State) (key : Nat) : Bool :=
  decide (key / 3 < 2 ^ 24) &&
    match s.memKind (BitVec.ofNat 24 (key / 3)) with
    | .w16 => decide (key % 3 < 2)
    | .w24 => true
    | .absent => false

/-- The invariant: memory is in its canonical form, and lists only bytes that exist. -/
structure State.Inv (s : State) : Prop where
  sorted : s.mem.wf
  lanes : ∀ c ∈ s.mem, s.laneExists c.1 = true

/-- The outcome is a next state. -/
def Runs (o : Host.Outcome State Fault Refusal) : Prop := ∃ t, o = .next t

/-- A run of `k` steps is safe when it meets no fault; it may end at the end of the program. -/
def SafeRun (k : Nat) (s : State) : Prop := ∀ f : Fault, Sys2Proof.core.run k s ≠ .fault f

/-! ## What an instruction leaves, as its rule states it

`s` is the state before the instruction, `t` the state after it. -/

/-- A result register's value, at 40 bits. -/
def CompRegs.resultValue (c : CompRegs) : ResultReg → Acc
  | .ar => c.ar.zeroExtend 40
  | .af => c.af.zeroExtend 40
  | .mr => c.mr
  | .sr => c.sr
  | .se => c.se.zeroExtend 40
  | .sb => c.sb.zeroExtend 40

/-- The result register a compute effect writes, if it writes one. -/
def ResultWrite.target : ResultWrite → Option ResultReg
  | .nothing => none
  | .ar _ => some .ar
  | .af _ => some .af
  | .mr _ => some .mr
  | .sr _ => some .sr
  | .se _ => some .se
  | .sb _ => some .sb

/-- The value a compute effect writes, at 40 bits. -/
def ResultWrite.value : ResultWrite → Acc
  | .nothing => 0
  | .ar v => v.zeroExtend 40
  | .af v => v.zeroExtend 40
  | .mr v => v
  | .sr v => v
  | .se v => v.zeroExtend 40
  | .sb v => v.zeroExtend 40

/-- The contract of R106 and R108 for `P_COMPUTE`: a clause writes its own result register and no other. That it reads
the registers, flags and mode bits alone (R104, R105) is the type of `Params.compute`. -/
def Params.Contract (P : Params) : Prop := ∀ (op : ComputeOp) (v : RegView), (P.compute op v).result.target = some op.dest

/-- What a register of `MW(dst)` reads as after a data move wrote `v` to `dst` (R16, R17): the value, right-justified;
from MR2 and SR2 its low byte, sign-extended; beside MR1 and SR1 sixteen copies of its sign (log 9). -/
def movedValue (dst r : Dreg) (v : Word) : Word :=
  if r = dst then
    if r = .mr2 ∨ r = .sr2 then (v.extractLsb' 0 8).signExtend 16 else v
  else if v.msb then 0xFFFF else 0

/-- What no instruction of the chapter changes (R118, R21, R31), and the pc, which each advances by one (R119). -/
structure StepFrame (s t : State) : Prop where
  pc : t.pc = s.pc + 1
  m : t.dag.m = s.dag.m
  l : t.dag.l = s.dag.l
  b : t.dag.b = s.dag.b
  compOther : t.compOther = s.compOther
  dagOther : t.dagOther = s.dagOther
  modes : t.modes = s.modes
  dmpg1 : t.dmpg1 = s.dmpg1
  dmpg2 : t.dmpg2 = s.dmpg2
  memMap : t.memMap = s.memMap
  text : t.text = s.text

/-- Every register-file register outside a list reads as before. -/
def SameDregsBut (rs : List Dreg) (s t : State) : Prop := ∀ r, r ∉ rs → t.dregRead r = s.dregRead r

/-- Every index register outside a list is unchanged. -/
def SameIndexesBut (is : List (Fin 8)) (s t : State) : Prop := ∀ j : Fin 8, j ∉ is → t.dag.i[j] = s.dag.i[j]

/-- Every byte of memory reads as before, and no free low byte was drawn. -/
structure SameMemory (s t : State) : Prop where
  bytes : ∀ key, t.byte key = s.byte key
  draws : t.draws = s.draws

/-- The compute clause's half of an instruction (R104, R106, R108): its result register and the flags are those of
`P_COMPUTE` on the state before; AF, SE and SB are unchanged unless one is its result register. -/
structure ComputeDone (op : ComputeOp) (s t : State) (P : Params := params) : Prop where
  result : t.comp.resultValue op.dest = (P.compute op s.view).result.value
  flags : t.astat = (P.compute op s.view).astat
  af : op.dest ≠ .af → t.comp.af = s.comp.af
  se : op.dest ≠ .se → t.comp.se = s.comp.se
  sb : op.dest ≠ .sb → t.comp.sb = s.comp.sb

/-- The two reads of a dual-read form (R130, R140): `vD` and `(vP, p)` are what the buses delivered. -/
structure DualReadsDone (d : DualReads) (vD vP : Word) (p : Byte) (s t : State) : Prop where
  dx : t.dregRead d.dx.toDreg = vD
  dy : t.dregRead d.dy.toDreg = vP
  px : t.px = if s.memKind (s.ea d.dm.ireg) = .w24 ∧ Config.pxDm24 = true then 0 else p
  dmIndex : t.dag.i[d.dm.ireg] = s.nextIndex d.dm
  pmIndex : t.dag.i[d.pm.ireg] = s.nextIndex d.pm
  indexes : SameIndexesBut [d.dm.ireg, d.pm.ireg] s t
  memory : SameMemory s t
  frame : StepFrame s t

/-- Compute with Memory Read (R150): `v` is what the DM bus delivered. -/
structure MemReadDone (op : ComputeOp) (dst : Dreg) (o : MemOperand) (v : Word) (s t : State) : Prop where
  compute : ComputeDone op s t
  loaded : ∀ r ∈ dst.mw, t.dregRead r = movedValue dst r v
  dregs : SameDregsBut (op.cw ++ dst.mw) s t
  index : t.dag.i[o.ireg] = s.nextIndex o
  indexes : SameIndexesBut [o.ireg] s t
  px : t.px = s.px
  memory : SameMemory s t
  frame : StepFrame s t

/-- The keys of the bytes a location has (R41, R42). -/
def State.locationKeys (s : State) (a : Addr) : List Nat :=
  match s.memKind a with
  | .w16 => [laneKey a 0, laneKey a 1]
  | .w24 => [laneKey a 0, laneKey a 1, laneKey a 2]
  | .absent => []

/-- Compute with Memory Write (R165): the source register of the state before is stored at the effective address of the
state before, to the word of 16-bit memory or to bits 23:8 of 24-bit memory. -/
structure MemWriteDone (op : ComputeOp) (src : Dreg) (o : MemOperand) (s t : State) : Prop where
  compute : ComputeDone op s t
  stored16 : s.memKind (s.ea o.ireg) = .w16 → t.mem16 (s.ea o.ireg) = s.dregRead src
  stored24 : s.memKind (s.ea o.ireg) = .w24 → (t.mem24 (s.ea o.ireg)).extractLsb' 8 16 = s.dregRead src
  bytes : ∀ key, key ∉ s.locationKeys (s.ea o.ireg) → t.byte key = s.byte key
  dregs : SameDregsBut op.cw s t
  index : t.dag.i[o.ireg] = s.nextIndex o
  indexes : SameIndexesBut [o.ireg] s t
  px : t.px = s.px
  frame : StepFrame s t

/-- Compute with Register to Register Move (R180): `d1` takes the `d2` of the state before. -/
structure RegMoveDone (op : ComputeOp) (d1 d2 : Dreg) (s t : State) : Prop where
  compute : ComputeDone op s t
  moved : ∀ r ∈ d1.mw, t.dregRead r = movedValue d1 r (s.dregRead d2)
  dregs : SameDregsBut (op.cw ++ d1.mw) s t
  indexes : SameIndexesBut [] s t
  px : t.px = s.px
  memory : SameMemory s t
  frame : StepFrame s t

/-! ## What the syntax of an instruction says it may write (R18, R118) -/

/-- The two reads of a dual-read form. -/
def dualReadsIn : Instr → Option DualReads
  | .aluDualRead _ d => some d
  | .macDualRead _ d => some d
  | .dualRead d => some d
  | .aluMemRead _ _ _ _ => none
  | .macMemRead _ _ _ _ => none
  | .shiftMemRead _ _ _ => none
  | .aluMemWrite _ _ _ _ => none
  | .macMemWrite _ _ _ _ => none
  | .shiftMemWrite _ _ _ => none
  | .aluStatusOnly _ => none
  | .aluRegMove _ _ _ _ => none
  | .macRegMove _ _ _ _ => none
  | .shiftRegMove _ _ _ => none

/-- The destination and the operand of Compute with Memory Read. -/
def loadIn : Instr → Option (Dreg × MemOperand)
  | .aluMemRead _ _ dst o => some (dst, o)
  | .macMemRead _ _ dst o => some (dst, o)
  | .shiftMemRead _ dst o => some (dst, o)
  | .aluDualRead _ _ => none
  | .macDualRead _ _ => none
  | .dualRead _ => none
  | .aluMemWrite _ _ _ _ => none
  | .macMemWrite _ _ _ _ => none
  | .shiftMemWrite _ _ _ => none
  | .aluStatusOnly _ => none
  | .aluRegMove _ _ _ _ => none
  | .macRegMove _ _ _ _ => none
  | .shiftRegMove _ _ _ => none

/-- The source and the operand of Compute with Memory Write. -/
def storeIn : Instr → Option (Dreg × MemOperand)
  | .aluMemWrite _ _ src o => some (src, o)
  | .macMemWrite _ _ src o => some (src, o)
  | .shiftMemWrite _ src o => some (src, o)
  | .aluDualRead _ _ => none
  | .macDualRead _ _ => none
  | .dualRead _ => none
  | .aluMemRead _ _ _ _ => none
  | .macMemRead _ _ _ _ => none
  | .shiftMemRead _ _ _ => none
  | .aluStatusOnly _ => none
  | .aluRegMove _ _ _ _ => none
  | .macRegMove _ _ _ _ => none
  | .shiftRegMove _ _ _ => none

/-- The two registers of the move of Compute with Register to Register Move. -/
def moveIn : Instr → Option (Dreg × Dreg)
  | .aluRegMove _ _ d1 d2 => some (d1, d2)
  | .macRegMove _ _ d1 d2 => some (d1, d2)
  | .shiftRegMove _ d1 d2 => some (d1, d2)
  | .aluDualRead _ _ => none
  | .macDualRead _ _ => none
  | .dualRead _ => none
  | .aluMemRead _ _ _ _ => none
  | .macMemRead _ _ _ _ => none
  | .shiftMemRead _ _ _ => none
  | .aluMemWrite _ _ _ _ => none
  | .macMemWrite _ _ _ _ => none
  | .shiftMemWrite _ _ _ => none
  | .aluStatusOnly _ => none

/-- The register-file registers the data move of an instruction writes (R18, `MW` of R115). -/
def movedDregs : Instr → List Dreg
  | .aluDualRead _ d => [d.dx.toDreg, d.dy.toDreg]
  | .macDualRead _ d => [d.dx.toDreg, d.dy.toDreg]
  | .dualRead d => [d.dx.toDreg, d.dy.toDreg]
  | .aluMemRead _ _ dst _ => dst.mw
  | .macMemRead _ _ dst _ => dst.mw
  | .shiftMemRead _ dst _ => dst.mw
  | .aluMemWrite _ _ _ _ => []
  | .macMemWrite _ _ _ _ => []
  | .shiftMemWrite _ _ _ => []
  | .aluStatusOnly _ => []
  | .aluRegMove _ _ d1 _ => d1.mw
  | .macRegMove _ _ d1 _ => d1.mw
  | .shiftRegMove _ d1 _ => d1.mw

/-- The result register an instruction may write: none for DUAL_READ and ALU_STATUS_ONLY (R140, R184). -/
def resultRegIn : Instr → Option ResultReg
  | .dualRead _ => none
  | .aluStatusOnly _ => none
  | .aluDualRead c _ => some (ComputeOp.alu c .ar).dest
  | .macDualRead c _ => some (ComputeOp.mac c .mr).dest
  | .aluMemRead c z _ _ => some (ComputeOp.alu c z).dest
  | .macMemRead c z _ _ => some (ComputeOp.mac c z).dest
  | .shiftMemRead c _ _ => some (ComputeOp.shift c).dest
  | .aluMemWrite c z _ _ => some (ComputeOp.alu c z).dest
  | .macMemWrite c z _ _ => some (ComputeOp.mac c z).dest
  | .shiftMemWrite c _ _ => some (ComputeOp.shift c).dest
  | .aluRegMove c z _ _ => some (ComputeOp.alu c z).dest
  | .macRegMove c z _ _ => some (ComputeOp.mac c z).dest
  | .shiftRegMove c _ _ => some (ComputeOp.shift c).dest

/-- The register-file registers the compute clause of an instruction may write (`CW` of R106). -/
def computedDregs (i : Instr) : List Dreg :=
  match resultRegIn i with
  | some r => r.dregs
  | none => []

/-- The memory operands of an instruction. -/
def operandsIn (i : Instr) : List MemOperand :=
  match dualReadsIn i, loadIn i, storeIn i with
  | some d, _, _ => [d.dm, d.pm]
  | _, some (_, o), _ => [o]
  | _, _, some (_, o) => [o]
  | _, _, _ => []

/-- The index registers an instruction may write: those of its memory operands (R21). -/
def indexesIn (i : Instr) : List (Fin 8) := (operandsIn i).map MemOperand.ireg

/-- The keys of the bytes an instruction may write: those of the location a memory write addresses (R118). -/
def storedKeys (i : Instr) (s : State) : List Nat :=
  match storeIn i with
  | some (_, o) => s.locationKeys (s.ea o.ireg)
  | none => []

end Sys2Proof.Machine
end

