-- ==== Sys2Proof/Certificates/Slice0/Obligations.lean ====
section
/-!
DEFINITION. The statements for the provers. Each docstring names the rules of spec/ it formalises; where a statement
rests on a choice of the model's, it names the log entry.
-/

open Sys2Proof Sys2Proof.Machine

/-! ## Encoding (the layouts are the spec's general knowledge: logs 18 and 19) -/

/-- R81 to R89: decoding the word of a well-formed instruction gives the instruction back, every operand at every value.
The shifter XOP codes are the model's (log 19). -/
def Obligations.DecodeInvertsEncode : Prop :=
  ∀ i : Instr, WellFormed i → decode (encode i) = .ok i

/-- R81 to R89, R140: encoding what a word decodes to gives the word back; for DUAL_READ with the fields YOP and XOP,
which carry no meaning, as 0. -/
def Obligations.EncodeRestoresDecodedWord : Prop :=
  ∀ (w : Word24) (i : Instr), decode w = .ok i →
    encode i = match i with
      | .dualRead _ => w &&& 0xFFE0FF#24
      | _ => w

/-- The opcode table: a word that decodes to an instruction has the fixed bits of that instruction's row. -/
def Obligations.DecodedWordFitsItsRow : Prop :=
  ∀ (w : Word24) (i : Instr), decode w = .ok i → ∀ f ∈ i.fixedFields, f.fits w

/-- U18: a word the decoder rejects fits no row of the opcode table, or is the Type 4 or Type 8 word without a compute
function that the table's constraints exclude. -/
def Obligations.RejectedWordFitsNoRow : Prop :=
  ∀ (w : Word24) (e : DecodeError), decode w = .error e →
    (e = .otherOpcode ∧ ∀ i : Instr, ¬ ∀ f ∈ i.fixedFields, f.fits w) ∨
      (e = .noCompute ∧ bits w 13 5 = 0#5 ∧ (bits w 21 3 = 0b011#3 ∨ bits w 19 5 = 0b00101#5))

/-- The fourteen words the spec writes out for the source's examples (95_test_vectors.md section 1), and the word of
`AR = AX0 - AY0, AR = AR` (R184, section 2.5), decode to those instructions. -/
def Obligations.SpecExampleWordsDecode : Prop :=
  decode 0x2AE00C#24 = .ok (.aluRegMove ⟨.sub, .ax0, .ay0⟩ .ar .ax0 .mr1) ∧
  decode 0xE96000#24 = .ok (.macDualRead ⟨⟨.add, .uu⟩, .mx0, .my0⟩ ⟨.mx0, 0, 0, .my0, 0, 0⟩) ∧
  decode 0x6A60A0#24 = .ok (.aluMemWrite ⟨.add, .ax0, .ay0⟩ .ar .ar ⟨.dag1, 0, 0⟩) ∧
  decode 0xEA6004#24 = .ok (.aluDualRead ⟨.add, .ax0, .ay0⟩ ⟨.mx0, 1, 0, .my0, 0, 0⟩) ∧
  decode 0xE880FA#24 = .ok (.macDualRead ⟨⟨.mul, .ss⟩, .mx0, .my0⟩ ⟨.mx0, 2, 2, .my0, 3, 3⟩) ∧
  decode 0xFEE04C#24 = .ok (.aluDualRead ⟨.sub, .ax0, .ay0⟩ ⟨.mx1, 3, 0, .my1, 1, 0⟩) ∧
  decode 0xE80040#24 = .ok (.dualRead ⟨.mx0, 0, 0, .my0, 1, 0⟩) ∧
  decode 0xD4008C#24 = .ok (.dualRead ⟨.ax1, 3, 0, .ay1, 2, 0⟩) ∧
  decode 0x62C804#24 = .ok (.aluMemRead ⟨.subB, .ax0, .ay1⟩ .ar .ax0 ⟨.dag1, 1, 0⟩) ∧
  decode 0x7081D0#24 = .ok (.macMemRead ⟨⟨.mul, .ss⟩, .mx1, .my0⟩ .mr .sr1 ⟨.dag2, 0, 0⟩) ∧
  decode 0x6AC804#24 = .ok (.aluMemWrite ⟨.subB, .ax0, .ay1⟩ .ar .ax0 ⟨.dag1, 1, 0⟩) ∧
  decode 0x7881D0#24 = .ok (.macMemWrite ⟨⟨.mul, .ss⟩, .mx1, .my0⟩ .mr .sr1 ⟨.dag2, 0, 0⟩) ∧
  decode 0x2A692A#24 = .ok (.aluRegMove ⟨.add, .ax1, .ay1⟩ .ar .mx0 .ar) ∧
  decode 0x28C16A#24 = .ok (.macRegMove ⟨⟨.mul, .us⟩, .mx1, .my0⟩ .mr .my0 .ar) ∧
  decode 0x2AE0AA#24 = .ok (.aluStatusOnly ⟨.sub, .ax0, .ay0⟩)

/-! ## The assembly text -/

/-- R72: every permutation of the clauses of a text denotes the same instruction, and the canonical order spells every
well-formed instruction. -/
def Obligations.ClauseOrderDoesNotMatter : Prop :=
  (∀ (t t' : Text) (i : Instr), t.Perm t' → assemble t = .ok i → assemble t' = .ok i) ∧
    ∀ i : Instr, WellFormed i → assemble (disassemble i) = .ok i

/-- R91, R115, R116, R184, R185: a text spells only instructions that fail no check, that is: no register in common
between result and destination, no SR2 as a source beside a result in SR (log 23), and no move `AR = AR` beside a MAC
clause, a shifter clause or an ALU clause with result AF (D17, log 24), nor as ALU_REG_MOVE beside one with result AR. -/
def Obligations.AssembledInstructionsAreWellFormed : Prop :=
  ∀ (t : Text) (i : Instr), assemble t = .ok i →
    WellFormed i ∧
      match i with
      | .aluDualRead _ _ => True
      | .macDualRead _ _ => True
      | .dualRead _ => True
      | .aluMemRead _ z dst _ => ¬(z = .ar ∧ dst = .ar)
      | .macMemRead _ z dst _ => (z = .mr → dst ∉ [.mr0, .mr1, .mr2]) ∧ (z = .sr → dst ∉ [.sr0, .sr1, .sr2])
      | .shiftMemRead c dst _ => c.fn.dest = .sr → dst ∉ [.sr0, .sr1, .sr2]
      | .aluMemWrite _ _ _ _ => True
      | .macMemWrite _ z src _ => ¬(z = .sr ∧ src = .sr2)
      | .shiftMemWrite c src _ => ¬(c.fn.dest = .sr ∧ src = .sr2)
      | .aluStatusOnly _ => True
      | .aluRegMove _ z d1 d2 => ¬(z = .ar ∧ d1 = .ar) ∧ ¬(d1 = .ar ∧ d2 = .ar)
      | .macRegMove _ z d1 d2 =>
        ¬(d1 = .ar ∧ d2 = .ar) ∧ (z = .mr → d1 ∉ [.mr0, .mr1, .mr2]) ∧ (z = .sr → d1 ∉ [.sr0, .sr1, .sr2]) ∧
          ¬(z = .sr ∧ d2 = .sr2)
      | .shiftRegMove c d1 d2 =>
        ¬(d1 = .ar ∧ d2 = .ar) ∧ (c.fn.dest = .sr → d1 ∉ [.sr0, .sr1, .sr2]) ∧ ¬(c.fn.dest = .sr ∧ d2 = .sr2)

/-- R78, R91, R107: a text that spells an instruction has no conditional compute clause, no MAC saturate, DIVS, DIVQ or
shift immediate, only XOP and YOP operands in its compute clause, and only post-modify operands of one generator; with
two reads, one is over the DM bus with DAG1 into DREGX, the other over the PM bus with DAG2 into DREGY, and the compute
clause is an ALU clause to AR or a MAC clause to MR. The operand sets are R89's (general knowledge, log 18). That the slot
which an ALU function of one operand does not write must hold an operand of its set too is the model's choice (log 33). -/
def Obligations.ExcludedTextsSpellNothing : Prop :=
  ∀ (t : Text) (i : Instr), assemble t = .ok i →
    (∀ c, Clause.compute c ∈ t →
      c.conditional = false ∧
        match c.expr with
        | .alu _ x y => aluXOfText x ≠ none ∧ aluYOfText y ≠ none
        | .mac _ x y => macXOfText x ≠ none ∧ macYOfText y ≠ none
        | .shift _ x => shiftXOfText x ≠ none
        | _ => False) ∧
    (∀ (r : RegName) (m : MemText), Clause.read r m ∈ t ∨ Clause.write m r ∈ t →
      ∃ a b : Fin 8, m.addr = .postModify a b ∧ (a.val < 4 ↔ b.val < 4)) ∧
    ∀ (r1 r2 : RegName) (m1 m2 : MemText), [Clause.read r1 m1, Clause.read r2 m2].Sublist t →
      (∃ (rD rP : RegName) (aD bD aP bP : Fin 8),
        [Clause.read r1 m1, Clause.read r2 m2].Perm
          [.read rD ⟨.dm, .postModify aD bD⟩, .read rP ⟨.pm, .postModify aP bP⟩] ∧
        rD ∈ [.dreg .ax0, .dreg .ax1, .dreg .mx0, .dreg .mx1] ∧ aD.val < 4 ∧ bD.val < 4 ∧
        rP ∈ [.dreg .ay0, .dreg .ay1, .dreg .my0, .dreg .my1] ∧ 4 ≤ aP.val ∧ 4 ≤ bP.val) ∧
      ∀ c, Clause.compute c ∈ t →
        (c.result = .reg .ar ∧ ∃ fn x y, c.expr = .alu fn x y) ∨ (c.result = .reg .mr ∧ ∃ fn x y, c.expr = .mac fn x y)

/-- R91, D18: what a text with two reads is refused for, by name: `dag_pairing`, `dag_bus` and `type1_dest` with and
without a compute clause, `no_shift_in_type1` and `type1_result`. Each where no other reason of R91 holds: which of
several reasons is given is the model's own order (log 30). For an ALU function of one operand the unwritten slot counts
as an operand (log 33). -/
def Obligations.DualReadRefusalsAreNamed : Prop :=
  (∀ (cs : Text) (rD rP : RegName) (aD bD aP bP : Fin 8),
    cs = [] ∨ (∃ c o, cs = [.compute c] ∧ computeOfText c = .ok o) →
      let t := cs ++ [.read rD ⟨.dm, .postModify aD bD⟩, .read rP ⟨.pm, .postModify aP bP⟩]
      let pairs := (aD.val < 4 ↔ bD.val < 4) ∧ (aP.val < 4 ↔ bP.val < 4)
      let buses := aD.val < 4 ∧ 4 ≤ aP.val
      let dests := rD ∈ [.dreg .ax0, .dreg .ax1, .dreg .mx0, .dreg .mx1] ∧
        rP ∈ [.dreg .ay0, .dreg .ay1, .dreg .my0, .dreg .my1]
      (¬pairs → assemble t = .error (.refused .dagPairing)) ∧
      (pairs → ¬buses → assemble t = .error (.refused .dagBus)) ∧
      (pairs → buses → ¬dests → assemble t = .error (.refused .type1Dest))) ∧
  ∀ (d : DualReads) (result : ResultText) (x y : OperandText),
    (∀ fn, shiftXOfText x ≠ none →
      assemble (.compute ⟨false, result, .shift fn x⟩ :: dualToText d) = .error (.refused .noShiftInType1)) ∧
    (∀ fn, result ≠ .reg .ar → aluXOfText x ≠ none → aluYOfText y ≠ none →
      assemble (.compute ⟨false, result, .alu fn x y⟩ :: dualToText d) = .error (.refused .type1Result)) ∧
    ∀ fn, result ≠ .reg .mr → macXOfText x ≠ none → macYOfText y ≠ none →
      assemble (.compute ⟨false, result, .mac fn x y⟩ :: dualToText d) = .error (.refused .type1Result)

/-- R20: a memory operand pairs an index and a modify register of one generator, and any two of one generator; a pair
across the generators is refused by name. -/
def Obligations.OperandPairsOneGenerator : Prop :=
  ∀ i m : Fin 8,
    ((i.val < 4 ↔ m.val < 4) →
      ∃ o : MemOperand, operandOfText (.postModify i m) = .ok o ∧ o.ireg = i ∧ o.mreg = m) ∧
    (¬(i.val < 4 ↔ m.val < 4) → operandOfText (.postModify i m) = .error (.refused .dagPairing))

/-! ## The step -/

/-- Where the program text holds the pc and the word there decodes, a step is the meaning of that instruction, with
nothing added around it: the instruction advances the pc itself (R27, R119). That the program is the 24-bit words of
memory in an extent held in State, fetched at the pc, is the model's choice (log 5): D26 speaks of a list of
instructions. -/
def Obligations.StepRunsTheDecodedInstruction : Prop :=
  ∀ (s : State) (i : Instr), s.text.holds s.pc = true → decode (s.mem24 s.pc) = .ok i → step s = exec i s

/-- D26, U18: past the program text the run ends; a word that is no row of the opcode table faults. -/
def Obligations.StepStopsWithoutAnInstruction : Prop :=
  (∀ s : State, s.text.holds s.pc = false → step s = .refused .endOfProgram) ∧
    ∀ (s : State) (e : DecodeError), s.text.holds s.pc = true → decode (s.mem24 s.pc) = .error e →
      step s = .fault (.undecodable e)

/-- A word placed for the fetch is the instruction the next step runs (log 5). -/
def Obligations.PlacedWordRunsNext : Prop :=
  ∀ (s : State) (w : Nat) (i : Instr), decode (tableWord 24 w) = .ok i →
    step (s.withFetchWord 24 w) = exec i (s.withFetchWord 24 w)

/-! ## The bus primitives and addressing -/

/-- R46: what a DM-bus read delivers from 16-bit and from 24-bit memory; R50: nothing, where no memory is behind the
address (the spec's decision D9, log 25). -/
def Obligations.DmBusReadDeliversByKind : Prop :=
  ∀ (s : State) (a : Addr),
    (s.memKind a = .w16 → s.dmBusRead a = some (s.mem16 a)) ∧
    (s.memKind a = .w24 → s.dmBusRead a = some ((s.mem24 a).extractLsb' 8 16)) ∧
    (s.memKind a = .absent → s.dmBusRead a = none)

/-- R47: what a PM-bus read delivers to the data register and to PX from 24-bit memory, and from 16-bit memory (the
spec's decision D11; DEDUCED, log 12); R50: nothing, where no memory is behind the address (the spec's decision D9; DESIGN
CHOICE, log 25). -/
def Obligations.PmBusReadDeliversByKind : Prop :=
  ∀ (s : State) (a : Addr),
    (s.memKind a = .w16 → s.pmBusRead a = some (s.mem16 a, 0)) ∧
    (s.memKind a = .w24 → s.pmBusRead a = some ((s.mem24 a).extractLsb' 8 16, (s.mem24 a).extractLsb' 0 8)) ∧
    (s.memKind a = .absent → s.pmBusRead a = none)

/-- R48, with `P_W24_LOW = any`: a DM-bus write to an address with memory behind it succeeds; the word of 16-bit memory,
or bits 23:8 of 24-bit memory, is then the value; every other byte, and all of the state but memory, is as before. -/
def Obligations.DmBusWriteStoresByKind : Prop :=
  ∀ (s : State) (a : Addr) (v : Word),
    (s.memKind a ≠ .absent → ∃ s', s.dmBusWrite a v = some s') ∧
    ∀ s', s.dmBusWrite a v = some s' →
      (s.memKind a = .w16 → s'.mem16 a = v) ∧
      (s.memKind a = .w24 → (s'.mem24 a).extractLsb' 8 16 = v) ∧
      (∀ key, key ∉ s.locationKeys a → s'.byte key = s.byte key) ∧
      { s' with mem := s.mem, draws := s.draws } = s

/-- R109 with the spec's default `P_PAGE` (log 10): the effective address is the page of the generator and the index
register before the instruction. -/
def Obligations.EffectiveAddressIsPageAndIndex : Prop :=
  ∀ (s : State) (i : Fin 8),
    (s.ea i).toNat = (if i.val < 4 then s.dmpg1 else s.dmpg2).toNat * 2 ^ 16 + (s.dag.i[i]).toNat

/-- R111, R112: with a zero length register the index register takes the 16-bit sum, whatever the base. -/
def Obligations.LinearPostModifyWraps : Prop :=
  ∀ (s : State) (o : MemOperand), s.dag.l[o.ireg] = 0 →
    (s.nextIndex o).toNat = ((s.dag.i[o.ireg]).toNat + (s.dag.m[o.mreg]).toNat) % 2 ^ 16

/-- R113, the spec's default `P_CIRC` (log 11): with the index inside the buffer and a modifier no longer than it, the
new index is inside the buffer and differs from the sum by a multiple of the length. -/
def Obligations.CircularPostModifyStaysInBuffer : Prop :=
  ∀ i m l b : Word, l ≠ 0 → b.toNat ≤ i.toNat → i.toNat < b.toNat + l.toNat → b.toNat + l.toNat ≤ 2 ^ 16 →
    m.toInt.natAbs ≤ l.toNat →
      b.toNat ≤ (modifyIndex i m l b).toNat ∧ (modifyIndex i m l b).toNat < b.toNat + l.toNat ∧
        (l.toNat : Int) ∣ ((modifyIndex i m l b).toNat : Int) - (i.toNat + m.toInt)

/-! ## The compute clause (the annex's candidate for `P_COMPUTE`, general knowledge: logs 13 to 16; operand values: logs
17 and 31; modes: logs 14 and 34) -/

/-- R202, R205 (log 13), for AR_SAT = 0 and AV_LATCH = 0: the sum, and every flag after it. -/
def Obligations.AluAdditionsResultAndFlags : Prop :=
  ∀ (c : AluClause) (z : AluDest) (v : RegView), v.modes.arSat = false → v.modes.avLatch = false →
    c.fn = .add ∨ c.fn = .addC →
      let x := aluXValue v.regs c.x
      let y := aluYValue v.regs c.y
      let sum := x.toNat + y.toNat + if c.fn = .addC then v.astat.ac.toNat else 0
      ∃ r : Word, r.toNat = sum % 2 ^ 16 ∧
        compute (.alu c z) v =
          { result := aluWrite z r
            astat :=
              { v.astat with
                az := decide (r = 0)
                an := r.msb
                ac := decide (2 ^ 16 ≤ sum)
                av := decide (x.msb = y.msb ∧ r.msb ≠ x.msb) } }

/-- R203, R204, R206 (log 13), for AR_SAT = 0 and AV_LATCH = 0: the difference of the operands in either order, with or
without borrow, and every flag after it. -/
def Obligations.AluSubtractionsResultAndFlags : Prop :=
  ∀ (c : AluClause) (z : AluDest) (v : RegView), v.modes.arSat = false → v.modes.avLatch = false →
    c.fn = .sub ∨ c.fn = .subB ∨ c.fn = .rsub ∨ c.fn = .rsubB →
      let swapped := decide (c.fn = .rsub ∨ c.fn = .rsubB)
      let a := if swapped then aluYValue v.regs c.y else aluXValue v.regs c.x
      let b := if swapped then aluXValue v.regs c.x else aluYValue v.regs c.y
      let sum := a.toNat + (2 ^ 16 - 1 - b.toNat) + if c.fn = .sub ∨ c.fn = .rsub then 1 else v.astat.ac.toNat
      ∃ r : Word, r.toNat = sum % 2 ^ 16 ∧
        compute (.alu c z) v =
          { result := aluWrite z r
            astat :=
              { v.astat with
                az := decide (r = 0)
                an := r.msb
                ac := decide (2 ^ 16 ≤ sum)
                av := decide (a.msb ≠ b.msb ∧ r.msb ≠ a.msb) } }

/-- R206 (log 13), for AR_SAT = 0 and AV_LATCH = 0: the functions of one operand and the logical functions. -/
def Obligations.AluOtherFunctionsResultAndFlags : Prop :=
  ∀ (c : AluClause) (z : AluDest) (v : RegView), v.modes.arSat = false → v.modes.avLatch = false →
      let x := aluXValue v.regs c.x
      let y := aluYValue v.regs c.y
      ∃ (r : Word) (carry overflow : Bool),
        compute (.alu c z) v =
          { result := aluWrite z r
            astat :=
              { v.astat with
                az := decide (r = 0)
                an := r.msb
                ac := carry
                av := overflow
                as := if c.fn = .absX then x.msb else v.astat.as } } ∧
        (c.fn = .passY → r = y ∧ carry = false ∧ overflow = false) ∧
        (c.fn = .incY → r.toNat = (y.toNat + 1) % 2 ^ 16 ∧ carry = decide (y = 0xFFFF) ∧ overflow = decide (y = 0x7FFF)) ∧
        (c.fn = .decY → (r.toNat + 1) % 2 ^ 16 = y.toNat ∧ carry = decide (y ≠ 0) ∧ overflow = decide (y = 0x8000)) ∧
        (c.fn = .negY → (r.toNat + y.toNat) % 2 ^ 16 = 0 ∧ carry = decide (y = 0) ∧ overflow = decide (y = 0x8000)) ∧
        (c.fn = .notY → r = ~~~y ∧ carry = false ∧ overflow = false) ∧
        (c.fn = .notX → r = ~~~x ∧ carry = false ∧ overflow = false) ∧
        (c.fn = .and → r = x &&& y ∧ carry = false ∧ overflow = false) ∧
        (c.fn = .or → r = x ||| y ∧ carry = false ∧ overflow = false) ∧
        (c.fn = .xor → r = x ^^^ y ∧ carry = false ∧ overflow = false) ∧
        (c.fn = .absX → r.toNat = x.toInt.natAbs ∧ carry = false ∧ overflow = decide (x = 0x8000))

/-- R222 (log 14): in every mode, AR_SAT = 1 among them, with AV_LATCH = 1 the overflow flag stays set once set; for
AR_SAT = 0 nothing else differs from AV_LATCH = 0. -/
def Obligations.OverflowLatchIsSticky : Prop :=
  (∀ (c : AluClause) (z : AluDest) (v : RegView), v.modes.avLatch = true → v.astat.av = true →
    (compute (.alu c z) v).astat.av = true) ∧
  ∀ (c : AluClause) (z : AluDest) (v : RegView), v.modes.arSat = false →
    let off := compute (.alu c z) { v with modes := { v.modes with avLatch := false } }
    let on := compute (.alu c z) { v with modes := { v.modes with avLatch := true } }
    on = { off with astat := { off.astat with av := off.astat.av || v.astat.av } }

/-- The head of the annex's section 2 (log 13), which is for AR_SAT = 0 and AV_LATCH = 0 (R201): an ALU clause leaves AQ,
MV, SS and SV unchanged, and AS unless its function is ABS. That the same holds in the other modes is the model's
inference (DEDUCED, log 14). -/
def Obligations.AluClauseKeepsOtherFlags : Prop :=
  ∀ (c : AluClause) (z : AluDest) (v : RegView),
    let after := (compute (.alu c z) v).astat
    after.aq = v.astat.aq ∧ after.mv = v.astat.mv ∧ after.ss = v.astat.ss ∧ after.sv = v.astat.sv ∧
      (c.fn ≠ .absX → after.as = v.astat.as)

/-- R210, R211, R212 (log 13; in every mode, although R201 gives them for AV_LATCH = 0 and AR_SAT = 0 alone: DEDUCED,
log 34), and R213 for result SR (log 15): the accumulator is the exact product, sum or difference
modulo 2^40; with result MR, MV says that it does not fit 32 signed bits and the other flags are unchanged; with result
SR only MV and SV may differ. -/
def Obligations.MacResultAndOverflow : Prop :=
  ∀ (c : MacClause) (z : MacDest) (v : RegView), c.fn.fmt ≠ .rnd → c.y ≠ .zero →
    let x := macXValue v.regs c.x
    let y := macYValue v.regs c.y
    let xv : Int := if c.fn.fmt = .ss ∨ c.fn.fmt = .su then x.toInt else x.toNat
    let yv : Int := if c.fn.fmt = .ss ∨ c.fn.fmt = .us then y.toInt else y.toNat
    let p := xv * yv * if v.modes.mMode then 1 else 2
    let old : Int := match z with
      | .mr => v.regs.mr.toInt
      | .sr => v.regs.sr.toInt
    let exact : Int := match c.fn.acc with
      | .mul => p
      | .add => old + p
      | .sub => old - p
    ∃ r : Acc, (compute (.mac c z) v).result = macWrite z r ∧ (2 ^ 40 : Int) ∣ r.toInt - exact ∧
      match z with
      | .mr => (compute (.mac c z) v).astat =
          { v.astat with mv := decide ¬(-2 ^ 31 ≤ r.toInt ∧ r.toInt < 2 ^ 31) }
      | .sr => ∃ mv sv : Bool, (compute (.mac c z) v).astat = { v.astat with mv := mv, sv := sv }

/-- R215, R216 (log 13; in every mode, although R201 gives them for AV_LATCH = 0 and AR_SAT = 0 alone: DEDUCED, log 34),
for shift codes of magnitude below 40: ASHIFT and LSHIFT multiply or divide the field by the
power of two, and `SR OR` keeps the bits of the old SR. Nothing is said of the flags (R217, log 16). -/
def Obligations.ShiftResultIsScaledField : Prop :=
  ∀ (kind : ShiftKind) (half : Half) (orOld : Bool) (sx : ShiftX) (v : RegView), kind ≠ .norm →
    v.regs.se.toInt.natAbs < 40 →
      let x := shiftXValue v.regs sx
      let n := v.regs.se.toInt
      let place : Int := if half = .hi then 2 ^ 16 else 1
      let field : Int := (if kind = .ashift then x.toInt else x.toNat) * place
      ∃ res : Acc,
        (compute (.shift ⟨.shift kind half orOld, sx⟩) v).result = .sr (if orOld then v.regs.sr ||| res else res) ∧
        (0 ≤ n → (2 ^ 40 : Int) ∣ res.toInt - field * 2 ^ n.toNat) ∧
        (n < 0 → (2 ^ 40 : Int) ∣ res.toInt - field / 2 ^ n.natAbs)

/-! ## Every instruction completes, and with what -/

/-- R130: ALU_DUAL_READ completes wherever both addresses have memory behind them, with the ALU clause's effect, the two
loads, PX, the two index registers, and nothing else changed. -/
def Obligations.AluDualReadCompletes : Prop :=
  ∀ (c : AluClause) (d : DualReads) (s : State) (vD vP : Word) (p : Byte),
    s.dmBusRead (s.ea d.dm.ireg) = some vD → s.pmBusRead (s.ea d.pm.ireg) = some (vP, p) →
      ∃ t, exec (.aluDualRead c d) s = .next t ∧ ComputeDone (.alu c .ar) s t ∧ DualReadsDone d vD vP p s t ∧
        SameDregsBut [.ar, d.dx.toDreg, d.dy.toDreg] s t

/-- R131: MAC_DUAL_READ, likewise, with the MAC clause's effect on MR. -/
def Obligations.MacDualReadCompletes : Prop :=
  ∀ (c : MacClause) (d : DualReads) (s : State) (vD vP : Word) (p : Byte),
    s.dmBusRead (s.ea d.dm.ireg) = some vD → s.pmBusRead (s.ea d.pm.ireg) = some (vP, p) →
      ∃ t, exec (.macDualRead c d) s = .next t ∧ ComputeDone (.mac c .mr) s t ∧ DualReadsDone d vD vP p s t ∧
        SameDregsBut [.mr0, .mr1, .mr2, d.dx.toDreg, d.dy.toDreg] s t

/-- R140: DUAL_READ, likewise, with no flag and no result register changed. -/
def Obligations.DualReadCompletes : Prop :=
  ∀ (d : DualReads) (s : State) (vD vP : Word) (p : Byte),
    s.dmBusRead (s.ea d.dm.ireg) = some vD → s.pmBusRead (s.ea d.pm.ireg) = some (vP, p) →
      ∃ t, exec (.dualRead d) s = .next t ∧ DualReadsDone d vD vP p s t ∧ t.astat = s.astat ∧
        (∀ r, t.comp.resultValue r = s.comp.resultValue r) ∧ SameDregsBut [d.dx.toDreg, d.dy.toDreg] s t

/-- R150: ALU_MEM_READ completes wherever the address has memory behind it and the clause and the load have no
destination in common. -/
def Obligations.AluMemReadCompletes : Prop :=
  ∀ (c : AluClause) (z : AluDest) (dst : Dreg) (o : MemOperand) (s : State) (v : Word),
    ¬(z = .ar ∧ dst = .ar) → s.dmBusRead (s.ea o.ireg) = some v →
      ∃ t, exec (.aluMemRead c z dst o) s = .next t ∧ MemReadDone (.alu c z) dst o v s t

/-- R151: MAC_MEM_READ, likewise. -/
def Obligations.MacMemReadCompletes : Prop :=
  ∀ (c : MacClause) (z : MacDest) (dst : Dreg) (o : MemOperand) (s : State) (v : Word),
    (z = .mr → dst ∉ [.mr0, .mr1, .mr2]) → (z = .sr → dst ∉ [.sr0, .sr1, .sr2]) →
    s.dmBusRead (s.ea o.ireg) = some v →
      ∃ t, exec (.macMemRead c z dst o) s = .next t ∧ MemReadDone (.mac c z) dst o v s t

/-- R152: SHIFT_MEM_READ, likewise. -/
def Obligations.ShiftMemReadCompletes : Prop :=
  ∀ (c : ShiftClause) (dst : Dreg) (o : MemOperand) (s : State) (v : Word),
    (c.fn.dest = .sr → dst ∉ [.sr0, .sr1, .sr2]) → s.dmBusRead (s.ea o.ireg) = some v →
      ∃ t, exec (.shiftMemRead c dst o) s = .next t ∧ MemReadDone (.shift c) dst o v s t

/-- R165: ALU_MEM_WRITE completes wherever the address has memory behind it that holds no program text; the register of
the state before is stored, also when it is the result register. -/
def Obligations.AluMemWriteCompletes : Prop :=
  ∀ (c : AluClause) (z : AluDest) (src : Dreg) (o : MemOperand) (s : State),
    s.text.holds (s.ea o.ireg) = false → s.memKind (s.ea o.ireg) ≠ .absent →
      ∃ t, exec (.aluMemWrite c z src o) s = .next t ∧ MemWriteDone (.alu c z) src o s t

/-- R166: MAC_MEM_WRITE, likewise, unless SR2 is stored beside a result in SR. -/
def Obligations.MacMemWriteCompletes : Prop :=
  ∀ (c : MacClause) (z : MacDest) (src : Dreg) (o : MemOperand) (s : State),
    ¬(z = .sr ∧ src = .sr2) → s.text.holds (s.ea o.ireg) = false → s.memKind (s.ea o.ireg) ≠ .absent →
      ∃ t, exec (.macMemWrite c z src o) s = .next t ∧ MemWriteDone (.mac c z) src o s t

/-- R167: SHIFT_MEM_WRITE, likewise. -/
def Obligations.ShiftMemWriteCompletes : Prop :=
  ∀ (c : ShiftClause) (src : Dreg) (o : MemOperand) (s : State),
    ¬(c.fn.dest = .sr ∧ src = .sr2) → s.text.holds (s.ea o.ireg) = false → s.memKind (s.ea o.ireg) ≠ .absent →
      ∃ t, exec (.shiftMemWrite c src o) s = .next t ∧ MemWriteDone (.shift c) src o s t

/-- R184: status only. ALU_STATUS_ONLY completes in every state; the flags are those of the ALU clause and nothing else
but the pc changes. The move `AR = AR` beside a clause with result AR is this instruction, and its text and
`NONE = <ALU>` spell it. Beside a clause with result AF the move is refused: the spec's decision D17, the model's
choice (log 24). -/
def Obligations.AluStatusOnlyCompletes : Prop :=
  (∀ (c : AluClause) (s : State),
    exec (.aluStatusOnly c) s = .next { s with astat := (compute (.alu c .ar) s.view).astat, pc := s.pc + 1 } ∧
      exec (.aluRegMove c .ar .ar .ar) s = exec (.aluStatusOnly c) s ∧
      exec (.aluRegMove c .af .ar .ar) s = .refused .arArAf) ∧
  ∀ (fn : AluFn) (x y : OperandText) (cx : AluX) (cy : AluY), aluXOfText x = some cx → aluYOfText y = some cy →
    assemble [.compute ⟨false, .reg .ar, .alu fn x y⟩, .move (.dreg .ar) (.dreg .ar)] = .ok (.aluStatusOnly ⟨fn, cx, cy⟩) ∧
      assemble [.compute ⟨false, .none, .alu fn x y⟩] = .ok (.aluStatusOnly ⟨fn, cx, cy⟩) ∧
      assemble [.compute ⟨false, .reg .af, .alu fn x y⟩, .move (.dreg .ar) (.dreg .ar)] = .error (.refused .arArAf)

/-- R180: ALU_REG_MOVE completes in every state unless AR is the destination of both clauses; `d1` takes the `d2` of the
state before. (The move `AR = AR`: `AluStatusOnlyCompletes`.) -/
def Obligations.AluRegMoveCompletes : Prop :=
  ∀ (c : AluClause) (z : AluDest) (d1 d2 : Dreg) (s : State),
    ¬(z = .ar ∧ d1 = .ar) → ¬(d1 = .ar ∧ d2 = .ar) →
      ∃ t, exec (.aluRegMove c z d1 d2) s = .next t ∧ RegMoveDone (.alu c z) d1 d2 s t

/-- R181: MAC_REG_MOVE, likewise, with the conditions of its well-formedness lines. -/
def Obligations.MacRegMoveCompletes : Prop :=
  ∀ (c : MacClause) (z : MacDest) (d1 d2 : Dreg) (s : State),
    ¬(d1 = .ar ∧ d2 = .ar) → (z = .mr → d1 ∉ [.mr0, .mr1, .mr2]) → (z = .sr → d1 ∉ [.sr0, .sr1, .sr2]) →
    ¬(z = .sr ∧ d2 = .sr2) →
      ∃ t, exec (.macRegMove c z d1 d2) s = .next t ∧ RegMoveDone (.mac c z) d1 d2 s t

/-- R182: SHIFT_REG_MOVE, likewise. -/
def Obligations.ShiftRegMoveCompletes : Prop :=
  ∀ (c : ShiftClause) (d1 d2 : Dreg) (s : State),
    ¬(d1 = .ar ∧ d2 = .ar) → (c.fn.dest = .sr → d1 ∉ [.sr0, .sr1, .sr2]) → ¬(c.fn.dest = .sr ∧ d2 = .sr2) →
      ∃ t, exec (.shiftRegMove c d1 d2) s = .next t ∧ RegMoveDone (.shift c) d1 d2 s t

/-! ## Where an instruction stops -/

/-- R92, R115 (log 23): the same destination in the compute clause and in the load or move has no successor state:
ALU_MEM_READ, MAC_MEM_READ, SHIFT_MEM_READ, ALU_REG_MOVE, MAC_REG_MOVE and SHIFT_REG_MOVE fault. -/
def Obligations.SameDestinationFaults : Prop :=
  ∀ (s : State) (dst d2 : Dreg) (o : MemOperand),
    (∀ c, exec (.aluMemRead c .ar .ar o) s = .fault (.unpredictable .sameDestination)) ∧
    (dst ∈ [.mr0, .mr1, .mr2] → ∀ c,
      exec (.macMemRead c .mr dst o) s = .fault (.unpredictable .sameDestination) ∧
      exec (.macRegMove c .mr dst d2) s = .fault (.unpredictable .sameDestination)) ∧
    (dst ∈ [.sr0, .sr1, .sr2] → ∀ c,
      exec (.macMemRead c .sr dst o) s = .fault (.unpredictable .sameDestination) ∧
      exec (.macRegMove c .sr dst d2) s = .fault (.unpredictable .sameDestination)) ∧
    (dst ∈ [.sr0, .sr1, .sr2] → ∀ c : ShiftClause, c.fn.dest = .sr →
      exec (.shiftMemRead c dst o) s = .fault (.unpredictable .sameDestination) ∧
      exec (.shiftRegMove c dst d2) s = .fault (.unpredictable .sameDestination)) ∧
    (d2 ≠ .ar → ∀ c, exec (.aluRegMove c .ar .ar d2) s = .fault (.unpredictable .sameDestination))

/-- R92, R116 (log 23): SR2 as the source of the memory write or register move beside a result in SR has no successor
state. -/
def Obligations.Sr2SourceFaults : Prop :=
  ∀ (s : State) (d1 : Dreg) (o : MemOperand),
    (∀ c, exec (.macMemWrite c .sr .sr2 o) s = .fault (.unpredictable .sr2Source)) ∧
    (∀ c : ShiftClause, c.fn.dest = .sr → exec (.shiftMemWrite c .sr2 o) s = .fault (.unpredictable .sr2Source)) ∧
    (d1 ∉ [.sr0, .sr1, .sr2] → ∀ c, exec (.macRegMove c .sr d1 .sr2) s = .fault (.unpredictable .sr2Source)) ∧
    (d1 ∉ [.sr0, .sr1, .sr2] → ∀ c : ShiftClause, c.fn.dest = .sr →
      exec (.shiftRegMove c d1 .sr2) s = .fault (.unpredictable .sr2Source))

/-- R185 (log 24): `AR = AR` beside a MAC or shifter clause is refused by name. -/
def Obligations.ArArBesideNonAluRefused : Prop :=
  ∀ s : State, (∀ c z, exec (.macRegMove c z .ar .ar) s = .refused .arArNonAlu) ∧
    ∀ c, exec (.shiftRegMove c .ar .ar) s = .refused .arArNonAlu

/-- R50 (log 25): no instruction that reads or writes memory completes at an address with no memory behind it, whatever
its clauses; a well-formed one faults. -/
def Obligations.AccessWithoutMemoryFaults : Prop :=
  (∀ (i : Instr) (d : DualReads) (s : State), dualReadsIn i = some d →
    s.memKind (s.ea d.dm.ireg) = .absent ∨ s.memKind (s.ea d.pm.ireg) = .absent → exec i s = .fault .noMemory) ∧
  ∀ (i : Instr) (r : Dreg) (o : MemOperand) (s : State), loadIn i = some (r, o) ∨ storeIn i = some (r, o) →
    s.memKind (s.ea o.ireg) = .absent → ¬ Runs (exec i s) ∧ (WellFormed i → exec i s = .fault .noMemory)

/-- R59 (log 26): a memory write to an address that holds program text is refused by name. -/
def Obligations.StoreToProgramTextRefused : Prop :=
  ∀ (i : Instr) (src : Dreg) (o : MemOperand) (s : State), storeIn i = some (src, o) → WellFormed i →
    s.text.holds (s.ea o.ireg) = true → exec i s = .refused .storeToCode

/-! ## Rules of the whole machine -/

/-- R119, R27: every instruction ends with the pc advanced by one, and none reads the pc. -/
def Obligations.EveryInstructionAdvancesThePc : Prop :=
  ∀ (i : Instr) (s t : State), exec i s = .next t →
    t.pc = s.pc + 1 ∧ ∀ p : Addr, exec i { s with pc := p } = .next { t with pc := p + 1 }

/-- R118: an instruction changes only its compute clause's result register and the flags, its data move's destinations,
PX (dual-read forms only), one memory location (memory write only), the index registers of its operands, and the pc. -/
def Obligations.InstructionsChangeOnlyTheirFrame : Prop :=
  ∀ (i : Instr) (s t : State), exec i s = .next t →
    StepFrame s t ∧
    SameDregsBut (computedDregs i ++ movedDregs i) s t ∧
    (resultRegIn i ≠ some .af → t.comp.af = s.comp.af) ∧
    (resultRegIn i ≠ some .se → t.comp.se = s.comp.se) ∧
    (resultRegIn i ≠ some .sb → t.comp.sb = s.comp.sb) ∧
    SameIndexesBut (indexesIn i) s t ∧
    (dualReadsIn i = none → t.px = s.px) ∧
    (i.computeOp = none → t.astat = s.astat) ∧
    ∀ key, key ∉ storedKeys i s → t.byte key = s.byte key

/-- R23: PX is written by the two dual-read forms, from their PM-bus read, and by no other; no instruction reads it. That
a dual read may leave 0 in its place, by the open parameter `P_PX_DM24`, is R47 and the model's choice (log 8). -/
def Obligations.PxChangesOnlyInDualReads : Prop :=
  (∀ (i : Instr) (s t : State), exec i s = .next t → dualReadsIn i = none →
    t.px = s.px ∧ ∀ q : Byte, exec i { s with px := q } = .next { t with px := q }) ∧
  ∀ (i : Instr) (d : DualReads) (s t : State), exec i s = .next t → dualReadsIn i = some d →
    (∀ q : Byte, exec i { s with px := q } = .next t) ∧
    ∃ (v : Word) (p : Byte), s.pmBusRead (s.ea d.pm.ireg) = some (v, p) ∧
      (t.px = p ∨ (s.memKind (s.ea d.dm.ireg) = .w24 ∧ Config.pxDm24 = true ∧ t.px = 0))

/-- R132: the four combinations of banks in the dual-read forms ALU_DUAL_READ, MAC_DUAL_READ and DUAL_READ. What the PM
bus delivers from 16-bit memory is the spec's decision D11 (DEDUCED, log 12); the rows on `P_PX_DM24` are the model's
choice to leave it open (log 8). -/
def Obligations.DualReadBankTable : Prop :=
  ∀ (i : Instr) (d : DualReads) (s t : State), dualReadsIn i = some d → exec i s = .next t →
    let aD := s.ea d.dm.ireg
    let aP := s.ea d.pm.ireg
    d.dm.dag = .dag1 ∧ d.pm.dag = .dag2 ∧
    (s.memKind aD = .w16 → t.dregRead d.dx.toDreg = s.mem16 aD) ∧
    (s.memKind aD = .w24 → t.dregRead d.dx.toDreg = (s.mem24 aD).extractLsb' 8 16) ∧
    (s.memKind aP = .w16 → t.dregRead d.dy.toDreg = s.mem16 aP ∧ t.px = 0) ∧
    (s.memKind aP = .w24 → t.dregRead d.dy.toDreg = (s.mem24 aP).extractLsb' 8 16 ∧
      (s.memKind aD = .w16 ∨ Config.pxDm24 = false → t.px = (s.mem24 aP).extractLsb' 0 8) ∧
      (s.memKind aD = .w24 ∧ Config.pxDm24 = true → t.px = 0))

/-- R153, R44: Compute with Memory Read is the same under both spellings; the destination receives the word of 16-bit
memory or bits 23:8 of 24-bit memory, and PX is never written. The destinations MR2 and SR2 receive the low byte of that
value and read as it, sign-extended (R16, R17; PRESUMED, log 9). -/
def Obligations.SingleReadBankTable : Prop :=
  (∀ (c : ComputeText) (dst : RegName) (a : AddrText),
    assemble [.compute c, .read dst ⟨.dm, a⟩] = assemble [.compute c, .read dst ⟨.pm, a⟩]) ∧
  ∀ (i : Instr) (dst : Dreg) (o : MemOperand) (s t : State), loadIn i = some (dst, o) → exec i s = .next t →
    let a := s.ea o.ireg
    (s.memKind a = .w16 → t.dregRead dst = movedValue dst dst (s.mem16 a)) ∧
    (s.memKind a = .w24 → t.dregRead dst = movedValue dst dst ((s.mem24 a).extractLsb' 8 16)) ∧
    t.px = s.px

/-- R168, R44: Compute with Memory Write is the same under both spellings; the word of 16-bit memory or bits 23:8 of
24-bit memory take the source register of the state before (bits 7:0 are free: log 7), and PX supplies nothing. A source
MR2 or SR2 is stored sign-extended (R16; PRESUMED, log 9). The post-modify is in the completion statements. -/
def Obligations.SingleWriteBankTable : Prop :=
  (∀ (c : ComputeText) (src : RegName) (a : AddrText),
    assemble [.write ⟨.dm, a⟩ src, .compute c] = assemble [.write ⟨.pm, a⟩ src, .compute c]) ∧
  ∀ (i : Instr) (src : Dreg) (o : MemOperand) (s t : State), storeIn i = some (src, o) → exec i s = .next t →
    let a := s.ea o.ireg
    (s.memKind a = .w16 → t.mem16 a = s.dregRead src) ∧
    (s.memKind a = .w24 → (t.mem24 a).extractLsb' 8 16 = s.dregRead src) ∧
    ∀ p : Byte, ∃ u, exec i { s with px := p } = .next u ∧ ∀ key, u.byte key = t.byte key

/-- R21: an instruction writes no M, L or B register and only the index registers of its operands, and reads only the I,
M, L and B registers of its operands: with any other values in the rest it leaves the same state but for that rest. -/
def Obligations.OnlyOperandDagRegistersMatter : Prop :=
  ∀ (i : Instr) (s t : State) (d : DagRegs), exec i s = .next t →
    t.dag.m = s.dag.m ∧ t.dag.l = s.dag.l ∧ t.dag.b = s.dag.b ∧ SameIndexesBut (indexesIn i) s t ∧
    ((∀ o ∈ operandsIn i, d.i[o.ireg] = s.dag.i[o.ireg] ∧ d.m[o.mreg] = s.dag.m[o.mreg] ∧
        d.l[o.ireg] = s.dag.l[o.ireg] ∧ d.b[o.ireg] = s.dag.b[o.ireg]) →
      ∃ u, exec i (s.setDag d) = .next u ∧ u.setDag t.dag = t ∧ ∀ j ∈ indexesIn i, u.dag.i[j] = t.dag.i[j])

/-! ## Every value of the open parameters (R5, R104, R200; log 32)

`execWith P` is the meaning of an instruction, `stepWith P` a step, under the configuration `P`. -/

/-- R5, R104 to R108, R118, R119, R200: the machine runs `execWith` and `stepWith` at one configuration (log 32), whose
`Compute` meets the contract of R106. R100, R242: a step takes an interrupt of the configuration's agent before the
instruction, or else runs the instruction at the pc; the machine's own agent takes none (log 28). That the agent is asked
also where no next instruction exists is the model's choice (DESIGN CHOICE, log 28). Under every configuration that
meets the contract, whatever the other parameters are, an instruction keeps the frame, leaves the result and the flags of
its `Compute`, and without a compute clause leaves the flags alone. -/
def Obligations.ComputeHoldsForEveryParameters : Prop :=
  (∀ (i : Instr) (s : State), exec i s = execWith params i s) ∧ (∀ s : State, step s = stepWith params s) ∧
  (∀ s : State, params.interrupt s = none) ∧ params.Contract ∧
  (∀ (P : Params) (s : State),
    (∀ s', P.interrupt s = some s' → stepWith P s = .next s') ∧
    ∀ i, P.interrupt s = none → s.text.holds s.pc = true → decode (s.mem24 s.pc) = .ok i →
      stepWith P s = execWith P i s) ∧
  ∀ (P : Params) (i : Instr) (s t : State), P.Contract → execWith P i s = .next t →
    StepFrame s t ∧ SameDregsBut (computedDregs i ++ movedDregs i) s t ∧ SameIndexesBut (indexesIn i) s t ∧
    match i.computeOp with
    | some op =>
      t.astat = (P.compute op s.view).astat ∧ (WellFormed i → resultRegIn i = some op.dest → ComputeDone op s t P) ∧
        (resultRegIn i = none → ∀ r, t.comp.resultValue r = s.comp.resultValue r)
    | none => t.astat = s.astat ∧ ∀ r, t.comp.resultValue r = s.comp.resultValue r

/-- R5, R16, R17, R101, R109, R110, R120: under every configuration that meets the contract of R106, the loads of a dual
read and of a single read, the store and the register move take their values from the state before, the loaded and moved
registers hold what `DregWrite` leaves, the effective address and the post-modify are those of the configuration, and
memory outside the stored location is unchanged. R47, R48: PX and the low byte of a stored 24-bit location are as
`P_PX_DM24` and `P_W24_LOW` say (nothing is said of the byte under `any`: log 7). -/
def Obligations.DataMoveHoldsForEveryParameters : Prop :=
  ∀ (P : Params) (i : Instr) (s t : State), P.Contract → execWith P i s = .next t →
    (∀ o ∈ operandsIn i, t.dag.i[o.ireg] = s.nextIndex o P) ∧
    (storeIn i = none → SameMemory s t) ∧
    (dualReadsIn i = none → t.px = s.px) ∧
    (∀ d, dualReadsIn i = some d →
      ∃ vD vP p, s.dmBusRead (s.ea d.dm.ireg P) = some vD ∧ s.pmBusRead (s.ea d.pm.ireg P) = some (vP, p) ∧
        t.dregRead d.dx.toDreg P = vD ∧ t.dregRead d.dy.toDreg P = vP ∧
        t.px = if s.memKind (s.ea d.dm.ireg P) = .w24 ∧ P.pxDm24 = true then 0 else p) ∧
    (∀ dst o, loadIn i = some (dst, o) →
      ∃ v, s.dmBusRead (s.ea o.ireg P) = some v ∧ ∀ r ∈ dst.mw, t.dregRead r P = (s.dregWrite dst v P).dregRead r P) ∧
    (∀ src o, storeIn i = some (src, o) →
      let a := s.ea o.ireg P
      (s.memKind a = .w16 → t.mem16 a = s.dregRead src P) ∧
      (s.memKind a = .w24 → (t.mem24 a).extractLsb' 8 16 = s.dregRead src P ∧
        (P.w24Low = .keep → t.low24 a = s.low24 a) ∧ (P.w24Low = .zero → t.low24 a = 0)) ∧
      ∀ key, key ∉ s.locationKeys a → t.byte key = s.byte key) ∧
    ∀ d1 d2, moveIn i = some (d1, d2) →
      ∀ r ∈ d1.mw, t.dregRead r P = (s.dregWrite d1 (s.dregRead d2 P) P).dregRead r P

/-- R55, R101, R104 (property P2 of 95_test_vectors.md): the result register and the flags depend on the registers,
flags and modes of the state before alone, never on memory, on the data move or on the pc. -/
def Obligations.ComputeIgnoresTheDataMove : Prop :=
  ∀ (i : Instr) (op : ComputeOp) (s s' t t' : State), i.computeOp = some op → s.view = s'.view →
    exec i s = .next t → exec i s' = .next t' →
      t.astat = t'.astat ∧ t.comp.resultValue op.dest = t'.comp.resultValue op.dest

/-- R101, R132 (property P1): the loads, PX and the index registers of a dual read do not depend on the compute clause,
nor on whether there is one. -/
def Obligations.DualReadsIgnoreTheCompute : Prop :=
  ∀ (i j : Instr) (d : DualReads) (s t u : State), dualReadsIn i = some d → dualReadsIn j = some d →
    exec i s = .next t → exec j s = .next u →
      t.dregRead d.dx.toDreg = u.dregRead d.dx.toDreg ∧ t.dregRead d.dy.toDreg = u.dregRead d.dy.toDreg ∧
        t.px = u.px ∧ t.dag = u.dag

/-- R46, R48 (property P8): what one Compute with Memory Write stores, a Compute with Memory Read of the same address
loads, whatever the free low byte (log 7). MR2 and SR2 are stored sign-extended, and as destinations receive the low
byte of the value and read as it, sign-extended (R16, R17; PRESUMED, log 9). -/
def Obligations.StoredValueIsLoadedBack : Prop :=
  ∀ (i j : Instr) (src dst : Dreg) (o o' : MemOperand) (s t u : State),
    storeIn i = some (src, o) → loadIn j = some (dst, o') → exec i s = .next t → exec j t = .next u →
      t.ea o'.ireg = s.ea o.ireg → u.dregRead dst = movedValue dst dst (s.dregRead src)

/-- The invariant: a step keeps memory in its canonical form and listing only bytes that exist (R41, R42, R50, log 4). -/
def Obligations.StepKeepsTheInvariant : Prop :=
  ∀ s t : State, s.Inv → step s = .next t → t.Inv

/-- The invariant holds after reset. -/
def Obligations.ResetMeetsTheInvariant : Prop := State.reset.Inv

/-- R59 (log 26): no step changes the program text: neither its extent nor any byte of it. -/
def Obligations.ProgramTextIsImmutable : Prop :=
  ∀ s t : State, step s = .next t →
    t.text = s.text ∧ ∀ (a : Addr) (k : Nat), k < 3 → s.text.holds a = true → t.lane a k = s.lane a k

/-- R270, R271, R272: the cycle tables, by the number of bus conflicts (documentation: the step does not read them). -/
def Obligations.CycleTables : Prop :=
  (∀ (i : Instr) (d : DualReads), dualReadsIn i = some d →
    cycles i 0 = some 1 ∧ cycles i 1 = some 2 ∧ cycles i 2 = some 3) ∧
  (∀ (i : Instr) (r : Dreg) (o : MemOperand), loadIn i = some (r, o) ∨ storeIn i = some (r, o) →
    cycles i 0 = some 1 ∧ cycles i 1 = some 2) ∧
  ∀ (i : Instr), dualReadsIn i = none → loadIn i = none → storeIn i = none → cycles i 0 = some 1
end

