-- ==== Sys2Proof/Laws/Decode.lean ====
section
/-!
SUPPORT. The code tables of R86 to R89 invert each other; the fields of a word, and the word of each opcode type, as
numbers (so that `omega` reads a field back).
-/

namespace Sys2Proof

/-! ## Code tables -/

@[simp] theorem dreg_ofCode_code (r : Dreg) : Dreg.ofCode r.code = r := by cases r <;> rfl
@[simp] theorem dreg_code_ofCode : ∀ c, (Dreg.ofCode c).code = c := by decide
@[simp] theorem dregX_ofCode_code (r : DregX) : DregX.ofCode r.code = r := by cases r <;> rfl
@[simp] theorem dregX_code_ofCode : ∀ c, (DregX.ofCode c).code = c := by decide
@[simp] theorem dregY_ofCode_code (r : DregY) : DregY.ofCode r.code = r := by cases r <;> rfl
@[simp] theorem dregY_code_ofCode : ∀ c, (DregY.ofCode c).code = c := by decide
@[simp] theorem dag_ofCode_code (g : Dag) : Dag.ofCode g.code = g := by cases g <;> rfl
@[simp] theorem dag_code_ofCode : ∀ c, (Dag.ofCode c).code = c := by decide
@[simp] theorem dagReg_ofCode_code (k : Fin 4) : dagRegOfCode (dagRegCode k) = k := rfl
@[simp] theorem dagReg_code_ofCode (c : BitVec 2) : dagRegCode (dagRegOfCode c) = c := rfl
@[simp] theorem aluDest_ofCode_code (z : AluDest) : AluDest.ofCode z.code = z := by cases z <;> rfl
@[simp] theorem aluDest_code_ofCode : ∀ c, (AluDest.ofCode c).code = c := by decide
@[simp] theorem macDest_ofCode_code (z : MacDest) : MacDest.ofCode z.code = z := by cases z <;> rfl
@[simp] theorem macDest_code_ofCode : ∀ c, (MacDest.ofCode c).code = c := by decide
@[simp] theorem aluX_ofCode_code (x : AluX) : AluX.ofCode x.code = x := by cases x <;> rfl
@[simp] theorem aluX_code_ofCode : ∀ c, (AluX.ofCode c).code = c := by decide
@[simp] theorem aluY_ofCode_code (y : AluY) : AluY.ofCode y.code = y := by cases y <;> rfl
@[simp] theorem aluY_code_ofCode : ∀ c, (AluY.ofCode c).code = c := by decide
@[simp] theorem macX_ofCode_code (x : MacX) : MacX.ofCode x.code = x := by cases x <;> rfl
@[simp] theorem macX_code_ofCode : ∀ c, (MacX.ofCode c).code = c := by decide
@[simp] theorem macY_ofCode_code (y : MacY) : MacY.ofCode y.code = y := by cases y <;> rfl
@[simp] theorem macY_code_ofCode : ∀ c, (MacY.ofCode c).code = c := by decide
@[simp] theorem shiftX_ofCode_code (x : ShiftX) : ShiftX.ofCode x.code = x := by cases x <;> rfl
@[simp] theorem shiftX_code_ofCode : ∀ c, (ShiftX.ofCode c).code = c := by decide
@[simp] theorem shiftFn_code_ofCode : ∀ c, (ShiftFn.ofCode c).code = c := by decide

@[simp] theorem shiftFn_ofCode_code (f : ShiftFn) : ShiftFn.ofCode f.code = f := by
  cases f with
  | shift kind half orOld => cases kind <;> cases half <;> cases orOld <;> rfl
  | exp mode => cases mode <;> rfl
  | expadj => rfl

@[simp] theorem amf_ofCode_aluCode (f : AluFn) : Amf.ofCode f.code = .alu f := by cases f <;> rfl

@[simp] theorem amf_ofCode_macCode (f : MacFn) : Amf.ofCode f.code = .mac f := by
  obtain ⟨acc, fmt⟩ := f
  cases acc <;> cases fmt <;> rfl

/-- The code of what an AMF field says: the other direction of the AMF table. -/
theorem amf_code_ofCode : ∀ c, (match Amf.ofCode c with
    | .noOperation => 0#5
    | .mac fn => fn.code
    | .alu fn => fn.code) = c := by decide

/-- ALU functions have AMF codes 10000 to 11111, MAC functions 00001 to 01111 (R86). -/
theorem aluFn_code_ge (f : AluFn) : 16 ≤ f.code.toNat := by cases f <;> decide

theorem macFn_code_range (f : MacFn) : 1 ≤ f.code.toNat ∧ f.code.toNat < 16 := by
  obtain ⟨acc, fmt⟩ := f
  cases acc <;> cases fmt <;> decide

/-! ## Fields and words as numbers -/

/-- Concatenation as a number. -/
theorem toNat_append_add {n m : Nat} (x : BitVec n) (y : BitVec m) :
    (x ++ y).toNat = x.toNat * 2 ^ m + y.toNat := by
  rw [BitVec.toNat_append, Nat.shiftLeft_eq, ← Nat.shiftLeft_eq, Nat.shiftLeft_add_eq_or_of_lt y.isLt]

/-- A field as a number. -/
theorem bits_toNat (w : Word24) (lo len : Nat) : (bits w lo len).toNat = w.toNat / 2 ^ lo % 2 ^ len := by
  simp [bits, BitVec.extractLsb'_toNat, Nat.shiftRight_eq_div_pow]

theorem encodeType1_toNat (d : DualReads) (amf yx : BitVec 5) :
    (encodeType1 d amf yx).toNat =
      3 * 2 ^ 22 + d.dy.code.toNat * 2 ^ 20 + d.dx.code.toNat * 2 ^ 18 + amf.toNat * 2 ^ 13 + yx.toNat * 2 ^ 8
        + d.pmI.val * 2 ^ 6 + d.pmM.val * 2 ^ 4 + d.dmI.val * 2 ^ 2 + d.dmM.val := by
  simp only [encodeType1, DualReads.addressCode, dagRegCode]
  erw [toNat_append_add 0b11#2]
  simp only [toNat_append_add, BitVec.toNat_ofNat, BitVec.toNat_ofFin]
  omega

theorem encodeType4_toNat (o : MemOperand) (dir z : BitVec 1) (amf yx : BitVec 5) (r : Dreg) :
    (encodeType4 o dir z amf yx r).toNat =
      3 * 2 ^ 21 + o.dag.code.toNat * 2 ^ 20 + dir.toNat * 2 ^ 19 + z.toNat * 2 ^ 18 + amf.toNat * 2 ^ 13
        + yx.toNat * 2 ^ 8 + r.code.toNat * 2 ^ 4 + o.i.val * 2 ^ 2 + o.m.val := by
  simp only [encodeType4, MemOperand.addressCode, dagRegCode]
  erw [toNat_append_add 0b011#3]
  simp only [toNat_append_add, BitVec.toNat_ofNat, BitVec.toNat_ofFin]
  omega

theorem encodeType8_toNat (z : BitVec 1) (amf yx : BitVec 5) (d1 d2 : Dreg) :
    (encodeType8 z amf yx d1 d2).toNat =
      5 * 2 ^ 19 + z.toNat * 2 ^ 18 + amf.toNat * 2 ^ 13 + yx.toNat * 2 ^ 8 + d1.code.toNat * 2 ^ 4
        + d2.code.toNat := by
  simp only [encodeType8]
  erw [toNat_append_add 0b00101#5]
  simp only [toNat_append_add, BitVec.toNat_ofNat]
  omega

theorem encodeType12_toNat (o : MemOperand) (dir : BitVec 1) (c : ShiftClause) (r : Dreg) :
    (encodeType12 o dir c r).toNat =
      9 * 2 ^ 17 + o.dag.code.toNat * 2 ^ 16 + dir.toNat * 2 ^ 15 + c.fn.code.toNat * 2 ^ 11
        + c.x.code.toNat * 2 ^ 8 + r.code.toNat * 2 ^ 4 + o.i.val * 2 ^ 2 + o.m.val := by
  simp only [encodeType12, MemOperand.addressCode, dagRegCode]
  erw [toNat_append_add 0b0001001#7]
  simp only [toNat_append_add, BitVec.toNat_ofNat, BitVec.toNat_ofFin]
  omega

theorem encodeType14_toNat (c : ShiftClause) (d1 d2 : Dreg) :
    (encodeType14 c d1 d2).toNat =
      32 * 2 ^ 15 + c.fn.code.toNat * 2 ^ 11 + c.x.code.toNat * 2 ^ 8 + d1.code.toNat * 2 ^ 4 + d2.code.toNat := by
  simp only [encodeType14]
  erw [toNat_append_add 0b000100000#9]
  simp only [toNat_append_add, BitVec.toNat_ofNat]
  omega

theorem aluClause_operandCode_toNat (c : AluClause) :
    c.operandCode.toNat = c.y.code.toNat * 2 ^ 3 + c.x.code.toNat := toNat_append_add _ _

theorem macClause_operandCode_toNat (c : MacClause) :
    c.operandCode.toNat = c.y.code.toNat * 2 ^ 3 + c.x.code.toNat := toNat_append_add _ _

end Sys2Proof
end

