-- ==== Sys2Proof/Laws/Memory.lean ====
section
/-!
SUPPORT. Memory: a read after a write, the canonical form, and what each write to a location does to each byte.
-/

namespace Sys2Proof.Machine

open Sys2Proof

/-! ## Byte lanes -/

@[simp] theorem memLookup_insert_self (m : Memory) (k : Nat) (v : Byte) : memLookup (memInsert m k v) k = some v := by
  induction m with
  | nil => simp [memInsert, memLookup]
  | cons c m ih =>
    obtain ⟨j, x⟩ := c
    simp only [memInsert]
    split
    · simp [memLookup]
    · split
      · simp [memLookup]
      · simp only [memLookup]
        rw [if_neg (by omega)]
        exact ih

theorem memLookup_insert_ne (m : Memory) {k j : Nat} (v : Byte) (h : j ≠ k) :
    memLookup (memInsert m k v) j = memLookup m j := by
  induction m with
  | nil => simp [memInsert, memLookup, Ne.symm h]
  | cons c m ih =>
    obtain ⟨i, x⟩ := c
    simp only [memInsert]
    split
    · simp [memLookup, Ne.symm h]
    · split
      · subst_vars
        simp [memLookup, Ne.symm h]
      · simp only [memLookup, ih]

/-- A key of a memory after a write is the written key or a key from before. -/
theorem mem_of_mem_insert (m : Memory) (k : Nat) (v : Byte) :
    ∀ c ∈ memInsert m k v, c.1 = k ∨ c ∈ m := by
  induction m with
  | nil => simp [memInsert]
  | cons d m ih =>
    obtain ⟨j, x⟩ := d
    intro c hc
    simp only [memInsert] at hc
    split at hc
    · rcases List.mem_cons.1 hc with rfl | hc
      · exact .inl rfl
      · exact .inr hc
    · split at hc
      · rcases List.mem_cons.1 hc with rfl | hc
        · exact .inl rfl
        · exact .inr (List.mem_cons_of_mem _ hc)
      · rcases List.mem_cons.1 hc with rfl | hc
        · exact .inr (List.mem_cons_self ..)
        · rcases ih c hc with h | h
          · exact .inl h
          · exact .inr (List.mem_cons_of_mem _ h)

/-- A write keeps the canonical form. -/
theorem memInsert_wf {m : Memory} (h : m.wf) (k : Nat) (v : Byte) : (memInsert m k v).wf := by
  induction m with
  | nil => simp [memInsert, Memory.wf]
  | cons d m ih =>
    obtain ⟨j, x⟩ := d
    obtain ⟨hhead, htail⟩ := List.pairwise_cons.1 h
    simp only [memInsert]
    split
    · refine List.pairwise_cons.2 ⟨fun c hc => ?_, h⟩
      rcases List.mem_cons.1 hc with rfl | hc
      · assumption
      · exact lt_trans ‹_› (hhead c hc)
    · split
      · subst_vars
        exact List.pairwise_cons.2 ⟨hhead, htail⟩
      · refine List.pairwise_cons.2 ⟨fun c hc => ?_, ih htail⟩
        rcases mem_of_mem_insert m k v c hc with h | h
        · simp only [h]
          omega
        · exact hhead c h

/-! ## Locations -/

/-- Different lanes have different keys. -/
theorem laneKey_inj {a b : Addr} {j k : Nat} (hj : j < 3) (hk : k < 3) (h : laneKey a j = laneKey b k) :
    a = b ∧ j = k := by
  unfold laneKey at h
  exact ⟨BitVec.eq_of_toNat_eq (by omega), by omega⟩

theorem laneKey_div (a : Addr) {k : Nat} (hk : k < 3) : laneKey a k / 3 = a.toNat := by
  unfold laneKey
  omega

theorem laneKey_mod (a : Addr) {k : Nat} (hk : k < 3) : laneKey a k % 3 = k := by
  unfold laneKey
  omega

/-- Every key is the key of one lane of one address, or lies above the address space. -/
theorem exists_laneKey {key : Nat} (h : key / 3 < 2 ^ 24) : key = laneKey (BitVec.ofNat 24 (key / 3)) (key % 3) := by
  unfold laneKey
  rw [BitVec.toNat_ofNat, Nat.mod_eq_of_lt h]
  omega

theorem setMem16_wf {m : Memory} (h : m.wf) (a : Addr) (v : Word) : (setMem16 m a v).wf :=
  memInsert_wf (memInsert_wf h _ _) _ _

theorem setMem24_wf {m : Memory} (h : m.wf) (a : Addr) (v : Word24) : (setMem24 m a v).wf :=
  memInsert_wf (memInsert_wf (memInsert_wf h _ _) _ _) _ _

/-- What `setMem16` leaves under each key. -/
theorem memLookup_setMem16 (m : Memory) (a : Addr) (v : Word) (key : Nat) :
    memLookup (setMem16 m a v) key =
      if key = laneKey a 1 then some (v.extractLsb' 8 8)
      else if key = laneKey a 0 then some (v.extractLsb' 0 8)
      else memLookup m key := by
  unfold setMem16
  split
  · subst_vars; simp
  · rw [memLookup_insert_ne _ _ ‹_›]
    split
    · subst_vars; simp
    · rw [memLookup_insert_ne _ _ ‹_›]

/-- What `setMem24` leaves under each key. -/
theorem memLookup_setMem24 (m : Memory) (a : Addr) (v : Word24) (key : Nat) :
    memLookup (setMem24 m a v) key =
      if key = laneKey a 2 then some (v.extractLsb' 16 8)
      else if key = laneKey a 1 then some (v.extractLsb' 8 8)
      else if key = laneKey a 0 then some (v.extractLsb' 0 8)
      else memLookup m key := by
  unfold setMem24 setLanes
  split
  · subst_vars; simp
  · rw [memLookup_insert_ne _ _ ‹_›]
    split
    · subst_vars; simp
    · rw [memLookup_insert_ne _ _ ‹_›]
      split
      · subst_vars; simp
      · rw [memLookup_insert_ne _ _ ‹_›]

/-- The keys `setMem16` lists. -/
theorem mem_of_mem_setMem16 (m : Memory) (a : Addr) (v : Word) (c : Host.Cell) (hc : c ∈ setMem16 m a v) :
    c.1 = laneKey a 0 ∨ c.1 = laneKey a 1 ∨ c ∈ m := by
  rcases mem_of_mem_insert _ _ _ c hc with h | h
  · exact .inr (.inl h)
  · rcases mem_of_mem_insert _ _ _ c h with h | h
    · exact .inl h
    · exact .inr (.inr h)

/-- The keys `setMem24` lists. -/
theorem mem_of_mem_setMem24 (m : Memory) (a : Addr) (v : Word24) (c : Host.Cell) (hc : c ∈ setMem24 m a v) :
    c.1 = laneKey a 0 ∨ c.1 = laneKey a 1 ∨ c.1 = laneKey a 2 ∨ c ∈ m := by
  rcases mem_of_mem_insert _ _ _ c hc with h | h
  · exact .inr (.inr (.inl h))
  · rcases mem_of_mem_insert _ _ _ c h with h | h
    · exact .inr (.inl h)
    · rcases mem_of_mem_insert _ _ _ c h with h | h
      · exact .inl h
      · exact .inr (.inr (.inr h))

/-- The two byte lanes of a 16-bit word make it up. -/
theorem lanes_word (v : Word) : v.extractLsb' 8 8 ++ v.extractLsb' 0 8 = v := by
  apply BitVec.eq_of_toNat_eq
  rw [toNat_append_add]
  simp only [BitVec.extractLsb'_toNat, Nat.shiftRight_eq_div_pow]
  have := v.isLt
  omega

/-- The three byte lanes of a 24-bit word make it up. -/
theorem lanes_word24 (v : Word24) :
    wordOfLanes (v.extractLsb' 0 8) (v.extractLsb' 8 8) (v.extractLsb' 16 8) = v := by
  apply BitVec.eq_of_toNat_eq
  unfold wordOfLanes
  erw [toNat_append_add]
  simp only [toNat_append_add, BitVec.extractLsb'_toNat, Nat.shiftRight_eq_div_pow]
  have := v.isLt
  omega

/-- Memory after reset is in its canonical form. -/
theorem reset_mem_wf : State.reset.mem.wf := List.Pairwise.nil

/-! ## Reading back what was written -/

/-- Every byte after a write to 16-bit memory. -/
theorem byte_setMem16 (s : State) (a : Addr) (v : Word) (key : Nat) :
    ({ s with mem := setMem16 s.mem a v } : State).byte key =
      if key = laneKey a 1 then v.extractLsb' 8 8
      else if key = laneKey a 0 then v.extractLsb' 0 8
      else s.byte key := by
  simp only [State.byte, memLookup_setMem16]
  split
  · rfl
  · split <;> rfl

/-- Every byte after a write to 24-bit memory, however many draws it counts. -/
theorem byte_setMem24 (s : State) (a : Addr) (v : Word24) (n : Nat) (key : Nat) :
    ({ s with mem := setMem24 s.mem a v, draws := n } : State).byte key =
      if key = laneKey a 2 then v.extractLsb' 16 8
      else if key = laneKey a 1 then v.extractLsb' 8 8
      else if key = laneKey a 0 then v.extractLsb' 0 8
      else s.byte key := by
  simp only [State.byte, memLookup_setMem24]
  split
  · rfl
  · split
    · rfl
    · split <;> rfl

/-- The three lanes of a location have different keys. -/
theorem laneKey_ne (a : Addr) :
    laneKey a 0 ≠ laneKey a 1 ∧ laneKey a 0 ≠ laneKey a 2 ∧ laneKey a 1 ≠ laneKey a 2 := by
  unfold laneKey
  omega

theorem mem16_setMem16 (s : State) (a : Addr) (v : Word) :
    ({ s with mem := setMem16 s.mem a v } : State).mem16 a = v := by
  unfold State.mem16 State.lane
  simpa [byte_setMem16, laneKey_ne a] using lanes_word v

theorem mem24_setMem24 (s : State) (a : Addr) (v : Word24) (n : Nat) :
    ({ s with mem := setMem24 s.mem a v, draws := n } : State).mem24 a = v := by
  unfold State.mem24 State.lane
  simpa [byte_setMem24, laneKey_ne a] using lanes_word24 v

/-- Bits 23:8 of the word that a 16-bit write leaves in 24-bit memory are the value written. -/
theorem extract_append_low (v : Word) (b : Byte) : (v ++ b : Word24).extractLsb' 8 16 = v := by
  apply BitVec.eq_of_toNat_eq
  simp only [BitVec.extractLsb'_toNat, toNat_append_add, Nat.shiftRight_eq_div_pow]
  have := v.isLt
  have := b.isLt
  omega

/-- A 16-bit write with a low byte is the write of the two put together. -/
theorem setLanes_eq_setMem24 (m : Memory) (a : Addr) (v : Word) (b : Byte) :
    setLanes m a b (v.extractLsb' 0 8) (v.extractLsb' 8 8) = setMem24 m a (v ++ b) := by
  have := v.isLt
  have := b.isLt
  have h0 : (v ++ b : Word24).extractLsb' 0 8 = b := by
    apply BitVec.eq_of_toNat_eq
    simp only [BitVec.extractLsb'_toNat, toNat_append_add, Nat.shiftRight_eq_div_pow]
    omega
  have h1 : (v ++ b : Word24).extractLsb' 8 8 = v.extractLsb' 0 8 := by
    apply BitVec.eq_of_toNat_eq
    simp only [BitVec.extractLsb'_toNat, toNat_append_add, Nat.shiftRight_eq_div_pow]
    omega
  have h2 : (v ++ b : Word24).extractLsb' 16 8 = v.extractLsb' 8 8 := by
    apply BitVec.eq_of_toNat_eq
    simp only [BitVec.extractLsb'_toNat, toNat_append_add, Nat.shiftRight_eq_div_pow]
    omega
  rw [setMem24, h0, h1, h2]

/-- The word of three byte lanes as a number. -/
theorem wordOfLanes_toNat (b0 b1 b2 : Byte) :
    (wordOfLanes b0 b1 b2).toNat = b2.toNat * 2 ^ 16 + b1.toNat * 2 ^ 8 + b0.toNat := by
  have h : (wordOfLanes b0 b1 b2).toNat = (b2 ++ (b1 ++ b0) : BitVec (8 + (8 + 8))).toNat := rfl
  rw [h, toNat_append_add, toNat_append_add]
  omega

theorem high24_eq (s : State) (a : Addr) : s.high24 a = (s.mem24 a).extractLsb' 8 16 := by
  apply BitVec.eq_of_toNat_eq
  unfold State.high24 State.mem24
  simp only [BitVec.extractLsb'_toNat, Nat.shiftRight_eq_div_pow, wordOfLanes_toNat, toNat_append_add]
  have := (s.lane a 0).isLt
  have := (s.lane a 1).isLt
  have := (s.lane a 2).isLt
  omega

theorem low24_eq (s : State) (a : Addr) : s.low24 a = (s.mem24 a).extractLsb' 0 8 := by
  apply BitVec.eq_of_toNat_eq
  unfold State.low24 State.mem24
  simp only [BitVec.extractLsb'_toNat, Nat.shiftRight_eq_div_pow, wordOfLanes_toNat]
  have := (s.lane a 0).isLt
  have := (s.lane a 1).isLt
  have := (s.lane a 2).isLt
  omega

end Sys2Proof.Machine
end

