-- ==== Sys2Proof/Laws/Registers.lean ====
section
/-!
SUPPORT. What a data-move write and a compute effect leave in each computation register.
-/

namespace Sys2Proof.Machine

open Sys2Proof

/-- `DregRead` after `DregWrite`, for the default `P_DREG_WRITE_FX` (R16, R17). -/
theorem dregRead_dregWrite (c : CompRegs) (dst r : Dreg) (v : Word) :
    (c.dregWrite dst v).dregRead r = if r ∈ dst.mw then movedValue dst r v else c.dregRead r := by
  have hs : (signByte v).signExtend 16 = if v.msb then 0xFFFF#16 else 0#16 := by
    unfold signByte; split <;> decide
  cases dst <;> cases r <;> first | rfl | exact hs

/-- A register outside `MW(dst)` after `DregWrite`, for any `P_DREG_WRITE_FX` (R17, R118). -/
theorem dregRead_dregWrite_of_not_mem (c : CompRegs) (dst r : Dreg) (v : Word) (fx fx' : DregFx) (h : r ∉ dst.mw) :
    (c.dregWrite dst v fx).dregRead r fx' = c.dregRead r fx' := by
  cases dst <;> cases r <;> first | rfl | exact absurd h (by decide)

/-- The parts of an accumulator, put together. -/
theorem acc_parts (v : Acc) : v.extractLsb' 32 8 ++ (v.extractLsb' 16 16 ++ v.extractLsb' 0 16) = v := by
  apply BitVec.eq_of_toNat_eq
  erw [toNat_append_add]
  simp only [toNat_append_add, BitVec.extractLsb'_toNat, Nat.shiftRight_eq_div_pow]
  have := v.isLt
  omega

@[simp] theorem setMr_mr (c : CompRegs) (v : Acc) : (c.setMr v).mr = v := acc_parts v
@[simp] theorem setSr_sr (c : CompRegs) (v : Acc) : (c.setSr v).sr = v := acc_parts v
@[simp] theorem setMr_sr (c : CompRegs) (v : Acc) : (c.setMr v).sr = c.sr := rfl
@[simp] theorem setSr_mr (c : CompRegs) (v : Acc) : (c.setSr v).mr = c.mr := rfl

/-- Each result register after a compute effect. -/
theorem resultValue_applyResult (w : ResultWrite) (c : CompRegs) (rr : ResultReg) :
    (applyResult w c).resultValue rr = if w.target = some rr then w.value else c.resultValue rr := by
  cases w <;> cases rr <;> first | rfl | exact acc_parts _

/-- A register-file register after a compute effect that does not write it (R106). -/
theorem dregRead_applyResult (w : ResultWrite) (c : CompRegs) (r : Dreg) (fx : DregFx)
    (h : ∀ rr, w.target = some rr → r ∉ rr.dregs) : (applyResult w c).dregRead r fx = c.dregRead r fx := by
  cases w <;> cases r <;> first | rfl | exact absurd (h _ rfl) (by decide)

/-- A result register after a data-move write that has no register in common with it (R115). -/
theorem resultValue_dregWrite (c : CompRegs) (dst : Dreg) (v : Word) (fx : DregFx) (rr : ResultReg)
    (h : ∀ r ∈ rr.dregs, r ∉ dst.mw) : (c.dregWrite dst v fx).resultValue rr = c.resultValue rr := by
  cases rr with
  | ar => cases dst <;> first | exact absurd (h .ar (by decide)) (by decide) | rfl
  | af => cases dst <;> rfl
  | mr =>
    cases dst <;>
      first
      | exact absurd (h .mr0 (by decide)) (by decide)
      | exact absurd (h .mr1 (by decide)) (by decide)
      | exact absurd (h .mr2 (by decide)) (by decide)
      | rfl
  | sr =>
    cases dst <;>
      first
      | exact absurd (h .sr0 (by decide)) (by decide)
      | exact absurd (h .sr1 (by decide)) (by decide)
      | exact absurd (h .sr2 (by decide)) (by decide)
      | rfl
  | se => cases dst <;> rfl
  | sb => cases dst <;> rfl

@[simp] theorem dregWrite_af (c : CompRegs) (r : Dreg) (v : Word) (fx : DregFx) :
    (c.dregWrite r v fx).af = c.af := by cases r <;> rfl
@[simp] theorem dregWrite_se (c : CompRegs) (r : Dreg) (v : Word) (fx : DregFx) :
    (c.dregWrite r v fx).se = c.se := by cases r <;> rfl
@[simp] theorem dregWrite_sb (c : CompRegs) (r : Dreg) (v : Word) (fx : DregFx) :
    (c.dregWrite r v fx).sb = c.sb := by cases r <;> rfl

theorem applyResult_af (w : ResultWrite) (c : CompRegs) (h : w.target ≠ some .af) : (applyResult w c).af = c.af := by
  cases w <;> first | rfl | exact absurd rfl h

theorem applyResult_se (w : ResultWrite) (c : CompRegs) (h : w.target ≠ some .se) : (applyResult w c).se = c.se := by
  cases w <;> first | rfl | exact absurd rfl h

theorem applyResult_sb (w : ResultWrite) (c : CompRegs) (h : w.target ≠ some .sb) : (applyResult w c).sb = c.sb := by
  cases w <;> first | rfl | exact absurd rfl h

/-- `sameDestination` says that `CW` and `MW` meet (R115). -/
theorem sameDestination_eq_false {op : ComputeOp} {dst : Dreg} :
    sameDestination op dst = false ↔ ∀ r ∈ op.cw, r ∉ dst.mw := by
  simp [sameDestination]

end Sys2Proof.Machine
end

