-- ==== Sys2Proof/Laws/State.lean ====
section
/-!
SUPPORT. One lemma per field per update of State, so that no later proof unfolds a record update. `comp` and `dag` are
the active register copies, `compOther` and `dagOther` the inactive ones (R31).
-/

namespace Sys2Proof.Machine

open Sys2Proof

/-! The configuration the machine runs, field by field. -/

@[simp] theorem params_page : params.page = State.page := rfl
@[simp] theorem params_circ : params.circ = circularModify := rfl
@[simp] theorem params_dregFx : params.dregFx = familyFx := rfl
@[simp] theorem params_w24Low : params.w24Low = .any := rfl
@[simp] theorem params_pxDm24 : params.pxDm24 = Config.pxDm24 := rfl
@[simp] theorem params_interrupt (s : State) : params.interrupt s = none := rfl
@[simp] theorem params_compute : params.compute = compute := rfl

/-! ## Replacing the active computation registers -/

@[simp] theorem setComp_px (s : State) (c : CompRegs) : (s.setComp c).px = s.px := by unfold State.setComp; split <;> rfl
@[simp] theorem setComp_astat (s : State) (c : CompRegs) : (s.setComp c).astat = s.astat := by unfold State.setComp; split <;> rfl
@[simp] theorem setComp_modes (s : State) (c : CompRegs) : (s.setComp c).modes = s.modes := by unfold State.setComp; split <;> rfl
@[simp] theorem setComp_dmpg1 (s : State) (c : CompRegs) : (s.setComp c).dmpg1 = s.dmpg1 := by unfold State.setComp; split <;> rfl
@[simp] theorem setComp_dmpg2 (s : State) (c : CompRegs) : (s.setComp c).dmpg2 = s.dmpg2 := by unfold State.setComp; split <;> rfl
@[simp] theorem setComp_pc (s : State) (c : CompRegs) : (s.setComp c).pc = s.pc := by unfold State.setComp; split <;> rfl
@[simp] theorem setComp_memMap (s : State) (c : CompRegs) : (s.setComp c).memMap = s.memMap := by unfold State.setComp; split <;> rfl
@[simp] theorem setComp_text (s : State) (c : CompRegs) : (s.setComp c).text = s.text := by unfold State.setComp; split <;> rfl
@[simp] theorem setComp_mem (s : State) (c : CompRegs) : (s.setComp c).mem = s.mem := by unfold State.setComp; split <;> rfl
@[simp] theorem setComp_draws (s : State) (c : CompRegs) : (s.setComp c).draws = s.draws := by unfold State.setComp; split <;> rfl
@[simp] theorem setComp_comp (s : State) (c : CompRegs) : (s.setComp c).comp = c := by
  unfold State.comp State.setComp; split <;> simp_all
@[simp] theorem setComp_compOther (s : State) (c : CompRegs) : (s.setComp c).compOther = s.compOther := by
  unfold State.compOther State.setComp; split <;> simp_all
@[simp] theorem setComp_dag (s : State) (c : CompRegs) : (s.setComp c).dag = s.dag := by
  unfold State.dag State.setComp; split <;> rfl
@[simp] theorem setComp_dagOther (s : State) (c : CompRegs) : (s.setComp c).dagOther = s.dagOther := by
  unfold State.dagOther State.setComp; split <;> rfl

/-! ## Replacing the active DAG registers -/

@[simp] theorem setDag_px (s : State) (d : DagRegs) : (s.setDag d).px = s.px := by unfold State.setDag; split <;> rfl
@[simp] theorem setDag_astat (s : State) (d : DagRegs) : (s.setDag d).astat = s.astat := by unfold State.setDag; split <;> rfl
@[simp] theorem setDag_modes (s : State) (d : DagRegs) : (s.setDag d).modes = s.modes := by unfold State.setDag; split <;> rfl
@[simp] theorem setDag_dmpg1 (s : State) (d : DagRegs) : (s.setDag d).dmpg1 = s.dmpg1 := by unfold State.setDag; split <;> rfl
@[simp] theorem setDag_dmpg2 (s : State) (d : DagRegs) : (s.setDag d).dmpg2 = s.dmpg2 := by unfold State.setDag; split <;> rfl
@[simp] theorem setDag_pc (s : State) (d : DagRegs) : (s.setDag d).pc = s.pc := by unfold State.setDag; split <;> rfl
@[simp] theorem setDag_memMap (s : State) (d : DagRegs) : (s.setDag d).memMap = s.memMap := by unfold State.setDag; split <;> rfl
@[simp] theorem setDag_text (s : State) (d : DagRegs) : (s.setDag d).text = s.text := by unfold State.setDag; split <;> rfl
@[simp] theorem setDag_mem (s : State) (d : DagRegs) : (s.setDag d).mem = s.mem := by unfold State.setDag; split <;> rfl
@[simp] theorem setDag_draws (s : State) (d : DagRegs) : (s.setDag d).draws = s.draws := by unfold State.setDag; split <;> rfl
@[simp] theorem setDag_dag (s : State) (d : DagRegs) : (s.setDag d).dag = d := by
  unfold State.dag State.setDag; split <;> simp_all
@[simp] theorem setDag_dagOther (s : State) (d : DagRegs) : (s.setDag d).dagOther = s.dagOther := by
  unfold State.dagOther State.setDag; split <;> simp_all
@[simp] theorem setDag_comp (s : State) (d : DagRegs) : (s.setDag d).comp = s.comp := by
  unfold State.comp State.setDag; split <;> rfl
@[simp] theorem setDag_compOther (s : State) (d : DagRegs) : (s.setDag d).compOther = s.compOther := by
  unfold State.compOther State.setDag; split <;> rfl

/-! ## Writing an index register -/

@[simp] theorem setI_px (s : State) (i : Fin 8) (v : Word) : (s.setI i v).px = s.px := setDag_px ..
@[simp] theorem setI_astat (s : State) (i : Fin 8) (v : Word) : (s.setI i v).astat = s.astat := setDag_astat ..
@[simp] theorem setI_modes (s : State) (i : Fin 8) (v : Word) : (s.setI i v).modes = s.modes := setDag_modes ..
@[simp] theorem setI_dmpg1 (s : State) (i : Fin 8) (v : Word) : (s.setI i v).dmpg1 = s.dmpg1 := setDag_dmpg1 ..
@[simp] theorem setI_dmpg2 (s : State) (i : Fin 8) (v : Word) : (s.setI i v).dmpg2 = s.dmpg2 := setDag_dmpg2 ..
@[simp] theorem setI_pc (s : State) (i : Fin 8) (v : Word) : (s.setI i v).pc = s.pc := setDag_pc ..
@[simp] theorem setI_memMap (s : State) (i : Fin 8) (v : Word) : (s.setI i v).memMap = s.memMap := setDag_memMap ..
@[simp] theorem setI_text (s : State) (i : Fin 8) (v : Word) : (s.setI i v).text = s.text := setDag_text ..
@[simp] theorem setI_mem (s : State) (i : Fin 8) (v : Word) : (s.setI i v).mem = s.mem := setDag_mem ..
@[simp] theorem setI_draws (s : State) (i : Fin 8) (v : Word) : (s.setI i v).draws = s.draws := setDag_draws ..
@[simp] theorem setI_comp (s : State) (i : Fin 8) (v : Word) : (s.setI i v).comp = s.comp := setDag_comp ..
@[simp] theorem setI_compOther (s : State) (i : Fin 8) (v : Word) : (s.setI i v).compOther = s.compOther := setDag_compOther ..
@[simp] theorem setI_dagOther (s : State) (i : Fin 8) (v : Word) : (s.setI i v).dagOther = s.dagOther := setDag_dagOther ..
@[simp] theorem setI_dag (s : State) (i : Fin 8) (v : Word) : (s.setI i v).dag = { s.dag with i := s.dag.i.set i v } := setDag_dag ..

/-! ## The compute clause's writes -/

@[simp] theorem commit_px (s : State) (e : ComputeEffect) : (s.commit e).px = s.px := setComp_px ..
@[simp] theorem commit_astat (s : State) (e : ComputeEffect) : (s.commit e).astat = e.astat := rfl
@[simp] theorem commit_modes (s : State) (e : ComputeEffect) : (s.commit e).modes = s.modes := setComp_modes ..
@[simp] theorem commit_dmpg1 (s : State) (e : ComputeEffect) : (s.commit e).dmpg1 = s.dmpg1 := setComp_dmpg1 ..
@[simp] theorem commit_dmpg2 (s : State) (e : ComputeEffect) : (s.commit e).dmpg2 = s.dmpg2 := setComp_dmpg2 ..
@[simp] theorem commit_pc (s : State) (e : ComputeEffect) : (s.commit e).pc = s.pc := setComp_pc ..
@[simp] theorem commit_memMap (s : State) (e : ComputeEffect) : (s.commit e).memMap = s.memMap := setComp_memMap ..
@[simp] theorem commit_text (s : State) (e : ComputeEffect) : (s.commit e).text = s.text := setComp_text ..
@[simp] theorem commit_mem (s : State) (e : ComputeEffect) : (s.commit e).mem = s.mem := setComp_mem ..
@[simp] theorem commit_draws (s : State) (e : ComputeEffect) : (s.commit e).draws = s.draws := setComp_draws ..
@[simp] theorem commit_comp (s : State) (e : ComputeEffect) : (s.commit e).comp = applyResult e.result s.comp := setComp_comp ..
@[simp] theorem commit_compOther (s : State) (e : ComputeEffect) : (s.commit e).compOther = s.compOther := setComp_compOther ..
@[simp] theorem commit_dag (s : State) (e : ComputeEffect) : (s.commit e).dag = s.dag := setComp_dag ..
@[simp] theorem commit_dagOther (s : State) (e : ComputeEffect) : (s.commit e).dagOther = s.dagOther := setComp_dagOther ..

/-! ## A data-move write to a register-file register -/

@[simp] theorem dregWrite_px (s : State) (r : Dreg) (v : Word) (P : Params) : (s.dregWrite r v P).px = s.px := setComp_px ..
@[simp] theorem dregWrite_astat (s : State) (r : Dreg) (v : Word) (P : Params) : (s.dregWrite r v P).astat = s.astat := setComp_astat ..
@[simp] theorem dregWrite_modes (s : State) (r : Dreg) (v : Word) (P : Params) : (s.dregWrite r v P).modes = s.modes := setComp_modes ..
@[simp] theorem dregWrite_dmpg1 (s : State) (r : Dreg) (v : Word) (P : Params) : (s.dregWrite r v P).dmpg1 = s.dmpg1 := setComp_dmpg1 ..
@[simp] theorem dregWrite_dmpg2 (s : State) (r : Dreg) (v : Word) (P : Params) : (s.dregWrite r v P).dmpg2 = s.dmpg2 := setComp_dmpg2 ..
@[simp] theorem dregWrite_pc (s : State) (r : Dreg) (v : Word) (P : Params) : (s.dregWrite r v P).pc = s.pc := setComp_pc ..
@[simp] theorem dregWrite_memMap (s : State) (r : Dreg) (v : Word) (P : Params) : (s.dregWrite r v P).memMap = s.memMap := setComp_memMap ..
@[simp] theorem dregWrite_text (s : State) (r : Dreg) (v : Word) (P : Params) : (s.dregWrite r v P).text = s.text := setComp_text ..
@[simp] theorem dregWrite_mem (s : State) (r : Dreg) (v : Word) (P : Params) : (s.dregWrite r v P).mem = s.mem := setComp_mem ..
@[simp] theorem dregWrite_draws (s : State) (r : Dreg) (v : Word) (P : Params) : (s.dregWrite r v P).draws = s.draws := setComp_draws ..
@[simp] theorem dregWrite_compOther (s : State) (r : Dreg) (v : Word) (P : Params) : (s.dregWrite r v P).compOther = s.compOther := setComp_compOther ..
@[simp] theorem dregWrite_dag (s : State) (r : Dreg) (v : Word) (P : Params) : (s.dregWrite r v P).dag = s.dag := setComp_dag ..
@[simp] theorem dregWrite_dagOther (s : State) (r : Dreg) (v : Word) (P : Params) : (s.dregWrite r v P).dagOther = s.dagOther := setComp_dagOther ..
@[simp] theorem dregWrite_comp (s : State) (r : Dreg) (v : Word) (P : Params) : (s.dregWrite r v P).comp = s.comp.dregWrite r v P.dregFx := setComp_comp ..

/-! ## Advancing the pc -/

@[simp] theorem advance_px (s : State) : s.advance.px = s.px := rfl
@[simp] theorem advance_astat (s : State) : s.advance.astat = s.astat := rfl
@[simp] theorem advance_modes (s : State) : s.advance.modes = s.modes := rfl
@[simp] theorem advance_dmpg1 (s : State) : s.advance.dmpg1 = s.dmpg1 := rfl
@[simp] theorem advance_dmpg2 (s : State) : s.advance.dmpg2 = s.dmpg2 := rfl
@[simp] theorem advance_pc (s : State) : s.advance.pc = s.pc + 1 := rfl
@[simp] theorem advance_memMap (s : State) : s.advance.memMap = s.memMap := rfl
@[simp] theorem advance_text (s : State) : s.advance.text = s.text := rfl
@[simp] theorem advance_mem (s : State) : s.advance.mem = s.mem := rfl
@[simp] theorem advance_draws (s : State) : s.advance.draws = s.draws := rfl
@[simp] theorem advance_comp (s : State) : s.advance.comp = s.comp := rfl
@[simp] theorem advance_compOther (s : State) : s.advance.compOther = s.compOther := rfl
@[simp] theorem advance_dag (s : State) : s.advance.dag = s.dag := rfl
@[simp] theorem advance_dagOther (s : State) : s.advance.dagOther = s.dagOther := rfl

/-! ## The updates commute with replacing PX or the pc -/

theorem setComp_withPx (s : State) (p : Byte) (c : CompRegs) :
    ({ s with px := p } : State).setComp c = { s.setComp c with px := p } := by
  unfold State.setComp; dsimp only; split <;> rfl
theorem setDag_withPx (s : State) (p : Byte) (d : DagRegs) :
    ({ s with px := p } : State).setDag d = { s.setDag d with px := p } := by
  unfold State.setDag; dsimp only; split <;> rfl
theorem setI_withPx (s : State) (p : Byte) (i : Fin 8) (v : Word) :
    ({ s with px := p } : State).setI i v = { s.setI i v with px := p } := setDag_withPx s p _
theorem commit_withPx (s : State) (p : Byte) (e : ComputeEffect) :
    ({ s with px := p } : State).commit e = { s.commit e with px := p } := by
  unfold State.commit; rw [setComp_withPx]; rfl
theorem dregWrite_withPx (s : State) (p : Byte) (r : Dreg) (v : Word) (P : Params) :
    ({ s with px := p } : State).dregWrite r v P = { s.dregWrite r v P with px := p } := setComp_withPx s p _
theorem setComp_withPc (s : State) (p : Addr) (c : CompRegs) :
    ({ s with pc := p } : State).setComp c = { s.setComp c with pc := p } := by
  unfold State.setComp; dsimp only; split <;> rfl
theorem setDag_withPc (s : State) (p : Addr) (d : DagRegs) :
    ({ s with pc := p } : State).setDag d = { s.setDag d with pc := p } := by
  unfold State.setDag; dsimp only; split <;> rfl
theorem setI_withPc (s : State) (p : Addr) (i : Fin 8) (v : Word) :
    ({ s with pc := p } : State).setI i v = { s.setI i v with pc := p } := setDag_withPc s p _
theorem commit_withPc (s : State) (p : Addr) (e : ComputeEffect) :
    ({ s with pc := p } : State).commit e = { s.commit e with pc := p } := by
  unfold State.commit; rw [setComp_withPc]; rfl
theorem dregWrite_withPc (s : State) (p : Addr) (r : Dreg) (v : Word) (P : Params) :
    ({ s with pc := p } : State).dregWrite r v P = { s.dregWrite r v P with pc := p } := setComp_withPc s p _

/-! ## The updates commute with replacing the active DAG registers -/

@[simp] theorem setDag_setDag (s : State) (d d' : DagRegs) : (s.setDag d).setDag d' = s.setDag d' := by
  unfold State.setDag; cases h : s.modes.secDag <;> simp [h]
@[simp] theorem setDag_dag_self (s : State) : s.setDag s.dag = s := by
  unfold State.setDag State.dag; cases h : s.modes.secDag <;> simp
theorem setDag_setComp (s : State) (d : DagRegs) (c : CompRegs) : (s.setDag d).setComp c = (s.setComp c).setDag d := by
  unfold State.setDag State.setComp; cases h : s.modes.secDag <;> cases h' : s.modes.secReg <;> simp [h, h']
theorem setDag_commit (s : State) (d : DagRegs) (e : ComputeEffect) :
    (s.setDag d).commit e = (s.commit e).setDag d := by
  unfold State.commit
  simp only [setDag_comp, setDag_setComp]
  unfold State.setDag; split <;> simp_all
theorem setDag_dregWrite (s : State) (d : DagRegs) (r : Dreg) (v : Word) (P : Params) :
    (s.setDag d).dregWrite r v P = (s.dregWrite r v P).setDag d := by
  unfold State.dregWrite
  simp only [setDag_comp, setDag_setComp]
theorem setDag_setI (s : State) (d : DagRegs) (i : Fin 8) (v : Word) :
    (s.setDag d).setI i v = s.setDag { d with i := d.i.set i v } := by
  unfold State.setI; simp
theorem setDag_advance (s : State) (d : DagRegs) : (s.setDag d).advance = s.advance.setDag d := by
  unfold State.setDag State.advance; cases h : s.modes.secDag <;> simp

/-! ## Two states that agree on what an accessor reads -/

theorem byte_congr {s t : State} (h : t.mem = s.mem) (key : Nat) : t.byte key = s.byte key := by
  simp only [State.byte, h]

theorem memKind_congr {s t : State} (hm : t.memMap = s.memMap) (ht : t.text = s.text) (a : Addr) :
    t.memKind a = s.memKind a := by
  simp only [State.memKind, hm, ht]

theorem ea_congr {s t : State} (hd : t.dag.i = s.dag.i) (h1 : t.dmpg1 = s.dmpg1) (h2 : t.dmpg2 = s.dmpg2) (i : Fin 8) :
    t.ea i = s.ea i := by
  simp only [State.ea, params_page, State.page, hd, h1, h2]

theorem view_setDag (s : State) (d : DagRegs) : (s.setDag d).view = s.view := by
  simp [State.view]

theorem ea_setDag (s : State) (d : DagRegs) (i : Fin 8) (h : d.i[i] = s.dag.i[i]) : (s.setDag d).ea i = s.ea i := by
  simp only [State.ea, params_page, State.page, setDag_dmpg1, setDag_dmpg2, setDag_dag, h]

theorem nextIndex_setDag (s : State) (d : DagRegs) (o : MemOperand) (P : Params) (hi : d.i[o.ireg] = s.dag.i[o.ireg])
    (hm : d.m[o.mreg] = s.dag.m[o.mreg]) (hl : d.l[o.ireg] = s.dag.l[o.ireg]) (hb : d.b[o.ireg] = s.dag.b[o.ireg]) :
    (s.setDag d).nextIndex o P = s.nextIndex o P := by
  simp only [State.nextIndex, setDag_dag, hi, hm, hl, hb]

theorem lowAfterWrite_setDag (s : State) (d : DagRegs) (a : Addr) (low : W24Low) :
    (s.setDag d).lowAfterWrite a low = s.lowAfterWrite a low := by
  cases low <;> simp [State.lowAfterWrite, State.low24, State.lane, State.byte]

theorem dmBusWrite_setDag (s : State) (d : DagRegs) (a : Addr) (v : Word) (low : W24Low) :
    (s.setDag d).dmBusWrite a v low = (s.dmBusWrite a v low).map fun u => u.setDag d := by
  unfold State.dmBusWrite
  rw [lowAfterWrite_setDag]
  rw [memKind_congr (setDag_memMap s d) (setDag_text s d)]
  split <;> simp <;> (unfold State.setDag; split <;> simp_all)

theorem laneExists_congr {s t : State} (hm : t.memMap = s.memMap) (ht : t.text = s.text) (key : Nat) :
    t.laneExists key = s.laneExists key := by
  simp only [State.laneExists, memKind_congr hm ht]

end Sys2Proof.Machine
end

