-- ==== Sys2Proof/Laws/Forms.lean ====
section
/-!
SUPPORT. One inversion lemma per shared form: everything the form can answer a next state with. Provers cite these
instead of unfolding the forms.
-/

namespace Sys2Proof.Machine

open Sys2Proof

theorem dualFetch_eq_some {s : State} {d : DualReads} {f : DualFetch} {P : Params} (h : s.dualFetch d P = some f) :
    ∃ vD vP p, s.dmBusRead (s.ea d.dm.ireg P) = some vD ∧ s.pmBusRead (s.ea d.pm.ireg P) = some (vP, p) ∧
      f = ⟨vD, vP, pxAfter (s.memKind (s.ea d.dm.ireg P)) p P, s.nextIndex d.dm P, s.nextIndex d.pm P⟩ := by
  unfold State.dualFetch at h
  dsimp only at h
  split at h
  · exact ⟨_, _, _, ‹_›, ‹_›, (Option.some.inj h).symm⟩
  · exact absurd h (by simp)

theorem dualReadForm_eq_next {e : ComputeEffect} {d : DualReads} {s t : State} {P : Params}
    (h : dualReadForm e d s P = .next t) :
    ∃ f, s.dualFetch d P = some f ∧ t = ((s.commit e).dualWrite d f P).advance := by
  unfold dualReadForm at h
  split at h
  · exact ⟨_, ‹_›, (Host.Outcome.next.inj h).symm⟩
  · cases h

theorem memReadForm_eq_next {op : ComputeOp} {e : ComputeEffect} {dst : Dreg} {o : MemOperand} {s t : State}
    {P : Params} (h : memReadForm op e dst o s P = .next t) :
    sameDestination op dst = false ∧ ∃ v, s.dmBusRead (s.ea o.ireg P) = some v ∧
      t = (((s.commit e).dregWrite dst v P).setI o.ireg (s.nextIndex o P)).advance := by
  unfold memReadForm at h
  split at h
  · cases h
  · refine ⟨Bool.eq_false_iff.2 ‹_›, ?_⟩
    split at h
    · exact ⟨_, ‹_›, (Host.Outcome.next.inj h).symm⟩
    · cases h

theorem memWriteForm_eq_next {op : ComputeOp} {e : ComputeEffect} {src : Dreg} {o : MemOperand} {s t : State}
    {P : Params} (h : memWriteForm op e src o s P = .next t) :
    sr2Source op src = false ∧ s.text.holds (s.ea o.ireg P) = false ∧
      ∃ s', s.dmBusWrite (s.ea o.ireg P) (s.dregRead src P) P.w24Low = some s' ∧
        t = ((s'.commit e).setI o.ireg (s.nextIndex o P)).advance := by
  unfold memWriteForm at h
  split at h
  · cases h
  · split at h
    · cases h
    · refine ⟨Bool.eq_false_iff.2 ‹_›, Bool.eq_false_iff.2 ‹_›, ?_⟩
      split at h
      · exact ⟨_, ‹_›, (Host.Outcome.next.inj h).symm⟩
      · cases h

theorem regMoveForm_eq_next {op : ComputeOp} {e : ComputeEffect} {d1 d2 : Dreg} {s t : State}
    {P : Params} (h : regMoveForm op e d1 d2 s P = .next t) :
    sameDestination op d1 = false ∧ sr2Source op d2 = false ∧
      t = ((s.commit e).dregWrite d1 (s.dregRead d2 P) P).advance := by
  unfold regMoveForm at h
  split at h
  · cases h
  · split at h
    · cases h
    · exact ⟨Bool.eq_false_iff.2 ‹_›, Bool.eq_false_iff.2 ‹_›,
        (Host.Outcome.next.inj h).symm⟩

theorem nonAluMoveForm_eq_next {op : ComputeOp} {e : ComputeEffect} {d1 d2 : Dreg} {s t : State}
    {P : Params} (h : nonAluMoveForm op e d1 d2 s P = .next t) :
    ¬(d1 = .ar ∧ d2 = .ar) ∧ regMoveForm op e d1 d2 s P = .next t := by
  unfold nonAluMoveForm at h
  split at h
  · cases h
  · exact ⟨‹_›, h⟩

/-- What a DM-bus write changes: memory, and the count of draws; and only at an address with memory behind it. -/
theorem dmBusWrite_eq_some {s s' : State} {a : Addr} {v : Word} {low : W24Low}
    (h : s.dmBusWrite a v low = some s') :
    (s.memKind a = .w16 ∧ s' = { s with mem := setMem16 s.mem a v }) ∨
      (s.memKind a = .w24 ∧
        s' = { s with mem := setMem24 s.mem a (v ++ s.lowAfterWrite a low), draws := s.draws + 1 }) := by
  unfold State.dmBusWrite at h
  split at h
  · exact .inl ⟨‹_›, (Option.some.inj h).symm⟩
  · rw [setLanes_eq_setMem24] at h
    exact .inr ⟨‹_›, (Option.some.inj h).symm⟩
  · cases h

/-- The active registers after the write phase of the two reads. -/
theorem dualWrite_comp (s : State) (d : DualReads) (f : DualFetch) (P : Params) :
    (s.dualWrite d f P).comp = (s.comp.dregWrite d.dx.toDreg f.vD P.dregFx).dregWrite d.dy.toDreg f.vP P.dregFx := by
  have h : (s.dualWrite d f P).comp =
      ((((s.dregWrite d.dx.toDreg f.vD P).dregWrite d.dy.toDreg f.vP P).setI d.dm.ireg f.iD).setI d.pm.ireg f.iP).comp := rfl
  simp [h]

/-- The active DAG registers after the write phase of the two reads. -/
theorem dualWrite_dag (s : State) (d : DualReads) (f : DualFetch) (P : Params) :
    (s.dualWrite d f P).dag = { s.dag with i := (s.dag.i.set d.dm.ireg f.iD).set d.pm.ireg f.iP } := by
  have h : (s.dualWrite d f P).dag =
      ((((s.dregWrite d.dx.toDreg f.vD P).dregWrite d.dy.toDreg f.vP P).setI d.dm.ireg f.iD).setI d.pm.ireg f.iP).dag := rfl
  simp [h]

@[simp] theorem dualWrite_px (s : State) (d : DualReads) (f : DualFetch) (P : Params) : (s.dualWrite d f P).px = f.px := rfl

/-- The write phase of the two reads does not depend on PX, which it writes. -/
theorem dualWrite_withPx (s : State) (p : Byte) (d : DualReads) (f : DualFetch) (P : Params) :
    ({ s with px := p } : State).dualWrite d f P = s.dualWrite d f P := by
  unfold State.dualWrite
  simp only [dregWrite_withPx, setI_withPx]

/-- The write phase of the two reads after other active DAG registers. -/
theorem dualWrite_setDag (s : State) (d : DagRegs) (r : DualReads) (f : DualFetch) (P : Params) :
    (s.setDag d).dualWrite r f P =
      (s.dualWrite r f P).setDag { d with i := (d.i.set r.dm.ireg f.iD).set r.pm.ireg f.iP } := by
  have h : ∀ (t : State) (i j : Fin 8) (v w : Word) (e : DagRegs), ((t.setI i v).setI j w).setDag e = t.setDag e := by
    intros; simp [State.setI]
  unfold State.dualWrite
  simp only [setDag_dregWrite, setDag_setI, setDag_withPx, h]

/-- What the write phase of the two reads leaves alone. -/
theorem dualWrite_frame (s : State) (d : DualReads) (f : DualFetch) (P : Params) :
    (s.dualWrite d f P).astat = s.astat ∧ (s.dualWrite d f P).modes = s.modes ∧ (s.dualWrite d f P).dmpg1 = s.dmpg1 ∧
      (s.dualWrite d f P).dmpg2 = s.dmpg2 ∧ (s.dualWrite d f P).pc = s.pc ∧ (s.dualWrite d f P).memMap = s.memMap ∧
      (s.dualWrite d f P).text = s.text ∧ (s.dualWrite d f P).mem = s.mem ∧ (s.dualWrite d f P).draws = s.draws ∧
      (s.dualWrite d f P).compOther = s.compOther ∧ (s.dualWrite d f P).dagOther = s.dagOther := by
  let u := (((s.dregWrite d.dx.toDreg f.vD P).dregWrite d.dy.toDreg f.vP P).setI d.dm.ireg f.iD).setI d.pm.ireg f.iP
  have hu : s.dualWrite d f P = { u with px := f.px } := rfl
  have ho : ({ u with px := f.px } : State).compOther = u.compOther := rfl
  have hd : ({ u with px := f.px } : State).dagOther = u.dagOther := rfl
  rw [hu, ho, hd]
  simp [u]

/-- Each clause of the annex's candidate writes its own result register and no other (R106). -/
theorem compute_target (op : ComputeOp) (v : RegView) : (compute op v).result.target = some op.dest := by
  cases op with
  | alu c z =>
    show (aluEffect c z v).result.target = _
    unfold aluEffect
    dsimp only
    split <;> cases z <;> rfl
  | mac c z =>
    show (macEffect c z v).result.target = _
    unfold macEffect
    dsimp only
    split <;> cases z <;> rfl
  | shift c =>
    obtain ⟨fn, x⟩ := c
    cases fn <;> rfl

end Sys2Proof.Machine
end

