-- ==== Sys2Proof/Laws/Exec.lean ====
section
/-!
SUPPORT. The inversion lemma of `exec`: an instruction that answers a next state does so through one of the shared
forms. Statements about every instruction start here, and go on with the lemmas of Laws/Forms.lean.
-/

namespace Sys2Proof.Machine

open Sys2Proof

/-- The compute effect of an instruction: that of its compute clause, or of none (R104, R108). -/
def effectOf (i : Instr) (v : RegView) (P : Params := params) : ComputeEffect :=
  match i.computeOp with
  | some op => P.compute op v
  | none => noCompute v

/-- `exec` is `execWith` at the configuration the machine runs. -/
theorem exec_eq_execWith (i : Instr) (s : State) : exec i s = execWith params i s := by cases i <;> rfl

/-- `step` is `stepWith` at the configuration the machine runs. -/
theorem step_eq_stepWith (s : State) : step s = stepWith params s := by
  have h : exec = execWith params := funext fun i => funext fun s => exec_eq_execWith i s
  show s.runFetched exec = s.runFetched (execWith params)
  rw [h]

/-- Everything a fetch can lead to: the end of the program, a word that is no instruction, or an instruction's run. -/
theorem runFetched_cases (s : State) (run : Instr → State → Result) :
    (s.text.holds s.pc = false ∧ s.runFetched run = .refused .endOfProgram) ∨
    (∃ e, s.text.holds s.pc = true ∧ decode (s.mem24 s.pc) = .error e ∧ s.runFetched run = .fault (.undecodable e)) ∨
    (∃ i, s.text.holds s.pc = true ∧ decode (s.mem24 s.pc) = .ok i ∧ s.runFetched run = run i s) := by
  unfold State.runFetched State.fetch
  cases h : s.text.holds s.pc with
  | false => exact .inl ⟨rfl, rfl⟩
  | true =>
    cases hd : decode (s.mem24 s.pc) with
    | error e => exact .inr (.inl ⟨e, rfl, rfl, by simp [hd]⟩)
    | ok i => exact .inr (.inr ⟨i, rfl, rfl, by simp [hd]⟩)

/-- What the syntax says of an instruction with a register move: its destinations and its result register. -/
theorem moveIn_facts {i : Instr} {op : ComputeOp} {d1 d2 : Dreg} (h : moveIn i = some (d1, d2))
    (hop : i.computeOp = some op) : movedDregs i = d1.mw ∧ resultRegIn i = some op.dest := by
  cases i <;> simp_all [moveIn, movedDregs, resultRegIn, Instr.computeOp]

/-- What the syntax says of an instruction with one memory read. -/
theorem loadIn_facts {i : Instr} {op : ComputeOp} {dst : Dreg} {o : MemOperand} (h : loadIn i = some (dst, o))
    (hop : i.computeOp = some op) :
    movedDregs i = dst.mw ∧ resultRegIn i = some op.dest ∧ operandsIn i = [o] ∧ dualReadsIn i = none ∧
      storeIn i = none ∧ moveIn i = none := by
  cases i <;> simp_all [loadIn, movedDregs, resultRegIn, Instr.computeOp, operandsIn, dualReadsIn, storeIn, moveIn]

/-- What the syntax says of an instruction with a memory write. -/
theorem storeIn_facts {i : Instr} {op : ComputeOp} {src : Dreg} {o : MemOperand} (h : storeIn i = some (src, o))
    (hop : i.computeOp = some op) :
    movedDregs i = [] ∧ resultRegIn i = some op.dest ∧ operandsIn i = [o] ∧ dualReadsIn i = none ∧
      loadIn i = none ∧ moveIn i = none := by
  cases i <;> simp_all [loadIn, movedDregs, resultRegIn, Instr.computeOp, operandsIn, dualReadsIn, storeIn, moveIn]

/-- What the syntax says of a dual-read form. -/
theorem dualReadsIn_facts {i : Instr} {d : DualReads} (h : dualReadsIn i = some d) :
    movedDregs i = [d.dx.toDreg, d.dy.toDreg] ∧ resultRegIn i = i.computeOp.map ComputeOp.dest ∧
      operandsIn i = [d.dm, d.pm] ∧ loadIn i = none ∧ storeIn i = none ∧ moveIn i = none := by
  cases i <;> simp_all [loadIn, movedDregs, resultRegIn, Instr.computeOp, operandsIn, dualReadsIn, storeIn, moveIn]

/-- Through which form an instruction answered a next state, and what the form's arguments are in the syntax. -/
theorem execWith_eq_next {P : Params} {i : Instr} {s t : State} (h : execWith P i s = .next t) :
    (∃ d, dualReadsIn i = some d ∧ dualReadForm (effectOf i s.view P) d s P = .next t) ∨
    (∃ op dst o, i.computeOp = some op ∧ loadIn i = some (dst, o) ∧
      memReadForm op (P.compute op s.view) dst o s P = .next t) ∨
    (∃ op src o, i.computeOp = some op ∧ storeIn i = some (src, o) ∧
      memWriteForm op (P.compute op s.view) src o s P = .next t) ∨
    (∃ op d1 d2, i.computeOp = some op ∧ moveIn i = some (d1, d2) ∧ dualReadsIn i = none ∧ loadIn i = none ∧
      storeIn i = none ∧ regMoveForm op (P.compute op s.view) d1 d2 s P = .next t) ∨
    (∃ c, i.computeOp = some (.alu c .ar) ∧ dualReadsIn i = none ∧ loadIn i = none ∧ storeIn i = none ∧
      (i = .aluStatusOnly c ∨ i = .aluRegMove c .ar .ar .ar) ∧
      statusOnlyForm (P.compute (.alu c .ar) s.view) s = .next t) := by
  cases i with
  | aluDualRead c d => exact .inl ⟨d, rfl, h⟩
  | macDualRead c d => exact .inl ⟨d, rfl, h⟩
  | dualRead d => exact .inl ⟨d, rfl, h⟩
  | aluMemRead c z dst o => exact .inr (.inl ⟨_, _, _, rfl, rfl, h⟩)
  | macMemRead c z dst o => exact .inr (.inl ⟨_, _, _, rfl, rfl, h⟩)
  | shiftMemRead c dst o => exact .inr (.inl ⟨_, _, _, rfl, rfl, h⟩)
  | aluMemWrite c z src o => exact .inr (.inr (.inl ⟨_, _, _, rfl, rfl, h⟩))
  | macMemWrite c z src o => exact .inr (.inr (.inl ⟨_, _, _, rfl, rfl, h⟩))
  | shiftMemWrite c src o => exact .inr (.inr (.inl ⟨_, _, _, rfl, rfl, h⟩))
  | aluStatusOnly c => exact .inr (.inr (.inr (.inr ⟨_, rfl, rfl, rfl, rfl, .inl rfl, h⟩)))
  | aluRegMove c z d1 d2 =>
    have h' : execAluRegMove c z d1 d2 s P = .next t := h
    unfold execAluRegMove at h'
    split at h'
    · obtain ⟨rfl, rfl⟩ := ‹_ ∧ _›
      cases z
      · exact .inr (.inr (.inr (.inr ⟨_, rfl, rfl, rfl, rfl, .inr rfl, h'⟩)))
      · cases h'
    · exact .inr (.inr (.inr (.inl ⟨_, _, _, rfl, rfl, rfl, rfl, rfl, h'⟩)))
  | macRegMove c z d1 d2 =>
    exact .inr (.inr (.inr (.inl ⟨_, _, _, rfl, rfl, rfl, rfl, rfl, (nonAluMoveForm_eq_next h).2⟩)))
  | shiftRegMove c d1 d2 =>
    exact .inr (.inr (.inr (.inl ⟨_, _, _, rfl, rfl, rfl, rfl, rfl, (nonAluMoveForm_eq_next h).2⟩)))

end Sys2Proof.Machine
end

