-- ==== Sys2Proof/Laws/PerInstr.lean ====
section
/-!
SUPPORT. Statements about every instruction as syntax, one lemma per constructor.
-/

namespace Sys2Proof.Laws.EncodeFitsRow

open Sys2Proof

/-- The word of an instruction has the fixed bits of the instruction's row of the opcode table. -/
def Statement (i : Instr) : Prop := ∀ f ∈ i.fixedFields, f.fits (encode i)

/-- The fixed fields of a word, from its value as a number. -/
theorem fits_of {w : Word24} {fs : List FixedField}
    (h : fs.all (fun f => w.toNat / 2 ^ f.lo % 2 ^ f.len == f.value) = true) : ∀ f ∈ fs, f.fits w := by
  intro f hf
  have := List.all_eq_true.1 h f hf
  unfold FixedField.fits
  rw [bits_toNat]
  exact eq_of_beq this

theorem type1 (d : DualReads) (amf yx : BitVec 5) :
    (encodeType1 d amf yx).toNat / 2 ^ 22 % 2 ^ 2 = 3 ∧
      (encodeType1 d amf yx).toNat / 2 ^ 13 % 2 ^ 5 = amf.toNat ∧
      (encodeType1 d amf yx).toNat / 2 ^ 17 % 2 ^ 1 = amf.toNat / 16 := by
  have := d.dy.code.isLt
  have := d.dx.code.isLt
  have := amf.isLt
  have := yx.isLt
  have := d.pmI.isLt
  have := d.pmM.isLt
  have := d.dmI.isLt
  have := d.dmM.isLt
  rw [encodeType1_toNat]
  omega

theorem type4 (o : MemOperand) (dir z : BitVec 1) (amf yx : BitVec 5) (r : Dreg) :
    (encodeType4 o dir z amf yx r).toNat / 2 ^ 21 % 2 ^ 3 = 3 ∧
      (encodeType4 o dir z amf yx r).toNat / 2 ^ 19 % 2 ^ 1 = dir.toNat ∧
      (encodeType4 o dir z amf yx r).toNat / 2 ^ 17 % 2 ^ 1 = amf.toNat / 16 := by
  have := o.dag.code.isLt
  have := dir.isLt
  have := z.isLt
  have := amf.isLt
  have := yx.isLt
  have := r.code.isLt
  have := o.i.isLt
  have := o.m.isLt
  rw [encodeType4_toNat]
  omega

theorem type8 (z : BitVec 1) (amf yx : BitVec 5) (d1 d2 : Dreg) :
    (encodeType8 z amf yx d1 d2).toNat / 2 ^ 19 % 2 ^ 5 = 5 ∧
      (encodeType8 z amf yx d1 d2).toNat / 2 ^ 17 % 2 ^ 7 = 20 + z.toNat * 2 + amf.toNat / 16 ∧
      (encodeType8 z amf yx d1 d2).toNat / 2 ^ 17 % 2 ^ 1 = amf.toNat / 16 ∧
      (encodeType8 z amf yx d1 d2).toNat / 2 ^ 0 % 2 ^ 8 = d1.code.toNat * 16 + d2.code.toNat := by
  have := z.isLt
  have := amf.isLt
  have := yx.isLt
  have := d1.code.isLt
  have := d2.code.isLt
  rw [encodeType8_toNat]
  omega

theorem type12 (o : MemOperand) (dir : BitVec 1) (c : ShiftClause) (r : Dreg) :
    (encodeType12 o dir c r).toNat / 2 ^ 17 % 2 ^ 7 = 9 ∧
      (encodeType12 o dir c r).toNat / 2 ^ 15 % 2 ^ 1 = dir.toNat := by
  have := o.dag.code.isLt
  have := dir.isLt
  have := c.fn.code.isLt
  have := c.x.code.isLt
  have := r.code.isLt
  have := o.i.isLt
  have := o.m.isLt
  rw [encodeType12_toNat]
  omega

theorem type14 (c : ShiftClause) (d1 d2 : Dreg) : (encodeType14 c d1 d2).toNat / 2 ^ 15 % 2 ^ 9 = 32 := by
  have := c.fn.code.isLt
  have := c.x.code.isLt
  have := d1.code.isLt
  have := d2.code.isLt
  rw [encodeType14_toNat]
  omega

/-- Bit 17 of a word with an AMF field tells ALU functions from MAC functions (R86). -/
theorem aluFn_half (f : AluFn) : f.code.toNat / 16 = 1 := by cases f <;> rfl

theorem macFn_half (f : MacFn) : f.code.toNat / 16 = 0 := by
  have := macFn_code_range f
  omega

theorem aluDualRead (c : AluClause) (d : DualReads) : Statement (.aluDualRead c d) := by
  have := type1 d c.fn.code c.operandCode
  have := aluFn_half c.fn
  refine fits_of ?_
  simp [Instr.fixedFields, encode]
  omega

theorem macDualRead (c : MacClause) (d : DualReads) : Statement (.macDualRead c d) := by
  have := type1 d c.fn.code c.operandCode
  have := macFn_half c.fn
  refine fits_of ?_
  simp [Instr.fixedFields, encode]
  omega

theorem dualRead (d : DualReads) : Statement (.dualRead d) := by
  have := type1 d 0#5 0#5
  have : (0#5).toNat = 0 := rfl
  refine fits_of ?_
  simp [Instr.fixedFields, encode]
  omega

theorem aluMemRead (c : AluClause) (z : AluDest) (dst : Dreg) (o : MemOperand) : Statement (.aluMemRead c z dst o) := by
  have := type4 o 0#1 z.code c.fn.code c.operandCode dst
  have := aluFn_half c.fn
  have : (0#1).toNat = 0 := rfl
  refine fits_of ?_
  simp [Instr.fixedFields, encode]
  omega

theorem macMemRead (c : MacClause) (z : MacDest) (dst : Dreg) (o : MemOperand) : Statement (.macMemRead c z dst o) := by
  have := type4 o 0#1 z.code c.fn.code c.operandCode dst
  have := macFn_half c.fn
  have : (0#1).toNat = 0 := rfl
  refine fits_of ?_
  simp [Instr.fixedFields, encode]
  omega

theorem shiftMemRead (c : ShiftClause) (dst : Dreg) (o : MemOperand) : Statement (.shiftMemRead c dst o) := by
  have := type12 o 0#1 c dst
  have : (0#1).toNat = 0 := rfl
  refine fits_of ?_
  simp [Instr.fixedFields, encode]
  omega

theorem aluMemWrite (c : AluClause) (z : AluDest) (src : Dreg) (o : MemOperand) : Statement (.aluMemWrite c z src o) := by
  have := type4 o 1#1 z.code c.fn.code c.operandCode src
  have := aluFn_half c.fn
  have : (1#1).toNat = 1 := rfl
  refine fits_of ?_
  simp [Instr.fixedFields, encode]
  omega

theorem macMemWrite (c : MacClause) (z : MacDest) (src : Dreg) (o : MemOperand) : Statement (.macMemWrite c z src o) := by
  have := type4 o 1#1 z.code c.fn.code c.operandCode src
  have := macFn_half c.fn
  have : (1#1).toNat = 1 := rfl
  refine fits_of ?_
  simp [Instr.fixedFields, encode]
  omega

theorem shiftMemWrite (c : ShiftClause) (src : Dreg) (o : MemOperand) : Statement (.shiftMemWrite c src o) := by
  have := type12 o 1#1 c src
  have : (1#1).toNat = 1 := rfl
  refine fits_of ?_
  simp [Instr.fixedFields, encode]
  omega

theorem aluStatusOnly (c : AluClause) : Statement (.aluStatusOnly c) := by
  have := type8 0#1 c.fn.code c.operandCode .ar .ar
  have := aluFn_half c.fn
  have : (0#1).toNat = 0 := rfl
  have : Dreg.ar.code.toNat = 10 := rfl
  refine fits_of ?_
  simp [Instr.fixedFields, encode]
  omega

theorem aluRegMove (c : AluClause) (z : AluDest) (d1 d2 : Dreg) : Statement (.aluRegMove c z d1 d2) := by
  have := type8 z.code c.fn.code c.operandCode d1 d2
  have := aluFn_half c.fn
  refine fits_of ?_
  simp [Instr.fixedFields, encode]
  omega

theorem macRegMove (c : MacClause) (z : MacDest) (d1 d2 : Dreg) : Statement (.macRegMove c z d1 d2) := by
  have := type8 z.code c.fn.code c.operandCode d1 d2
  have := macFn_half c.fn
  refine fits_of ?_
  simp [Instr.fixedFields, encode]
  omega

theorem shiftRegMove (c : ShiftClause) (d1 d2 : Dreg) : Statement (.shiftRegMove c d1 d2) := by
  have := type14 c d1 d2
  refine fits_of ?_
  simp [Instr.fixedFields, encode]
  omega

end Sys2Proof.Laws.EncodeFitsRow
end

