-- ==== Sys2Proof/Tests/Slice0.lean ====
section
/-!
SUPPORT. Tests. Expected values are those of spec/95_test_vectors.md (the vector's id stands in the name or the
comment) or of the encoding tables of spec/30_encoding.md, never the model's own answer. Then one witness for each
statement that has hypotheses.
-/

namespace Sys2Proof.Tests

open Sys2Proof Sys2Proof.Machine

/-! ## Well-formedness refuses an ill-formed term for each check -/

/-- `AX0 + AY0` (shared by the tests). -/
def addC0 : AluClause := ⟨.add, .ax0, .ay0⟩

/-- `MX0 * MY0 (SS)`. -/
def mulC0 : MacClause := ⟨⟨.mul, .ss⟩, .mx0, .my0⟩

/-- `SR = ASHIFT SI (HI)`. -/
def ashiftC0 : ShiftClause := ⟨.shift .ashift .hi false, .si⟩

/-- `(I0 += M0)`. -/
def op00 : MemOperand := ⟨.dag1, 0, 0⟩

/-- V3.5, V3.6, V3.7, V5.6, V5.7. -/
theorem test_check_sameDestination :
    (Instr.aluMemRead addC0 .ar .ar op00).check = some .sameDestination ∧
      (Instr.macMemRead ⟨⟨.add, .ss⟩, .mx0, .my0⟩ .mr .mr0 op00).check = some .sameDestination ∧
      (Instr.shiftMemRead ashiftC0 .sr1 op00).check = some .sameDestination ∧
      (Instr.aluRegMove addC0 .ar .ar .ax1).check = some .sameDestination ∧
      (Instr.macRegMove mulC0 .mr .mr1 .ax0).check = some .sameDestination ∧
      (Instr.shiftRegMove ashiftC0 .sr2 .ax0).check = some .sameDestination := by decide

/-- V4.7, V5.8. -/
theorem test_check_sr2Source :
    (Instr.shiftMemWrite ashiftC0 .sr2 op00).check = some .sr2Source ∧
      (Instr.macMemWrite mulC0 .sr .sr2 op00).check = some .sr2Source ∧
      (Instr.shiftRegMove ashiftC0 .ax0 .sr2).check = some .sr2Source ∧
      (Instr.macRegMove mulC0 .sr .ax0 .sr2).check = some .sr2Source := by decide

/-- V5.5. -/
theorem test_check_arArNonAlu :
    (Instr.macRegMove mulC0 .mr .ar .ar).check = some .arArNonAlu ∧
      (Instr.shiftRegMove ashiftC0 .ar .ar).check = some .arArNonAlu := by decide

/-- R184. -/
theorem test_check_arArAf : (Instr.aluRegMove addC0 .af .ar .ar).check = some .arArAf := by decide

/-- R180: the text of `AR = AR` beside a clause to AR is ALU_STATUS_ONLY's. -/
theorem test_check_statusOnlySpelling :
    (Instr.aluRegMove addC0 .ar .ar .ar).check = some .statusOnlySpelling := by decide

/-- V3.4, V3.8, V4.6, V4.8, V5.13: not every pair of clauses is refused. -/
theorem test_check_wellFormed :
    WellFormed (.aluMemRead addC0 .af .ar op00) ∧ WellFormed (.shiftMemRead ⟨.exp .hi, .si⟩ .sr1 op00) ∧
      WellFormed (.macMemWrite mulC0 .mr .sr2 op00) ∧ WellFormed (.shiftMemWrite ashiftC0 .sr1 op00) ∧
      WellFormed (.aluRegMove addC0 .af .ar .ax1) := by decide

/-! ## Texts that spell no instruction, each under its name (R91) -/

/-- A data register as an operand of a text. -/
def opd (r : Dreg) : OperandText := .reg (.dreg r)

/-- `AR = AX0 + AY0`. -/
def addText : Clause := .compute ⟨false, .reg .ar, .alu .add (opd .ax0) (opd .ay0)⟩

/-- `r = DM(Ii += Mj)`. -/
def readDm (r : Dreg) (i j : Fin 8) : Clause := .read (.dreg r) ⟨.dm, .postModify i j⟩

/-- `r = PM(Ii += Mj)`. -/
def readPm (r : Dreg) (i j : Fin 8) : Clause := .read (.dreg r) ⟨.pm, .postModify i j⟩

/-- The refusals of section 2.1 of the vectors: Dual Memory Read. -/
theorem test_refused_dualRead :
    assemble [readDm .mx0 4 4, readPm .my0 0 0] = .error (.refused .dagBus) ∧
      assemble [readDm .mx0 0 4, readPm .my0 4 4] = .error (.refused .dagPairing) ∧
      assemble [readDm .ax0 0 0, readPm .ax1 4 4] = .error (.refused .type1Dest) ∧
      assemble [readDm .ar 0 0, readPm .my0 4 4] = .error (.refused .type1Dest) ∧
      assemble [.read (.dreg .mx0) ⟨.dm, .noModify 0⟩, readPm .my0 4 4] = .error (.refused .addrMode) := by decide

/-- The refusals of section 2.2: Compute with Dual Memory Read. -/
theorem test_refused_computeDualRead :
    assemble [.compute ⟨false, .reg .af, .alu .add (opd .ax0) (opd .ay0)⟩, readDm .ax0 0 0, readPm .ay0 4 4] =
        .error (.refused .type1Result) ∧
      assemble [.compute ⟨false, .reg .sr, .mac ⟨.mul, .ss⟩ (opd .mx0) (opd .my0)⟩, readDm .mx0 0 0, readPm .my0 4 4] =
        .error (.refused .type1Result) ∧
      assemble [.compute ⟨false, .reg .sr, .shift (.shift .ashift .hi false) (opd .si)⟩, readDm .mx0 0 0, readPm .my0 4 4] =
        .error (.refused .noShiftInType1) ∧
      assemble [.compute ⟨true, .reg .ar, .alu .add (opd .ax0) (opd .ay0)⟩, readDm .ax0 0 0, readPm .ay0 4 4] =
        .error (.refused .excludedIf) ∧
      assemble [.compute ⟨false, .reg .ar, .alu .add (opd .mx0) (opd .ay0)⟩, readDm .ax0 0 0, readPm .ay0 4 4] =
        .error (.refused .notRestrictedForm) ∧
      assemble [.compute ⟨false, .none, .divq⟩, readDm .ax0 0 0, readPm .ay0 4 4] = .error (.refused .excludedDiv) ∧
      assemble [.compute ⟨false, .reg .mr, .macSaturate⟩, readDm .ax0 0 0, readPm .ay0 4 4] =
        .error (.refused .excludedSat) := by decide

/-- R91, `type1_result` and `no_shift_in_type1`: a result that is none of the unit's, in a dual-read form; in a single
access it is none of the syntaxes. -/
theorem test_refused_otherResult :
    assemble [.compute ⟨false, .reg .sr, .alu .add (opd .ax0) (opd .ay0)⟩, readDm .ax0 0 0, readPm .ay0 4 4] =
        .error (.refused .type1Result) ∧
      assemble [.compute ⟨false, .reg .se, .mac ⟨.mul, .ss⟩ (opd .mx0) (opd .my0)⟩, readDm .mx0 0 0, readPm .my0 4 4] =
        .error (.refused .type1Result) ∧
      assemble [.compute ⟨false, .reg .ar, .shift (.shift .ashift .hi false) (opd .si)⟩, readDm .mx0 0 0, readPm .my0 4 4] =
        .error (.refused .noShiftInType1) ∧
      assemble [.compute ⟨false, .reg .sr, .alu .add (opd .ax0) (opd .ay0)⟩, readDm .ax0 0 0] = .error .notAForm := by
  decide

/-- The refusals of sections 2.3 to 2.5: single accesses and moves. -/
theorem test_refused_singleForms :
    assemble [addText, readDm .ax0 0 4] = .error (.refused .dagPairing) ∧
      assemble [.compute ⟨false, .reg .sr, .shiftImmediate⟩, readDm .si 0 0] = .error (.refused .excludedShiftImm) ∧
      assemble [addText, readDm .ar 0 0] = .error (.refused .sameDestination) ∧
      assemble [.write ⟨.dm, .postModify 0 0⟩ (.dreg .sr2),
          .compute ⟨false, .reg .sr, .shift (.shift .ashift .hi false) (opd .si)⟩] = .error (.refused .sr2Source) ∧
      assemble [.compute ⟨false, .reg .mr, .mac ⟨.mul, .ss⟩ (opd .mx0) (opd .my0)⟩, .move (.dreg .ar) (.dreg .ar)] =
        .error (.refused .arArNonAlu) ∧
      assemble [.compute ⟨false, .reg .af, .alu .add (opd .ax0) (opd .ay0)⟩, .move (.dreg .ar) (.dreg .ar)] =
        .error (.refused .arArAf) := by decide

/-- V2.4 and V2.5: the source's reordered example spells the same instruction. -/
theorem test_assemble_order :
    let mac : Clause := .compute ⟨false, .reg .mr, .mac ⟨.add, .uu⟩ (opd .mx0) (opd .my0)⟩
    let i : Instr := .macDualRead ⟨⟨.add, .uu⟩, .mx0, .my0⟩ ⟨.mx0, 0, 0, .my0, 0, 0⟩
    assemble [mac, readDm .mx0 0 0, readPm .my0 4 4] = .ok i ∧
      assemble [readDm .mx0 0 0, readPm .my0 4 4, mac] = .ok i := by decide

/-! ## Decoding: words written from the tables R81 to R89

Fields from the left, as the rule writes them. The XOP field of the shifter words is the model's (log 19). -/

/-- R81: 11, PD 11 MY1, DD 11 MX1, AMF 10111, YOP 00 AY0, XOP 000 AX0, PMI 01 I5, PMM 00 M4, DMI 11 I3, DMM 00 M0. -/
theorem test_decode_aluDualRead :
    decode 0b111111101110000001001100#24 = .ok (.aluDualRead ⟨.sub, .ax0, .ay0⟩ ⟨.mx1, 3, 0, .my1, 1, 0⟩) := by decide

/-- R81: 11, PD 10 MY0, DD 10 MX0, AMF 00100, YOP 00, XOP 000, PMI 11 I7, PMM 11 M7, DMI 10 I2, DMM 10 M2. -/
theorem test_decode_macDualRead :
    decode 0b111010001000000011111010#24 = .ok (.macDualRead mulC0 ⟨.mx0, 2, 2, .my0, 3, 3⟩) := by decide

/-- R81 with AMF 00000: PD 01 AY1, DD 01 AX1, PMI 10 I6, PMM 00 M4, DMI 11 I3, DMM 00 M0. -/
theorem test_decode_dualRead :
    decode 0b110101000000000010001100#24 = .ok (.dualRead ⟨.ax1, 3, 0, .ay1, 2, 0⟩) := by decide

/-- R82: 011, G 0, D 0, Z 0, AMF 10110, YOP 01 AY1, XOP 000 AX0, DREG 0000 AX0, I 01, M 00. -/
theorem test_decode_aluMemRead :
    decode 0b011000101100100000000100#24 = .ok (.aluMemRead ⟨.subB, .ax0, .ay1⟩ .ar .ax0 ⟨.dag1, 1, 0⟩) := by decide

/-- R82: 011, G 1, D 0, Z 0, AMF 00100, YOP 00 MY0, XOP 001 MX1, DREG 1101 SR1, I 00 I4, M 00 M4. -/
theorem test_decode_macMemRead :
    decode 0b011100001000000111010000#24 =
      .ok (.macMemRead ⟨⟨.mul, .ss⟩, .mx1, .my0⟩ .mr .sr1 ⟨.dag2, 0, 0⟩) := by decide

/-- R84: 0001001, G 0, D 0, SF 0100, XOP 000 SI, DREG 1011 SI, I 00, M 00. -/
theorem test_decode_shiftMemRead :
    decode 0b000100100010000010110000#24 = .ok (.shiftMemRead ashiftC0 .si op00) := by decide

/-- R82: 011, G 0, D 1, Z 1, AMF 10011, YOP 10 AF, XOP 111 SR1, DREG 1010 AR, I 10 I2, M 01 M1. -/
theorem test_decode_aluMemWrite :
    decode 0b011011100111011110101001#24 = .ok (.aluMemWrite ⟨.add, .sr1, .af⟩ .af .ar ⟨.dag1, 2, 1⟩) := by decide

/-- R82: 011, G 1, D 1, Z 1, AMF 01111, YOP 10 SR1, XOP 101 MR2, DREG 1000 MR2, I 11 I7, M 10 M6. -/
theorem test_decode_macMemWrite :
    decode 0b011111011111010110001110#24 =
      .ok (.macMemWrite ⟨⟨.sub, .uu⟩, .mr2, .sr1⟩ .sr .mr2 ⟨.dag2, 3, 2⟩) := by decide

/-- R84: 0001001, G 0, D 1, SF 0011, XOP 000 SI, DREG 1011 SI, I 00, M 00. -/
theorem test_decode_shiftMemWrite :
    decode 0b000100101001100010110000#24 = .ok (.shiftMemWrite ⟨.shift .lshift .lo true, .si⟩ .si op00) := by decide

/-- R83: 00101, Z 0, AMF 10111, YOP 00 AY0, XOP 000 AX0, DDREG 1010, SDREG 1010. -/
theorem test_decode_aluStatusOnly :
    decode 0b001010101110000010101010#24 = .ok (.aluStatusOnly ⟨.sub, .ax0, .ay0⟩) := by decide

/-- R83: 00101, Z 1, AMF 10111, YOP 00, XOP 000, DDREG 0000 AX0, SDREG 1100 MR1. -/
theorem test_decode_aluRegMove :
    decode 0b001011101110000000001100#24 = .ok (.aluRegMove ⟨.sub, .ax0, .ay0⟩ .af .ax0 .mr1) := by decide

/-- R83: 00101, Z 0, AMF 00110, YOP 00 MY0, XOP 001 MX1, DDREG 0110 MY0, SDREG 1010 AR. -/
theorem test_decode_macRegMove :
    decode 0b001010001100000101101010#24 =
      .ok (.macRegMove ⟨⟨.mul, .us⟩, .mx1, .my0⟩ .mr .my0 .ar) := by decide

/-- R85: 000100000, SF 0100, XOP 000 SI, DDREG 1011 SI, SDREG 1110 MR0. -/
theorem test_decode_shiftRegMove :
    decode 0b000100000010000010111110#24 = .ok (.shiftRegMove ashiftC0 .si .mr0) := by decide

/-- A Type 4 and a Type 8 word without a compute function (R82), and a word of no type of the chapter. -/
theorem test_decode_rejected :
    decode 0b011000000000000000000000#24 = .error .noCompute ∧
      decode 0b001010000000000000000000#24 = .error .noCompute ∧ decode 0#24 = .error .otherOpcode := by decide

/-- Every field of every type read at once: the word back from the instruction. -/
theorem test_encode :
    encode (.aluMemWrite ⟨.add, .sr1, .af⟩ .af .ar ⟨.dag1, 2, 1⟩) = 0b011011100111011110101001#24 ∧
      encode (.shiftRegMove ashiftC0 .si .mr0) = 0b000100000010000010111110#24 := by decide

/-! ## One step of each instruction (the vectors of sections 2.1 to 2.5) -/

/-- The tests' memory map: 24-bit at 2000 to 2FFF and at 9000 to 90FF, nothing at 7000 to 7FFF, 16-bit elsewhere. -/
def testMap : List Region :=
  [⟨0x2000, 0x1000, .w24⟩, ⟨0x9000, 0x100, .w24⟩, ⟨0x7000, 0x1000, .absent⟩, ⟨0, 0x10000, .w16⟩]

/-- Every test's start: the computation registers, index and modify registers and memory given, all else zero. -/
def start (c : CompRegs) (i m : Vector Word 8) (mem : Memory) : State :=
  { State.reset with
    primary := c
    dagPrimary := { DagRegs.zero with i := i, m := m }
    memMap := testMap
    pc := 0
    text := ⟨0, 0⟩
    mem := mem }

/-- `Mem16[a] = v` alone. -/
def at16 (a : Addr) (v : Word) (m : Memory) : Memory := setMem16 m a v

/-- `Mem24[a] = v` alone. -/
def at24 (a : Addr) (v : Word24) (m : Memory) : Memory := setMem24 m a v

/-- Eight registers, all zero. -/
def z8 : Vector Word 8 := Vector.replicate 8 0

/-- The instruction answered a next state, and the state is as expected. -/
def after (o : Result) (p : State → Bool) : Bool :=
  match o with
  | .next t => p t
  | .fault _ => false
  | .refused _ => false

/-- V1.1: two reads of 16-bit memory; PX is cleared. -/
theorem test_V1_1 :
    after (exec (.dualRead ⟨.ax1, 1, 2, .my1, 1, 2⟩)
      { start .zero ((z8.set 1 0x0100).set 5 0x0180) ((z8.set 2 2).set 6 0xFFFF)
          (at16 0x0100 0x1111 (at16 0x0180 0x2222 [])) with px := 0x77 })
      (fun t => t.comp.ax1 == 0x1111 && t.comp.my1 == 0x2222 && t.px == 0 && t.dag.i[1] == 0x0102 &&
        t.dag.i[5] == 0x017F && t.pc == 1) = true := by decide

/-- V1.5: circular post-modify in both directions (`P_CIRC`). -/
theorem test_V1_5 :
    after (exec (.dualRead ⟨.ax0, 0, 0, .ay0, 0, 0⟩)
      { start .zero z8 z8 [] with
        dagPrimary :=
          { i := (z8.set 0 0x0103).set 4 0x0200
            m := (z8.set 0 1).set 4 0xFFFF
            l := (z8.set 0 4).set 4 3
            b := (z8.set 0 0x0100).set 4 0x0200 }
        mem := at16 0x0103 1 (at16 0x0200 2 []) })
      (fun t => t.comp.ax0 == 1 && t.comp.ay0 == 2 && t.dag.i[0] == 0x0100 && t.dag.i[4] == 0x0202) = true := by decide

/-- V2.2: the loads replace nothing the compute clause reads; PX takes the low byte of 24-bit memory. -/
theorem test_V2_2 :
    after (exec (.aluDualRead ⟨.sub, .ax0, .ay0⟩ ⟨.mx1, 3, 0, .my1, 1, 0⟩)
      (start { CompRegs.zero with ax0 := 5, ay0 := 3 } ((z8.set 3 0x1000).set 5 0x2000) ((z8.set 0 1).set 4 2)
        (at16 0x1000 0xAAAA (at24 0x2000 0x123456 []))))
      (fun t => t.comp.ar == 2 && t.comp.mx1 == 0xAAAA && t.comp.my1 == 0x1234 && t.px == 0x56 &&
        t.dag.i[3] == 0x1001 && t.dag.i[5] == 0x2002) = true := by decide

/-- V2.6: the sum of the old operands overflows. -/
theorem test_V2_6 :
    after (exec (.aluDualRead addC0 ⟨.ax0, 0, 0, .ay0, 0, 0⟩)
      (start { CompRegs.zero with ax0 := 0x7FFF, ay0 := 1 } ((z8.set 0 0x0100).set 4 0x0180) ((z8.set 0 1).set 4 1)
        (at16 0x0100 0x0100 (at16 0x0180 0x0200 []))))
      (fun t => t.comp.ar == 0x8000 && t.astat.av && t.astat.an && !t.astat.ac && !t.astat.az &&
        t.comp.ax0 == 0x0100 && t.comp.ay0 == 0x0200) = true := by decide

/-- V2.4 in fractional mode: the product uses the old MX0 and MY0. -/
theorem test_V2_4 :
    after (exec (.macDualRead ⟨⟨.add, .uu⟩, .mx0, .my0⟩ ⟨.mx0, 0, 0, .my0, 0, 0⟩)
      (start { CompRegs.zero with mr0 := 0x10, mx0 := 0xFFFF, my0 := 2 } ((z8.set 0 0x0100).set 4 0x2000)
        ((z8.set 0 1).set 4 1) (at16 0x0100 7 (at24 0x2000 0x000899 []))))
      (fun t => t.comp.mr == 0x000004000C#40 && !t.astat.mv && t.comp.mx0 == 7 && t.comp.my0 == 8 &&
        t.px == 0x99) = true := by decide

/-- V2.4 in integer mode. -/
theorem test_V2_4_int :
    after (exec (.macDualRead ⟨⟨.add, .uu⟩, .mx0, .my0⟩ ⟨.mx0, 0, 0, .my0, 0, 0⟩)
      { start { CompRegs.zero with mr0 := 0x10, mx0 := 0xFFFF, my0 := 2 } ((z8.set 0 0x0100).set 4 0x2000)
          ((z8.set 0 1).set 4 1) (at16 0x0100 7 (at24 0x2000 0x000899 [])) with
        modes := { Modes.zero with mMode := true } })
      (fun t => t.comp.mr == 0x000002000E#40) = true := by decide

/-- V3.1: borrow in, and the load after the compute clause. -/
theorem test_V3_1 :
    after (exec (.aluMemRead ⟨.subB, .ax0, .ay1⟩ .ar .ax0 ⟨.dag1, 1, 0⟩)
      { start { CompRegs.zero with ax0 := 0x10, ay1 := 1 } (z8.set 1 0x0200) (z8.set 0 4) (at16 0x0200 0xBEEF []) with
        px := 0x55 })
      (fun t => t.comp.ar == 0x000E && t.comp.ax0 == 0xBEEF && t.dag.i[1] == 0x0204 && t.px == 0x55) = true := by decide

/-- V3.2: MR1 fills MR2 with its sign; PX is unchanged, although the location is 24-bit. -/
theorem test_V3_2 :
    after (exec (.aluMemRead addC0 .ar .mr1 ⟨.dag2, 0, 1⟩)
      { start { CompRegs.zero with ax0 := 1, ay0 := 2 } (z8.set 4 0x2000) (z8.set 5 2) (at24 0x2000 0x8000FF []) with
        px := 0x11 })
      (fun t => t.comp.ar == 3 && t.comp.mr1 == 0x8000 && t.comp.mr2 == 0xFF && t.px == 0x11 &&
        t.dag.i[4] == 0x2002) = true := by decide

/-- V3.3 in fractional mode. -/
theorem test_V3_3 :
    after (exec (.macMemRead ⟨⟨.mul, .ss⟩, .mx1, .my0⟩ .mr .sr1 ⟨.dag2, 0, 0⟩)
      (start { CompRegs.zero with mx1 := 0xFFFE, my0 := 3, sr2 := 0x55 } (z8.set 4 0x2000) (z8.set 4 1)
        (at24 0x2000 0x7FFF01 [])))
      (fun t => t.comp.mr == 0xFFFFFFFFF4#40 && !t.astat.mv && t.comp.sr1 == 0x7FFF && t.comp.sr2 == 0) = true := by
  decide

/-- V3.10, first half: an arithmetic shift left, and SI loaded. -/
theorem test_V3_10_ashift :
    after (exec (.shiftMemRead ashiftC0 .si op00)
      (start { CompRegs.zero with se := 3, si := 0xB6A3 } (z8.set 0 0x0400) (z8.set 0 1) (at16 0x0400 0x765D [])))
      (fun t => t.comp.sr == 0xFDB5180000#40 && t.comp.si == 0x765D && t.dag.i[0] == 0x0401) = true := by decide

/-- V3.10, second half: a logical shift ORed into SR. -/
theorem test_V3_10_lshift :
    after (exec (.shiftMemRead ⟨.shift .lshift .lo true, .si⟩ .si op00)
      (start { CompRegs.zero with se := 3, si := 0x765D, sr2 := 0xFD, sr1 := 0xB518 } (z8.set 0 0x0401) (z8.set 0 1)
        (at16 0x0401 0x0042 [])))
      (fun t => t.comp.sr == 0xFDB51BB2E8#40 && t.comp.si == 0x0042) = true := by decide

/-- V4.2: the old AR is stored. -/
theorem test_V4_2 :
    after (exec (.aluMemWrite addC0 .ar .ar op00)
      (start { CompRegs.zero with ar := 0x1111, ax0 := 2, ay0 := 3 } (z8.set 0 0x0100) (z8.set 0 1) []))
      (fun t => t.mem16 0x0100 == 0x1111 && t.comp.ar == 5 && t.dag.i[0] == 0x0101) = true := by decide

/-- V4.5: MR2 is stored sign-extended, and `AX0 - AY0 = 0` sets AZ and AC. -/
theorem test_V4_5 :
    after (exec (.aluMemWrite ⟨.sub, .ax0, .ay0⟩ .ar .mr2 ⟨.dag1, 2, 1⟩)
      (start { CompRegs.zero with mr2 := 0x80, ax0 := 1, ay0 := 1 } (z8.set 2 0x0100) z8 []))
      (fun t => t.mem16 0x0100 == 0xFF80 && t.comp.ar == 0 && t.astat.az && t.astat.ac && t.dag.i[2] == 0x0100) =
        true := by decide

/-- V4.3 in fractional mode: bits 23:8 of 24-bit memory take SR1; its low byte is free, so nothing is said of it. -/
theorem test_V4_3 :
    after (exec (.macMemWrite ⟨⟨.mul, .ss⟩, .mx1, .my0⟩ .mr .sr1 ⟨.dag2, 0, 0⟩)
      (start { CompRegs.zero with sr1 := 0x1234, mx1 := 3, my0 := 4 } (z8.set 4 0x9000) (z8.set 4 1)
        (at24 0x9000 0xAAAAAA [])))
      (fun t => t.lane 0x9000 2 == 0x12 && t.lane 0x9000 1 == 0x34 && t.comp.mr == 0x18#40 && t.dag.i[4] == 0x9001) =
        true := by decide

/-- V4.8: the old SR1 is stored beside a result in SR. -/
theorem test_V4_8 :
    after (exec (.shiftMemWrite ashiftC0 .sr1 op00)
      (start { CompRegs.zero with sr1 := 0x00AB, se := 3, si := 0xB6A3 } (z8.set 0 0x0500) (z8.set 0 1) []))
      (fun t => t.mem16 0x0500 == 0x00AB && t.comp.sr == 0xFDB5180000#40 && t.dag.i[0] == 0x0501) = true := by decide

/-- V5.4: the flags of 8001 - 0005 and nothing else. -/
theorem test_V5_4 :
    after (exec (.aluStatusOnly ⟨.sub, .ax0, .ay0⟩)
      (start { CompRegs.zero with ax0 := 0x8001, ay0 := 5, ar := 0x8006 } z8 z8 []))
      (fun t => t.comp.ar == 0x8006 && t.astat.av && t.astat.ac && !t.astat.an && !t.astat.az) = true := by decide

/-- V5.1: the subtraction uses the old AX0. -/
theorem test_V5_1 :
    after (exec (.aluRegMove ⟨.sub, .ax0, .ay0⟩ .ar .ax0 .mr1)
      (start { CompRegs.zero with ax0 := 5, ay0 := 5, mr1 := 0x8001, ar := 0x7777 } z8 z8 []))
      (fun t => t.comp.ar == 0 && t.astat.az && t.astat.ac && !t.astat.an && !t.astat.av && t.comp.ax0 == 0x8001) =
        true := by decide

/-- V5.9, V5.11: MR2 is read sign-extended and written with the low byte. -/
theorem test_V5_9_V5_11 :
    after (exec (.aluRegMove addC0 .ar .si .mr2) (start { CompRegs.zero with ax0 := 1, ay0 := 1, mr2 := 0xFF } z8 z8 []))
        (fun t => t.comp.ar == 2 && t.comp.si == 0xFFFF) = true ∧
      after (exec (.aluRegMove addC0 .ar .mr2 .ax1)
        (start { CompRegs.zero with ax0 := 1, ay0 := 1, ax1 := 0x8000, mr2 := 0xFF } z8 z8 []))
        (fun t => t.comp.ar == 2 && t.comp.mr2 == 0) = true := by decide

/-- V5.3 in fractional mode: an unsigned by a signed operand; MY0 takes the old AR. -/
theorem test_V5_3 :
    after (exec (.macRegMove ⟨⟨.mul, .us⟩, .mx1, .my0⟩ .mr .my0 .ar)
      (start { CompRegs.zero with mx1 := 0xFFFF, my0 := 0xFFFF, ar := 0x42 } z8 z8 []))
      (fun t => t.comp.mr == 0xFFFFFE0002#40 && !t.astat.mv && t.comp.my0 == 0x42) = true := by decide

/-- V5.12. -/
theorem test_V5_12 :
    after (exec (.shiftRegMove ashiftC0 .si .mr0)
      (start { CompRegs.zero with se := 3, si := 0xB6A3, mr0 := 0xFF } z8 z8 []))
      (fun t => t.comp.sr == 0xFDB5180000#40 && t.comp.si == 0xFF) = true := by decide

/-- V1.7: no memory at 7000. -/
theorem test_V1_7 :
    exec (.dualRead ⟨.mx0, 0, 0, .my0, 0, 0⟩) (start .zero ((z8.set 0 0x7000).set 4 0x2800) z8 []) =
      .fault .noMemory := by rfl

/-- V4.10: a store to program text. -/
theorem test_V4_10 :
    exec (.aluMemWrite addC0 .ar .ar op00) { start .zero (z8.set 0 0x0100) z8 [] with text := ⟨0x0100, 1⟩ } =
      .refused .storeToCode := by rfl

/-- The secondary copies are the active ones while their mode bits are set, and the primary copies do not move (R31). -/
theorem test_secondary_registers :
    after (exec (.aluRegMove addC0 .ar .ax0 .mr1)
      { start { CompRegs.zero with ax0 := 9 } z8 z8 [] with
        secondary := { CompRegs.zero with ax0 := 2, ay0 := 3, mr1 := 7 }
        modes := { Modes.zero with secReg := true } })
      (fun t => t.secondary.ar == 5 && t.secondary.ax0 == 7 && t.primary.ax0 == 9 && t.primary.ar == 0) = true := by
  decide

/-! ## Witnesses: states and operands that meet a statement's hypotheses -/

/-- The witnesses' state: I0 and I4 at 16-bit memory, I1 and I5 at 24-bit memory, I2 and I6 at no memory, I3 and I7 at
the program text, two words from 0400 on: `AR = AX0 - AY0, AX0 = MR1` and a word that is no instruction. -/
def ws : State :=
  { start { CompRegs.zero with ax0 := 5, ay0 := 3, mr1 := 0x8001, se := 3, si := 0xB6A3 }
      #v[0x0100, 0x2000, 0x7000, 0x0400, 0x0180, 0x2800, 0x7FFF, 0x0401] #v[1, 2, 3, 0, 1, 2, 3, 0]
      (at16 0x0100 7 (at16 0x0180 9 (at24 0x0400 0x2AE00C (at24 0x0401 0 (at24 0x2000 0x123456
        (at24 0x2800 0xABCDEF [])))))) with
    pc := 0x0400
    text := ⟨0x0400, 2⟩ }

/-- Two reads: `DM(Ia += M0)` with `a` and `PM(Ic += M4)` with `4 + c`. -/
def rd (a c : Fin 4) : DualReads := ⟨.ax0, a, 0, .ay0, c, 0⟩

theorem witness_DecodeInvertsEncode :
    WellFormed (.aluDualRead addC0 (rd 3 3)) ∧ WellFormed (.macMemRead mulC0 .sr .mr2 ⟨.dag2, 3, 3⟩) ∧
      WellFormed (.shiftRegMove ⟨.expadj, .mr2⟩ .sr2 .sr0) := by decide

theorem witness_EncodeRestoresDecodedWord :
    decode 0xE81F40#24 = .ok (.dualRead ⟨.mx0, 0, 0, .my0, 1, 0⟩) ∧
      decode 0x2AE0AA#24 = .ok (.aluStatusOnly ⟨.sub, .ax0, .ay0⟩) := by decide

theorem witness_DecodedWordFitsItsRow :
    decode 0x2AE0AA#24 = .ok (.aluStatusOnly ⟨.sub, .ax0, .ay0⟩) ∧
      decode 0xFFFFFF#24 = .ok (.aluDualRead ⟨.absX, .sr1, .zero⟩ ⟨.mx1, 3, 3, .my1, 3, 3⟩) := by decide

theorem witness_RejectedWordFitsNoRow :
    decode 0#24 = .error .otherOpcode ∧ decode 0x7C1FFF#24 = .error .noCompute ∧
      decode 0x2C1FFF#24 = .error .noCompute ∧ decode 0x108000#24 = .error .otherOpcode := by decide

/-- The text of V3.9. -/
def textV3_9 : Text := [addText, readDm .mx0 4 5]

theorem witness_ClauseOrderDoesNotMatter :
    textV3_9.Perm [readDm .mx0 4 5, addText] ∧ assemble textV3_9 = .ok (.aluMemRead addC0 .ar .mx0 ⟨.dag2, 0, 1⟩) ∧
      WellFormed (.aluMemRead addC0 .ar .mx0 ⟨.dag2, 0, 1⟩) :=
  ⟨List.Perm.swap _ _ _, by decide, by decide⟩

theorem witness_AssembledInstructionsAreWellFormed :
    assemble textV3_9 = .ok (.aluMemRead addC0 .ar .mx0 ⟨.dag2, 0, 1⟩) := by decide

theorem witness_ExcludedTextsSpellNothing :
    assemble textV3_9 = .ok (.aluMemRead addC0 .ar .mx0 ⟨.dag2, 0, 1⟩) ∧ addText ∈ textV3_9 ∧
      Clause.read (.dreg .mx0) ⟨.dm, .postModify 4 5⟩ ∈ textV3_9 := by decide

/-- A text with two reads, the PM read first. -/
theorem witness_ExcludedTextsSpellNothing_dualRead :
    let t : Text := [addText, readPm .ay1 7 4, readDm .mx1 3 0]
    assemble t = .ok (.aluDualRead addC0 ⟨.mx1, 3, 0, .ay1, 3, 0⟩) ∧
      [readPm .ay1 7 4, readDm .mx1 3 0].Sublist t := by decide

/-- For each clause operands at the edge of its range, with and without a compute clause. -/
theorem witness_DualReadRefusalsAreNamed :
    computeOfText ⟨false, .reg .ar, .alu .add (opd .ax0) (opd .ay0)⟩ = .ok (.op (.alu addC0 .ar)) ∧
      ¬(((3 : Fin 8).val < 4) ↔ ((4 : Fin 8).val < 4)) ∧ ¬((4 : Fin 8).val < 4 ∧ 4 ≤ (3 : Fin 8).val) ∧
      ¬((3 : Fin 8).val < 4 ∧ 4 ≤ (3 : Fin 8).val) ∧ ((3 : Fin 8).val < 4 ∧ 4 ≤ (4 : Fin 8).val) ∧
      RegName.dreg .ay0 ∉ [RegName.dreg .ax0, .dreg .ax1, .dreg .mx0, .dreg .mx1] ∧
      shiftXOfText (opd .si) ≠ none ∧ aluXOfText (opd .ax0) ≠ none ∧ aluYOfText .zero ≠ none ∧
      macXOfText (opd .mx0) ≠ none ∧ macYOfText (opd .sr1) ≠ none ∧ ResultText.none ≠ .reg .ar ∧
      ResultText.reg .sr ≠ .reg .mr := by decide

theorem witness_OperandPairsOneGenerator :
    (((3 : Fin 8).val < 4) ↔ ((0 : Fin 8).val < 4)) ∧ (((4 : Fin 8).val < 4) ↔ ((7 : Fin 8).val < 4)) ∧
      ¬(((3 : Fin 8).val < 4) ↔ ((4 : Fin 8).val < 4)) := by decide

theorem witness_StepRunsTheDecodedInstruction :
    ws.text.holds ws.pc = true ∧ decode (ws.mem24 ws.pc) = .ok (.aluRegMove ⟨.sub, .ax0, .ay0⟩ .ar .ax0 .mr1) := by
  decide

theorem witness_StepStopsWithoutAnInstruction :
    ({ ws with pc := 0x0402 } : State).text.holds 0x0402 = false ∧ ({ ws with pc := 0x03FF } : State).text.holds 0x03FF = false ∧
      ws.text.holds 0x0401 = true ∧ decode (ws.mem24 0x0401) = .error .otherOpcode := by decide

theorem witness_PlacedWordRunsNext :
    decode (tableWord 24 0x2AE00C) = .ok (.aluRegMove ⟨.sub, .ax0, .ay0⟩ .ar .ax0 .mr1) ∧
      State.reset.text.holds State.reset.pc = false ∧ ws.text.holds ws.pc = true := by decide

theorem witness_DmBusReadDeliversByKind :
    ws.memKind 0 = .w16 ∧ ws.memKind 0x2000 = .w24 ∧ ws.memKind 0x2FFF = .w24 ∧ ws.memKind 0x3000 = .w16 ∧
      ws.memKind 0x7000 = .absent ∧ ws.memKind 0x10000 = .absent := by decide

theorem witness_PmBusReadDeliversByKind :
    ws.memKind 0xFFFF = .w16 ∧ ws.memKind 0x0400 = .w24 ∧ ws.memKind 0x7FFF = .absent := by decide

theorem witness_DmBusWriteStoresByKind :
    ws.memKind 0x1FFF = .w16 ∧ (∃ t, ws.dmBusWrite 0x1FFF 1 = some t) ∧
      ws.memKind 0x90FF = .w24 ∧ (∃ t, ws.dmBusWrite 0x90FF 1 = some t) := ⟨rfl, ⟨_, rfl⟩, rfl, ⟨_, rfl⟩⟩

theorem witness_LinearPostModifyWraps : ws.dag.l[(⟨.dag2, 3, 2⟩ : MemOperand).ireg] = 0 := by decide

/-- The last index of the buffer with the longest forward and the longest backward modifier, and a buffer that ends at
the top of the address range. -/
theorem witness_CircularPostModifyStaysInBuffer :
    (∀ m ∈ [(4 : Word), 0xFFFC, 0],
      (4 : Word) ≠ 0 ∧ (0x0100 : Word).toNat ≤ (0x0103 : Word).toNat ∧
        (0x0103 : Word).toNat < (0x0100 : Word).toNat + (4 : Word).toNat ∧
        (0x0100 : Word).toNat + (4 : Word).toNat ≤ 2 ^ 16 ∧ m.toInt.natAbs ≤ (4 : Word).toNat) ∧
      (0xFFFC : Word).toNat + (4 : Word).toNat ≤ 2 ^ 16 := by
  refine ⟨fun m hm => ?_, by simp⟩
  simp only [List.mem_cons, List.not_mem_nil, or_false] at hm
  rcases hm with rfl | rfl | rfl <;> simp [BitVec.toInt]

theorem witness_AluAdditionsResultAndFlags :
    ws.view.modes.arSat = false ∧ ws.view.modes.avLatch = false ∧ addC0.fn = .add := by decide

theorem witness_AluSubtractionsResultAndFlags :
    ws.view.modes.arSat = false ∧ ws.view.modes.avLatch = false ∧ (⟨.rsubB, .ax0, .ay0⟩ : AluClause).fn = .rsubB := by
  decide

theorem witness_AluOtherFunctionsResultAndFlags :
    ws.view.modes.arSat = false ∧ ws.view.modes.avLatch = false ∧ (⟨.absX, .ax0, .ay0⟩ : AluClause).fn = .absX := by
  decide

theorem witness_OverflowLatchIsSticky :
    ws.view.modes.arSat = false ∧
      let v : RegView := { ws.view with
        astat := { Astat.zero with av := true }, modes := { Modes.zero with avLatch := true, arSat := true } }
      v.modes.avLatch = true ∧ v.astat.av = true := by decide

theorem witness_MacResultAndOverflow : mulC0.fn.fmt ≠ .rnd ∧ mulC0.y ≠ .zero := by decide

theorem witness_ShiftResultIsScaledField :
    ShiftKind.ashift ≠ .norm ∧ ShiftKind.lshift ≠ .norm ∧ (39#8).toInt.natAbs < 40 ∧ (0xD9#8).toInt = -39 ∧
      ws.view.regs.se.toInt.natAbs < 40 := by decide

theorem witness_AluDualReadCompletes :
    ws.dmBusRead (ws.ea (rd 0 0).dm.ireg) = some 7 ∧ ws.pmBusRead (ws.ea (rd 0 0).pm.ireg) = some (9, 0) := by decide

theorem witness_MacDualReadCompletes :
    ws.dmBusRead (ws.ea (rd 0 1).dm.ireg) = some 7 ∧
      ws.pmBusRead (ws.ea (rd 0 1).pm.ireg) = some (0xABCD, 0xEF) := by decide

theorem witness_DualReadCompletes :
    ws.dmBusRead (ws.ea (rd 1 1).dm.ireg) = some 0x1234 ∧
      ws.pmBusRead (ws.ea (rd 1 1).pm.ireg) = some (0xABCD, 0xEF) := by decide

theorem witness_AluMemReadCompletes :
    ¬(AluDest.af = .ar ∧ Dreg.ar = .ar) ∧ ws.dmBusRead (ws.ea op00.ireg) = some 7 := by decide

theorem witness_MacMemReadCompletes :
    (MacDest.mr = .mr → Dreg.sr1 ∉ [Dreg.mr0, .mr1, .mr2]) ∧ (MacDest.mr = .sr → Dreg.sr1 ∉ [Dreg.sr0, .sr1, .sr2]) ∧
      ws.dmBusRead (ws.ea op00.ireg) = some 7 := by decide

theorem witness_ShiftMemReadCompletes :
    (ashiftC0.fn.dest = .sr → Dreg.si ∉ [Dreg.sr0, .sr1, .sr2]) ∧ ws.dmBusRead (ws.ea op00.ireg) = some 7 := by decide

/-- An address that holds no program text and has memory behind it: 16-bit through I0, 24-bit through I1. -/
theorem witness_AluMemWriteCompletes :
    ws.text.holds (ws.ea op00.ireg) = false ∧ ws.memKind (ws.ea op00.ireg) ≠ .absent ∧
      ws.text.holds (ws.ea (1 : Fin 8)) = false ∧ ws.memKind (ws.ea (1 : Fin 8)) = .w24 := by decide

theorem witness_MacMemWriteCompletes :
    ¬(MacDest.mr = .sr ∧ Dreg.sr2 = .sr2) ∧ ws.text.holds (ws.ea op00.ireg) = false ∧
      ws.memKind (ws.ea op00.ireg) ≠ .absent := by decide

theorem witness_ShiftMemWriteCompletes :
    ¬(ashiftC0.fn.dest = .sr ∧ Dreg.sr1 = .sr2) ∧ ws.text.holds (ws.ea op00.ireg) = false ∧
      ws.memKind (ws.ea op00.ireg) ≠ .absent := by decide

theorem witness_AluStatusOnlyCompletes :
    aluXOfText (opd .ax0) = some .ax0 ∧ aluYOfText .zero = some .zero := by decide

theorem witness_AluRegMoveCompletes :
    ¬(AluDest.af = .ar ∧ Dreg.ar = .ar) ∧ ¬(Dreg.ar = .ar ∧ Dreg.ax1 = .ar) := by decide

theorem witness_MacRegMoveCompletes :
    ¬(Dreg.my0 = .ar ∧ Dreg.ar = .ar) ∧ (MacDest.sr = .mr → Dreg.my0 ∉ [Dreg.mr0, .mr1, .mr2]) ∧
      (MacDest.sr = .sr → Dreg.my0 ∉ [Dreg.sr0, .sr1, .sr2]) ∧ ¬(MacDest.sr = .sr ∧ Dreg.ar = .sr2) := by decide

theorem witness_ShiftRegMoveCompletes :
    ¬(Dreg.si = .ar ∧ Dreg.mr0 = .ar) ∧ (ashiftC0.fn.dest = .sr → Dreg.si ∉ [Dreg.sr0, .sr1, .sr2]) ∧
      ¬(ashiftC0.fn.dest = .sr ∧ Dreg.mr0 = .sr2) := by decide

theorem witness_SameDestinationFaults :
    Dreg.mr2 ∈ [Dreg.mr0, .mr1, .mr2] ∧ Dreg.sr0 ∈ [Dreg.sr0, .sr1, .sr2] ∧ ashiftC0.fn.dest = .sr ∧ Dreg.ax1 ≠ .ar := by
  decide

theorem witness_Sr2SourceFaults : ashiftC0.fn.dest = .sr ∧ Dreg.ax0 ∉ [Dreg.sr0, .sr1, .sr2] := by decide

/-- No memory at the first (I2) and at the last (I6) address of the hole. -/
theorem witness_AccessWithoutMemoryFaults :
    (dualReadsIn (.dualRead (rd 2 0)) = some (rd 2 0) ∧ ws.memKind (ws.ea (rd 2 0).dm.ireg) = .absent) ∧
      (dualReadsIn (.dualRead (rd 0 2)) = some (rd 0 2) ∧ ws.memKind (ws.ea (rd 0 2).pm.ireg) = .absent) ∧
      loadIn (.aluMemRead addC0 .ar .ax0 ⟨.dag1, 2, 0⟩) = some (.ax0, ⟨.dag1, 2, 0⟩) ∧
      storeIn (.shiftMemWrite ashiftC0 .si ⟨.dag1, 2, 0⟩) = some (.si, ⟨.dag1, 2, 0⟩) ∧
      ws.memKind (ws.ea (⟨.dag1, 2, 0⟩ : MemOperand).ireg) = .absent ∧
      WellFormed (.aluMemRead addC0 .ar .ax0 ⟨.dag1, 2, 0⟩) := by decide

/-- The first (I3) and the last (I7) address of the program text. -/
theorem witness_StoreToProgramTextRefused :
    storeIn (.aluMemWrite addC0 .ar .ar ⟨.dag1, 3, 0⟩) = some (.ar, ⟨.dag1, 3, 0⟩) ∧
      WellFormed (.aluMemWrite addC0 .ar .ar ⟨.dag1, 3, 0⟩) ∧
      ws.text.holds (ws.ea (⟨.dag1, 3, 0⟩ : MemOperand).ireg) = true ∧
      ws.text.holds (ws.ea (⟨.dag2, 3, 0⟩ : MemOperand).ireg) = true := by decide

theorem witness_EveryInstructionAdvancesThePc : ∃ t, exec (.aluMemWrite addC0 .ar .ar op00) ws = .next t := ⟨_, rfl⟩

theorem witness_InstructionsChangeOnlyTheirFrame :
    (∃ t, exec (.dualRead (rd 0 1)) ws = .next t) ∧ resultRegIn (.dualRead (rd 0 1)) = none ∧
      (∃ t, exec (.aluStatusOnly addC0) ws = .next t) ∧ dualReadsIn (.aluStatusOnly addC0) = none :=
  ⟨⟨_, rfl⟩, rfl, ⟨_, rfl⟩, rfl⟩

theorem witness_PxChangesOnlyInDualReads :
    ((∃ t, exec (.aluMemRead addC0 .ar .ax0 op00) ws = .next t) ∧ dualReadsIn (.aluMemRead addC0 .ar .ax0 op00) = none) ∧
      (∃ t, exec (.aluDualRead addC0 (rd 0 1)) ws = .next t) ∧ dualReadsIn (.aluDualRead addC0 (rd 0 1)) = some (rd 0 1) :=
  ⟨⟨⟨_, rfl⟩, rfl⟩, ⟨_, rfl⟩, rfl⟩

/-- All four combinations of banks. -/
theorem witness_DualReadBankTable :
    (∀ a c : Fin 2, ∃ t, exec (.dualRead (rd ⟨a.val, by omega⟩ ⟨c.val, by omega⟩)) ws = .next t) ∧
      ws.memKind (ws.ea (rd 0 0).dm.ireg) = .w16 ∧ ws.memKind (ws.ea (rd 1 0).dm.ireg) = .w24 ∧
      ws.memKind (ws.ea (rd 0 0).pm.ireg) = .w16 ∧ ws.memKind (ws.ea (rd 0 1).pm.ireg) = .w24 := by
  refine ⟨fun a c => ?_, rfl, rfl, rfl, rfl⟩
  match a, c with
  | 0, 0 => exact ⟨_, rfl⟩
  | 0, 1 => exact ⟨_, rfl⟩
  | 1, 0 => exact ⟨_, rfl⟩
  | 1, 1 => exact ⟨_, rfl⟩

theorem witness_SingleReadBankTable :
    (∃ t, exec (.aluMemRead addC0 .ar .mr2 op00) ws = .next t) ∧ ws.memKind (ws.ea op00.ireg) = .w16 ∧
      (∃ t, exec (.aluMemRead addC0 .ar .mr2 ⟨.dag1, 1, 0⟩) ws = .next t) ∧ ws.memKind (ws.ea 1) = .w24 :=
  ⟨⟨_, rfl⟩, rfl, ⟨_, rfl⟩, rfl⟩

theorem witness_SingleWriteBankTable :
    (∃ t, exec (.aluMemWrite addC0 .ar .mr2 op00) ws = .next t) ∧ ws.memKind (ws.ea op00.ireg) = .w16 ∧
      (∃ t, exec (.aluMemWrite addC0 .ar .mr2 ⟨.dag1, 1, 0⟩) ws = .next t) ∧ ws.memKind (ws.ea 1) = .w24 :=
  ⟨⟨_, rfl⟩, rfl, ⟨_, rfl⟩, rfl⟩

/-- Other values in every DAG register that the load does not use. -/
theorem witness_OnlyOperandDagRegistersMatter :
    let i : Instr := .aluMemRead addC0 .ar .ax0 op00
    let d : DagRegs := { i := (z8.set 0 0x0100).set 1 9, m := (z8.set 0 1).set 7 9, l := z8.set 4 5, b := z8.set 4 6 }
    (∃ t, exec i ws = .next t) ∧
      ∀ o ∈ operandsIn i, d.i[o.ireg] = ws.dag.i[o.ireg] ∧ d.m[o.mreg] = ws.dag.m[o.mreg] ∧
        d.l[o.ireg] = ws.dag.l[o.ireg] ∧ d.b[o.ireg] = ws.dag.b[o.ireg] :=
  ⟨⟨_, rfl⟩, by decide⟩

/-- A configuration that differs from the machine's in every field: page 0, no change by `P_CIRC`, MR2 zero-extended
and left alone beside MR1, SR2 cleared beside SR1, the low byte of 24-bit memory kept, an interrupt at pc 0401, and every
result and flag zero. -/
def otherParams : Params where
  page _ _ := 0
  circ i _ _ _ := i
  dregFx :=
    { mr := ⟨fun b => b.zeroExtend 16, fun v => v.extractLsb' 8 8, fun _ b => b⟩
      sr := ⟨fun b => b.signExtend 16, fun v => v.extractLsb' 0 8, fun _ _ => 0⟩ }
  w24Low := .keep
  pxDm24 := true
  interrupt s := if s.pc = 0x0401 then some { s with pc := 0x0400 } else none
  compute op _ :=
    { result :=
        match op.dest with
        | .ar => .ar 0
        | .af => .af 0
        | .mr => .mr 0
        | .sr => .sr 0
        | .se => .se 0
        | .sb => .sb 0
      astat := .zero }

/-- R48 with `keep`, and R242: the low byte of 24-bit memory is as before, and an interrupt comes before the instruction. -/
theorem test_stepWith_uses_the_parameters :
    after (execWith otherParams (.aluMemWrite addC0 .ar .ax0 ⟨.dag1, 1, 3⟩) ws)
        (fun t => t.mem24 0x2000 == 0x000556#24) = true ∧
      after (stepWith otherParams { ws with pc := 0x0401 }) (fun t => t.pc == 0x0400 && t.comp.ax0 == 5) = true ∧
      after (stepWith otherParams ws) (fun t => t.pc == 0x0401 && t.comp.ax0 == 0x8001) = true := by decide

/-- Every parameter of the configuration reaches the step: the effect, MR2 left alone, the page, the circular post-modify. -/
theorem test_execWith_uses_the_parameters :
    after (execWith otherParams (.aluMemRead addC0 .ar .mr1 op00)
      { start { CompRegs.zero with ax0 := 2, ay0 := 3, mr2 := 0x5A } (z8.set 0 0x0100) (z8.set 0 1) (at16 0x0100 0x8001 [])
        with dmpg1 := 1, dagPrimary := { DagRegs.zero with i := z8.set 0 0x0100, m := z8.set 0 1, l := z8.set 0 4 } })
      (fun t => t.comp.ar == 0 && t.comp.mr1 == 0x8001 && t.comp.mr2 == 0x5A && t.dag.i[0] == 0x0100) = true := by decide

theorem otherParams_contract : otherParams.Contract := by
  intro op v
  show (match op.dest with
    | .ar => ResultWrite.ar 0
    | .af => .af 0
    | .mr => .mr 0
    | .sr => .sr 0
    | .se => .se 0
    | .sb => .sb 0).target = some op.dest
  cases op.dest <;> rfl

theorem witness_ComputeHoldsForEveryParameters :
    otherParams.interrupt { ws with pc := 0x0401 } = some ws ∧
      (otherParams.interrupt ws = none ∧ ws.text.holds ws.pc = true ∧
        decode (ws.mem24 ws.pc) = .ok (.aluRegMove ⟨.sub, .ax0, .ay0⟩ .ar .ax0 .mr1)) ∧
      otherParams.Contract ∧ (∃ t, execWith otherParams (.aluMemRead addC0 .ar .mr1 op00) ws = .next t) ∧
      WellFormed (.aluMemRead addC0 .ar .mr1 op00) ∧
      resultRegIn (.aluMemRead addC0 .ar .mr1 op00) = some (ComputeOp.alu addC0 .ar).dest ∧
      (∃ t, execWith otherParams (.dualRead (rd 0 1)) ws = .next t) ∧
      ∃ t, execWith otherParams (.aluStatusOnly addC0) ws = .next t :=
  ⟨rfl, ⟨rfl, by decide, by decide⟩, otherParams_contract, ⟨_, rfl⟩, by decide, rfl, ⟨_, rfl⟩, ⟨_, rfl⟩⟩

/-- One instruction of each form, under the other configuration and under the machine's own. -/
theorem witness_DataMoveHoldsForEveryParameters :
    params.Contract ∧ otherParams.Contract ∧
      ∀ P ∈ [params, otherParams], (∃ t, execWith P (.dualRead (rd 1 1)) ws = .next t) ∧
        (∃ t, execWith P (.aluMemRead addC0 .ar .mr2 op00) ws = .next t) ∧
        (∃ t, execWith P (.aluMemWrite addC0 .ar .mr2 ⟨.dag1, 1, 0⟩) ws = .next t) ∧
        ∃ t, execWith P (.aluRegMove addC0 .ar .sr1 .mr2) ws = .next t := by
  refine ⟨compute_target, otherParams_contract, fun P hP => ?_⟩
  simp only [List.mem_cons, List.not_mem_nil, or_false] at hP
  rcases hP with rfl | rfl <;> exact ⟨⟨_, rfl⟩, ⟨_, rfl⟩, ⟨_, rfl⟩, _, rfl⟩

/-- Two states that differ in memory, pc and PX. -/
theorem witness_ComputeIgnoresTheDataMove :
    (Instr.aluMemRead addC0 .ar .ax0 op00).computeOp = some (.alu addC0 .ar) ∧
      ws.view = ({ ws with mem := [], pc := 0, px := 1 } : State).view ∧
      (∃ t, exec (.aluMemRead addC0 .ar .ax0 op00) ws = .next t) ∧
      ∃ t, exec (.aluMemRead addC0 .ar .ax0 op00) { ws with mem := [], pc := 0, px := 1 } = .next t :=
  ⟨rfl, rfl, ⟨_, rfl⟩, ⟨_, rfl⟩⟩

theorem witness_DualReadsIgnoreTheCompute :
    dualReadsIn (.aluDualRead addC0 (rd 0 1)) = some (rd 0 1) ∧ dualReadsIn (.dualRead (rd 0 1)) = some (rd 0 1) ∧
      (∃ t, exec (.aluDualRead addC0 (rd 0 1)) ws = .next t) ∧ ∃ t, exec (.dualRead (rd 0 1)) ws = .next t :=
  ⟨rfl, rfl, ⟨_, rfl⟩, ⟨_, rfl⟩⟩

/-- A store through I1 with modifier 0 and a load through I1 again: the same address, in 24-bit memory. -/
theorem witness_StoredValueIsLoadedBack :
    ∃ t, exec (.aluMemWrite addC0 .ar .mr1 ⟨.dag1, 1, 3⟩) ws = .next t ∧
      (∃ u, exec (.aluMemRead addC0 .ar .ax0 ⟨.dag1, 1, 3⟩) t = .next u) ∧
      t.ea (⟨.dag1, 1, 3⟩ : MemOperand).ireg = ws.ea (⟨.dag1, 1, 3⟩ : MemOperand).ireg := ⟨_, rfl, ⟨_, rfl⟩, rfl⟩

theorem witness_StepKeepsTheInvariant : ws.Inv ∧ ∃ t, step ws = .next t :=
  ⟨⟨by decide, by decide⟩, ⟨_, rfl⟩⟩

/-- A program text of one word, `DM(I0 += M0) = AR, AR = AX0 + AY0`, that stores just past itself. -/
theorem witness_ProgramTextIsImmutable :
    ∃ t, step (({ ws with text := ⟨0x00FF, 1⟩, pc := 0x00FF } : State).withFetchWord 24 0x6A60A0) = .next t := ⟨_, rfl⟩

theorem witness_CycleTables :
    dualReadsIn (.dualRead (rd 0 0)) = some (rd 0 0) ∧ loadIn (.aluMemRead addC0 .ar .ax0 op00) = some (.ax0, op00) ∧
      dualReadsIn (.aluStatusOnly addC0) = none ∧ loadIn (.aluStatusOnly addC0) = none ∧
      storeIn (.aluStatusOnly addC0) = none := by decide

end Sys2Proof.Tests
end

/-!
Proofs of the statements on the DAG registers: which pairs of an index and a modify register are a memory operand (R20),
and which of the DAG registers an instruction reads and writes (R21).
-/

namespace Sys2Proof.Machine

open Sys2Proof

/-! ## The operand a text names (R20) -/

theorem dag1_num_withinDag {i : Fin 8} (h : i.val < 4) : Dag.dag1.num (withinDag i) = i :=
  Fin.ext (Nat.mod_eq_of_lt h)

theorem dag2_num_withinDag {i : Fin 8} (h : 4 ≤ i.val) : Dag.dag2.num (withinDag i) = i :=
  Fin.ext (show i.val % 4 + 4 = i.val by omega)

theorem operandOfText_dag1 {i m : Fin 8} (hi : i.val < 4) (hm : m.val < 4) :
    operandOfText (.postModify i m) = .ok ⟨.dag1, withinDag i, withinDag m⟩ :=
  if_pos ⟨hi, hm⟩

theorem operandOfText_dag2 {i m : Fin 8} (hi : 4 ≤ i.val) (hm : 4 ≤ m.val) :
    operandOfText (.postModify i m) = .ok ⟨.dag2, withinDag i, withinDag m⟩ :=
  (if_neg (by omega)).trans (if_pos ⟨hi, hm⟩)

theorem operandOfText_crossed {i m : Fin 8} (h : ¬(i.val < 4 ↔ m.val < 4)) :
    operandOfText (.postModify i m) = .error (.refused .dagPairing) :=
  (if_neg (by omega)).trans (if_neg (by omega))

/-- Settles O10: a pair is within DAG1, within DAG2, or crosses them. -/
theorem operandPairsOneGenerator : Obligations.OperandPairsOneGenerator := by
  refine fun i m => ⟨fun h => ?_, operandOfText_crossed⟩
  by_cases hi : i.val < 4
  · have hm : m.val < 4 := h.1 hi
    exact ⟨_, operandOfText_dag1 hi hm, dag1_num_withinDag hi, dag1_num_withinDag hm⟩
  · have hi' : 4 ≤ i.val := Nat.le_of_not_lt hi
    have hm : 4 ≤ m.val := Nat.le_of_not_lt fun hm => hi (h.2 hm)
    exact ⟨_, operandOfText_dag2 hi' hm, dag2_num_withinDag hi', dag2_num_withinDag hm⟩

/-! ## The post-modifies of an instruction

The idea of R21's proof: from `s` with other active DAG registers `d` that agree with `s` on an instruction's operands,
the instruction goes the same way, and leaves `d` after the post-modifies it makes in `s` (`exec_setDag`). With the
registers of `s` itself for `d`, this says what the instruction leaves in the DAG registers. -/

/-- `d` holds the values of the active DAG registers of `s` in the registers that an operand names. -/
def State.AgreesOn (s : State) (d : DagRegs) (o : MemOperand) : Prop :=
  d.i[o.ireg] = s.dag.i[o.ireg] ∧ d.m[o.mreg] = s.dag.m[o.mreg] ∧ d.l[o.ireg] = s.dag.l[o.ireg] ∧
    d.b[o.ireg] = s.dag.b[o.ireg]

/-- DAG registers after the post-modifies of a list of operands, with the values `s` gives them (R110). -/
def State.postModify (s : State) : List MemOperand → DagRegs → DagRegs
  | [], d => d
  | o :: os, d => s.postModify os { d with i := d.i.set o.ireg (s.nextIndex o) }

@[simp] theorem postModify_m (s : State) (os : List MemOperand) (d : DagRegs) : (s.postModify os d).m = d.m := by
  induction os generalizing d with
  | nil => rfl
  | cons o os ih => exact ih _

@[simp] theorem postModify_l (s : State) (os : List MemOperand) (d : DagRegs) : (s.postModify os d).l = d.l := by
  induction os generalizing d with
  | nil => rfl
  | cons o os ih => exact ih _

@[simp] theorem postModify_b (s : State) (os : List MemOperand) (d : DagRegs) : (s.postModify os d).b = d.b := by
  induction os generalizing d with
  | nil => rfl
  | cons o os ih => exact ih _

/-- An index register of no operand is not modified. -/
theorem postModify_i_of_not_mem (s : State) {os : List MemOperand} {j : Fin 8} (h : j ∉ os.map MemOperand.ireg)
    (d : DagRegs) : (s.postModify os d).i[j] = d.i[j] := by
  induction os generalizing d with
  | nil => rfl
  | cons o os ih =>
    simp only [List.map_cons, List.mem_cons, not_or] at h
    obtain ⟨hne, hnot⟩ := h
    have hset : (d.i.set o.ireg (s.nextIndex o))[j] = d.i[j] :=
      Vector.getElem_set_ne _ _ fun he => hne (Fin.ext he.symm)
    exact (ih hnot _).trans hset

/-- What an index register of an operand is modified to does not depend on the registers modified. -/
theorem postModify_i_of_mem (s : State) {os : List MemOperand} {j : Fin 8} (h : j ∈ os.map MemOperand.ireg)
    (d d' : DagRegs) : (s.postModify os d).i[j] = (s.postModify os d').i[j] := by
  induction os generalizing d d' with
  | nil => cases h
  | cons o os ih =>
    by_cases hj : j ∈ os.map MemOperand.ireg
    · exact ih hj _ _
    · obtain rfl : j = o.ireg := (List.mem_cons.1 h).resolve_right hj
      simp [State.postModify, postModify_i_of_not_mem s hj]

/-! ## What replacing the active DAG registers leaves alone -/

@[simp] theorem memKind_setDag (s : State) (d : DagRegs) (a : Addr) : (s.setDag d).memKind a = s.memKind a :=
  memKind_congr (setDag_memMap s d) (setDag_text s d) a

@[simp] theorem lane_setDag (s : State) (d : DagRegs) (a : Addr) (k : Nat) : (s.setDag d).lane a k = s.lane a k :=
  byte_congr (setDag_mem s d) _

@[simp] theorem dmBusRead_setDag (s : State) (d : DagRegs) (a : Addr) : (s.setDag d).dmBusRead a = s.dmBusRead a := by
  simp only [State.dmBusRead, State.mem16, State.high24, memKind_setDag, lane_setDag]

@[simp] theorem pmBusRead_setDag (s : State) (d : DagRegs) (a : Addr) : (s.setDag d).pmBusRead a = s.pmBusRead a := by
  simp only [State.pmBusRead, State.mem16, State.high24, State.low24, memKind_setDag, lane_setDag]

@[simp] theorem dregRead_setDag (s : State) (d : DagRegs) (r : Dreg) (P : Params) :
    (s.setDag d).dregRead r P = s.dregRead r P := by
  simp only [State.dregRead, setDag_comp]

/-- The last two writes of a single access, after other active DAG registers. -/
theorem setDag_setI_advance (s : State) (d : DagRegs) (i : Fin 8) (v : Word) :
    ((s.setDag d).setI i v).advance = (s.setI i v).advance.setDag { d with i := d.i.set i v } := by
  rw [setDag_setI, setDag_advance, State.setI, setDag_advance, setDag_setDag]

/-! ## Each form from other active DAG registers -/

section
variable {s t : State} {d : DagRegs}

theorem ea_of_agreesOn {o : MemOperand} (h : s.AgreesOn d o) : (s.setDag d).ea o.ireg = s.ea o.ireg := by
  obtain ⟨hi, -⟩ := h
  exact ea_setDag s d o.ireg hi

theorem nextIndex_of_agreesOn {o : MemOperand} (h : s.AgreesOn d o) : (s.setDag d).nextIndex o = s.nextIndex o := by
  obtain ⟨hi, hm, hl, hb⟩ := h
  exact nextIndex_setDag s d o params hi hm hl hb

theorem dualFetch_setDag {r : DualReads} (hdm : s.AgreesOn d r.dm) (hpm : s.AgreesOn d r.pm) :
    (s.setDag d).dualFetch r params = s.dualFetch r params := by
  simp only [State.dualFetch, ea_of_agreesOn hdm, ea_of_agreesOn hpm, nextIndex_of_agreesOn hdm,
    nextIndex_of_agreesOn hpm, dmBusRead_setDag, pmBusRead_setDag, memKind_setDag]

theorem dualReadForm_setDag (effect : RegView → ComputeEffect) {r : DualReads}
    (h : dualReadForm (effect s.view) r s params = .next t) (ha : ∀ o ∈ [r.dm, r.pm], s.AgreesOn d o) :
    dualReadForm (effect (s.setDag d).view) r (s.setDag d) params =
      .next (t.setDag (s.postModify [r.dm, r.pm] d)) := by
  obtain ⟨f, hf, rfl⟩ := dualReadForm_eq_next h
  have hf' : (s.setDag d).dualFetch r params = some f :=
    (dualFetch_setDag (ha _ (by simp)) (ha _ (by simp))).trans hf
  obtain ⟨vD, vP, p, -, -, rfl⟩ := dualFetch_eq_some hf
  simp only [dualReadForm, hf', view_setDag, setDag_commit, dualWrite_setDag, setDag_advance, State.postModify]

theorem memReadForm_setDag {op : ComputeOp} {dst : Dreg} {o : MemOperand}
    (h : memReadForm op (params.compute op s.view) dst o s params = .next t) (ha : ∀ o' ∈ [o], s.AgreesOn d o') :
    memReadForm op (params.compute op (s.setDag d).view) dst o (s.setDag d) params =
      .next (t.setDag (s.postModify [o] d)) := by
  obtain ⟨hdest, v, hv, rfl⟩ := memReadForm_eq_next h
  have ho : s.AgreesOn d o := ha o (by simp)
  simp [memReadForm, hdest, ea_of_agreesOn ho, nextIndex_of_agreesOn ho, hv, view_setDag, setDag_commit,
    setDag_dregWrite, setDag_setI_advance, State.postModify]

theorem memWriteForm_setDag {op : ComputeOp} {src : Dreg} {o : MemOperand}
    (h : memWriteForm op (params.compute op s.view) src o s params = .next t) (ha : ∀ o' ∈ [o], s.AgreesOn d o') :
    memWriteForm op (params.compute op (s.setDag d).view) src o (s.setDag d) params =
      .next (t.setDag (s.postModify [o] d)) := by
  obtain ⟨hsrc, htext, s', hs', rfl⟩ := memWriteForm_eq_next h
  have ho : s.AgreesOn d o := ha o (by simp)
  have hwrite : (s.setDag d).dmBusWrite (s.ea o.ireg) (s.dregRead src) params.w24Low = some (s'.setDag d) := by
    rw [dmBusWrite_setDag, hs', Option.map_some]
  simp [-params_w24Low, memWriteForm, hsrc, htext, ea_of_agreesOn ho, nextIndex_of_agreesOn ho, hwrite, view_setDag,
    setDag_commit, setDag_setI_advance, State.postModify]

theorem regMoveForm_setDag {op : ComputeOp} {d1 d2 : Dreg}
    (h : regMoveForm op (params.compute op s.view) d1 d2 s params = .next t) :
    regMoveForm op (params.compute op (s.setDag d).view) d1 d2 (s.setDag d) params = .next (t.setDag d) := by
  obtain ⟨hdest, hsrc, rfl⟩ := regMoveForm_eq_next h
  simp [regMoveForm, hdest, hsrc, view_setDag, setDag_commit, setDag_dregWrite, setDag_advance]

theorem nonAluMoveForm_setDag {op : ComputeOp} {d1 d2 : Dreg}
    (h : nonAluMoveForm op (params.compute op s.view) d1 d2 s params = .next t) :
    nonAluMoveForm op (params.compute op (s.setDag d).view) d1 d2 (s.setDag d) params = .next (t.setDag d) := by
  obtain ⟨hmove, hform⟩ := nonAluMoveForm_eq_next h
  exact (if_neg hmove).trans (regMoveForm_setDag hform)

theorem statusOnlyForm_setDag {op : ComputeOp} (h : statusOnlyForm (params.compute op s.view) s = .next t) :
    statusOnlyForm (params.compute op (s.setDag d).view) (s.setDag d) = .next (t.setDag d) := by
  obtain rfl := Host.Outcome.next.inj h
  simp only [statusOnlyForm, view_setDag, setDag_commit, setDag_advance]

theorem execAluRegMove_setDag {c : AluClause} {z : AluDest} {d1 d2 : Dreg} (h : execAluRegMove c z d1 d2 s = .next t) :
    execAluRegMove c z d1 d2 (s.setDag d) = .next (t.setDag d) := by
  unfold execAluRegMove at h ⊢
  by_cases hmove : d1 = .ar ∧ d2 = .ar
  · rw [if_pos hmove] at h ⊢
    cases z with
    | ar => exact statusOnlyForm_setDag h
    | af => cases h
  · rw [if_neg hmove] at h ⊢
    exact regMoveForm_setDag h

/-- From other active DAG registers that agree on the operands, an instruction answers the same state but for them, and
leaves them after the post-modifies it makes in `s` (R21). -/
theorem exec_setDag {i : Instr} (h : exec i s = .next t) (ha : ∀ o ∈ operandsIn i, s.AgreesOn d o) :
    exec i (s.setDag d) = .next (t.setDag (s.postModify (operandsIn i) d)) := by
  cases i with
  | aluDualRead c r => exact dualReadForm_setDag (params.compute (.alu c .ar)) h ha
  | macDualRead c r => exact dualReadForm_setDag (params.compute (.mac c .mr)) h ha
  | dualRead r => exact dualReadForm_setDag noCompute h ha
  | aluMemRead c z dst o => exact memReadForm_setDag h ha
  | macMemRead c z dst o => exact memReadForm_setDag h ha
  | shiftMemRead c dst o => exact memReadForm_setDag h ha
  | aluMemWrite c z src o => exact memWriteForm_setDag h ha
  | macMemWrite c z src o => exact memWriteForm_setDag h ha
  | shiftMemWrite c src o => exact memWriteForm_setDag h ha
  | aluStatusOnly c => exact statusOnlyForm_setDag h
  | aluRegMove c z d1 d2 => exact execAluRegMove_setDag h
  | macRegMove c z d1 d2 => exact nonAluMoveForm_setDag h
  | shiftRegMove c d1 d2 => exact nonAluMoveForm_setDag h

/-- The active DAG registers after an instruction: those before it, after the post-modifies of its operands (R21). -/
theorem exec_dag {i : Instr} (h : exec i s = .next t) : t.dag = s.postModify (operandsIn i) s.dag := by
  have hself : exec i s = .next (t.setDag (s.postModify (operandsIn i) s.dag)) := by
    simpa only [setDag_dag_self] using exec_setDag (d := s.dag) h fun o _ => ⟨rfl, rfl, rfl, rfl⟩
  have ht : t = t.setDag (s.postModify (operandsIn i) s.dag) := Host.Outcome.next.inj (h.symm.trans hself)
  exact (congrArg State.dag ht).trans (setDag_dag t _)

end

/-- Settles O51: an instruction leaves the active DAG registers it started from after the post-modifies of its operands,
whose values depend on no other DAG register. -/
theorem onlyOperandDagRegistersMatter : Obligations.OnlyOperandDagRegistersMatter := by
  intro i s t d h
  have hdag := exec_dag h
  refine ⟨by simp [hdag], by simp [hdag], by simp [hdag], fun j hj => ?_, fun ha => ?_⟩
  · rw [hdag]
    exact postModify_i_of_not_mem s hj s.dag
  · refine ⟨_, exec_setDag h ha, by simp, fun j hj => ?_⟩
    rw [setDag_dag, hdag]
    exact postModify_i_of_mem s hj d s.dag

end Sys2Proof.Machine

/-!
Proof of the statement on the order of clauses: every permutation of a text spells the same instruction, and the text of
a well-formed instruction in the canonical order spells that instruction (R72).
-/

namespace Sys2Proof.Machine

open Sys2Proof

/-! ## A permutation of a text

`assemble` looks at a text through the lists of its clauses of each kind. A permutation of the text permutes these four
lists. Where a text spells an instruction, only the reads can be two clauses, and these spell the same either way. -/

/-- The order of two reads does not matter: their spelling, `DM` or `PM`, says which is which (R72, R45). -/
theorem readsOfText_comm (r1 r2 : RegName × MemText) : readsOfText r1 r2 = readsOfText r2 r1 := by
  unfold readsOfText
  cases r1.2.spelling <;> cases r2.2.spelling <;> rfl

/-- How many clauses of each kind a text that spells an instruction has at most (R71, R73 to R77). -/
theorem clauseCounts_of_assemble {t : Text} {i : Instr} (h : assemble t = .ok i) :
    (computesOf t).length ≤ 1 ∧ (readsOf t).length ≤ 2 ∧ (writesOf t).length ≤ 1 ∧ (movesOf t).length ≤ 1 := by
  unfold assemble at h
  split at h
  case h_7 => cases h
  all_goals simp [*]

/-- A text spells what another one spells that has the same clauses of each kind, in the same order within the kind. -/
theorem assemble_congr {t t' : Text} (hc : computesOf t' = computesOf t) (hr : readsOf t' = readsOf t)
    (hw : writesOf t' = writesOf t) (hv : movesOf t' = movesOf t) : assemble t' = assemble t := by
  simp only [assemble, hc, hr, hw, hv]

/-- Two reads written in the other order make no difference to what a text spells. -/
theorem assemble_swap_reads {t t' : Text} {r1 r2 : RegName × MemText} (hc : computesOf t' = computesOf t)
    (hr : readsOf t = [r1, r2]) (hr' : readsOf t' = [r2, r1]) (hw : writesOf t' = writesOf t)
    (hv : movesOf t' = movesOf t) : assemble t' = assemble t := by
  unfold assemble
  rw [hc, hr, hr', hw, hv]
  match computesOf t, writesOf t, movesOf t with
  | [], [], [] | [_], [], [] => simp only [readsOfText_comm r2 r1]
  | [], _ :: _, _ | [], [], _ :: _ => rfl
  | [_], _ :: _, _ | [_], [], _ :: _ => rfl
  | _ :: _ :: _, _, _ => rfl

theorem eq_of_perm_of_length_le_one {α : Type} {l l' : List α} (hp : l.Perm l') (h : l.length ≤ 1) : l' = l := by
  match l, h with
  | [], _ => exact List.nil_perm.1 hp
  | [_], _ => exact (List.singleton_perm.1 hp).symm

theorem eq_or_swap_of_perm_of_length_le_two {α : Type} {l l' : List α} (hp : l.Perm l') (h : l.length ≤ 2) :
    l' = l ∨ ∃ a b, l = [a, b] ∧ l' = [b, a] := by
  match l, h with
  | [], _ => exact .inl (List.nil_perm.1 hp)
  | [_], _ => exact .inl (List.singleton_perm.1 hp).symm
  | [a, b], _ => exact (List.pair_perm.1 hp).imp_right fun hl => ⟨a, b, rfl, hl⟩

/-- R72: every permutation of the clauses of a text that spells an instruction spells the same instruction. -/
theorem assemble_perm {t t' : Text} {i : Instr} (hp : t.Perm t') (h : assemble t = .ok i) : assemble t' = .ok i := by
  obtain ⟨nc, nr, nw, nv⟩ := clauseCounts_of_assemble h
  have hc : computesOf t' = computesOf t := eq_of_perm_of_length_le_one (hp.filterMap _) nc
  have hw : writesOf t' = writesOf t := eq_of_perm_of_length_le_one (hp.filterMap _) nw
  have hv : movesOf t' = movesOf t := eq_of_perm_of_length_le_one (hp.filterMap _) nv
  have hreads : (readsOf t).Perm (readsOf t') := hp.filterMap _
  obtain hr | ⟨r1, r2, hr, hr'⟩ := eq_or_swap_of_perm_of_length_le_two hreads nr
  · exact (assemble_congr hc hr hw hv).trans h
  · exact (assemble_swap_reads hc hr hr' hw hv).trans h

/-! ## Reading back the parts of a canonical text -/

@[simp] theorem aluXOfText_toText (x : AluX) : aluXOfText (AluX.toText x) = some x := by cases x <;> rfl
@[simp] theorem aluYOfText_toText (y : AluY) : aluYOfText (AluY.toText y) = some y := by cases y <;> rfl
@[simp] theorem macXOfText_toText (x : MacX) : macXOfText (MacX.toText x) = some x := by cases x <;> rfl
@[simp] theorem macYOfText_toText (y : MacY) : macYOfText (MacY.toText y) = some y := by cases y <;> rfl
@[simp] theorem shiftXOfText_toText (x : ShiftX) : shiftXOfText (ShiftX.toText x) = some x := by cases x <;> rfl
@[simp] theorem dregXOfText_toDreg (x : DregX) : dregXOfText (.dreg x.toDreg) = some x := by cases x <;> rfl
@[simp] theorem dregYOfText_toDreg (y : DregY) : dregYOfText (.dreg y.toDreg) = some y := by cases y <;> rfl

/-- The clause of a compute operation is a compute clause that spells the operation (R78). -/
theorem clauseOfOp_spells (o : ComputeOp) : ∃ c, clauseOfOp o = .compute c ∧ computeOfText c = .ok (.op o) := by
  refine ⟨_, rfl, ?_⟩
  cases o with
  | alu c z => cases z <;> simp [computeOfText, aluOfText, ComputeOp.dest]
  | mac c z => cases z <;> simp [computeOfText, macOfText, ComputeOp.dest]
  | shift c => simp [computeOfText, shiftOfText, ComputeOp.dest]

@[simp] theorem withinDag_num (g : Dag) (k : Fin 4) : withinDag (g.num k) = k := by
  apply Fin.ext
  cases g <;> simp [withinDag, Dag.num]

/-- The registers of a memory operand name that operand (R19, R20). -/
@[simp] theorem operandOfText_postModify (o : MemOperand) : operandOfText (.postModify o.ireg o.mreg) = .ok o := by
  obtain ⟨g, i, m⟩ := o
  cases g with
  | dag1 =>
    have h := operandOfText_dag1 (i := Dag.dag1.num i) (m := Dag.dag1.num m) i.isLt m.isLt
    rwa [withinDag_num, withinDag_num] at h
  | dag2 =>
    have h := operandOfText_dag2 (i := Dag.dag2.num i) (m := Dag.dag2.num m) (Nat.le_add_left ..) (Nat.le_add_left ..)
    rwa [withinDag_num, withinDag_num] at h

/-- The two reads of a dual-read form, the DM read first, spell that form (R45). -/
theorem readsOfText_dual (d : DualReads) :
    readsOfText (.dreg d.dx.toDreg, memToText .dm d.dm) (.dreg d.dy.toDreg, memToText .pm d.pm) = .ok d := by
  simp [readsOfText, dualOfText, memToText, DualReads.dm, DualReads.pm]

/-! ## Each form of the canonical text (R73 to R77)

Beside a compute clause, each form spells what the form's own reading of the operation is, if that passes the checks. -/

theorem assemble_reads (d : DualReads) : assemble (dualToText d) = .ok (.dualRead d) := by
  show readsOfText (.dreg d.dx.toDreg, memToText .dm d.dm) (.dreg d.dy.toDreg, memToText .pm d.pm) >>=
    (fun d' => checked (.dualRead d')) = _
  rw [readsOfText_dual]
  rfl

theorem assemble_compute_reads (o : ComputeOp) (d : DualReads) :
    assemble (clauseOfOp o :: dualToText d) = dualReadOfText (.op o) d >>= checked := by
  obtain ⟨c, hc, ho⟩ := clauseOfOp_spells o
  rw [hc]
  show (do
    let o' ← computeOfText c
    let d' ← readsOfText (.dreg d.dx.toDreg, memToText .dm d.dm) (.dreg d.dy.toDreg, memToText .pm d.pm)
    dualReadOfText o' d' >>= checked) = _
  rw [ho, readsOfText_dual]
  rfl

theorem assemble_compute_read (o : ComputeOp) (dst : Dreg) (sp : Spelling) (m : MemOperand) :
    assemble [clauseOfOp o, .read (.dreg dst) (memToText sp m)] = memReadOfText (.op o) dst m >>= checked := by
  obtain ⟨c, hc, ho⟩ := clauseOfOp_spells o
  rw [hc]
  show (do
    let o' ← computeOfText c
    let m' ← operandOfText (.postModify m.ireg m.mreg)
    memReadOfText o' dst m' >>= checked) = _
  rw [ho, operandOfText_postModify]
  rfl

theorem assemble_write_compute (o : ComputeOp) (src : Dreg) (sp : Spelling) (m : MemOperand) :
    assemble [.write (memToText sp m) (.dreg src), clauseOfOp o] = memWriteOfText (.op o) src m >>= checked := by
  obtain ⟨c, hc, ho⟩ := clauseOfOp_spells o
  rw [hc]
  show (do
    let o' ← computeOfText c
    let m' ← operandOfText (.postModify m.ireg m.mreg)
    memWriteOfText o' src m' >>= checked) = _
  rw [ho, operandOfText_postModify]
  rfl

theorem assemble_compute_move (o : ComputeOp) (d1 d2 : Dreg) :
    assemble [clauseOfOp o, .move (.dreg d1) (.dreg d2)] = regMoveOfText (.op o) d1 d2 >>= checked := by
  obtain ⟨c, hc, ho⟩ := clauseOfOp_spells o
  rw [hc]
  show computeOfText c >>= (fun o' => regMoveOfText o' d1 d2 >>= checked) = _
  rw [ho]
  rfl

/-! ## The canonical text of an instruction -/

/-- A well-formed instruction passes the checks. -/
theorem checked_of_wellFormed {i : Instr} (h : WellFormed i) : checked i = .ok i := by
  simp only [checked, h]

/-- A well-formed ALU_REG_MOVE with result AR does not move `AR = AR`, which would spell ALU_STATUS_ONLY (R184). -/
theorem regMoveOfText_alu {c : AluClause} {z : AluDest} {d1 d2 : Dreg} (h : WellFormed (.aluRegMove c z d1 d2)) :
    regMoveOfText (.op (.alu c z)) d1 d2 = .ok (.aluRegMove c z d1 d2) := by
  cases z with
  | ar =>
    have hmove : ¬(d1 = .ar ∧ d2 = .ar) := by
      rintro ⟨rfl, rfl⟩
      cases h
    exact if_neg hmove
  | af => rfl

/-- R72: the text of a well-formed instruction in the canonical order spells that instruction. -/
theorem assemble_disassemble {i : Instr} (h : WellFormed i) : assemble (disassemble i) = .ok i := by
  have hi : checked i = .ok i := checked_of_wellFormed h
  cases i with
  | aluDualRead c d => exact (assemble_compute_reads (.alu c .ar) d).trans hi
  | macDualRead c d => exact (assemble_compute_reads (.mac c .mr) d).trans hi
  | dualRead d => exact assemble_reads d
  | aluMemRead c z dst o => exact (assemble_compute_read (.alu c z) dst .dm o).trans hi
  | macMemRead c z dst o => exact (assemble_compute_read (.mac c z) dst .dm o).trans hi
  | shiftMemRead c dst o => exact (assemble_compute_read (.shift c) dst .dm o).trans hi
  | aluMemWrite c z src o => exact (assemble_write_compute (.alu c z) src .dm o).trans hi
  | macMemWrite c z src o => exact (assemble_write_compute (.mac c z) src .dm o).trans hi
  | shiftMemWrite c src o => exact (assemble_write_compute (.shift c) src .dm o).trans hi
  | aluStatusOnly c => exact (assemble_compute_move (.alu c .ar) .ar .ar).trans hi
  | aluRegMove c z d1 d2 =>
    rw [disassemble, assemble_compute_move, regMoveOfText_alu h]
    exact hi
  | macRegMove c z d1 d2 => exact (assemble_compute_move (.mac c z) d1 d2).trans hi
  | shiftRegMove c d1 d2 => exact (assemble_compute_move (.shift c) d1 d2).trans hi

/-- Settles O6: a permutation changes nothing within a kind of clause but the order of two reads, and each form of the
canonical text is read back part by part. -/
theorem clauseOrderDoesNotMatter : Obligations.ClauseOrderDoesNotMatter :=
  ⟨fun _ _ _ => assemble_perm, fun _ => assemble_disassemble⟩

end Sys2Proof.Machine

/-!
Proofs of the two statements about every instruction: its frame (R118), and that it advances the pc and does not read it
(R119).
-/

namespace Sys2Proof.Machine

open Sys2Proof

/-! ## The state after an instruction -/

section
variable {P : Params} {i : Instr} {s s' t : State}

/-- The writes an instruction has made when it answers a next state, in their order: a store, the compute effect, the
data moves, the index registers, the pc (R120). What a move or a post-modify writes is left open. -/
theorem execWith_writes (h : execWith P i s = .next t) :
    (∃ d f, dualReadsIn i = some d ∧ t = ((s.commit (effectOf i s.view P)).dualWrite d f P).advance) ∨
    (∃ op dst o v x, i.computeOp = some op ∧ loadIn i = some (dst, o) ∧
      t = (((s.commit (effectOf i s.view P)).dregWrite dst v P).setI o.ireg x).advance) ∨
    (∃ op src o v s' x, i.computeOp = some op ∧ storeIn i = some (src, o) ∧
      s.dmBusWrite (s.ea o.ireg P) v P.w24Low = some s' ∧
      t = ((s'.commit (effectOf i s.view P)).setI o.ireg x).advance) ∨
    (∃ op d1 d2 v, i.computeOp = some op ∧ moveIn i = some (d1, d2) ∧
      t = ((s.commit (effectOf i s.view P)).dregWrite d1 v P).advance) ∨
    t = (s.commit (statusOnly (effectOf i s.view P))).advance := by
  have heffect {op : ComputeOp} (hop : i.computeOp = some op) : P.compute op s.view = effectOf i s.view P := by
    simp only [effectOf, hop]
  obtain ⟨d, hd, h⟩ | ⟨op, dst, o, hop, hi, h⟩ | ⟨op, src, o, hop, hi, h⟩ | ⟨op, d1, d2, hop, hi, -, -, -, h⟩ |
    ⟨c, hop, -, -, -, -, h⟩ := execWith_eq_next h
  · obtain ⟨f, -, ht⟩ := dualReadForm_eq_next h
    exact .inl ⟨d, f, hd, ht⟩
  · obtain ⟨-, v, -, ht⟩ := memReadForm_eq_next h
    exact .inr (.inl ⟨op, dst, o, v, _, hop, hi, heffect hop ▸ ht⟩)
  · obtain ⟨-, -, s', hs', ht⟩ := memWriteForm_eq_next h
    exact .inr (.inr (.inl ⟨op, src, o, _, s', _, hop, hi, hs', heffect hop ▸ ht⟩))
  · obtain ⟨-, -, ht⟩ := regMoveForm_eq_next h
    exact .inr (.inr (.inr (.inl ⟨op, d1, d2, _, hop, hi, heffect hop ▸ ht⟩)))
  · exact .inr (.inr (.inr (.inr (heffect hop ▸ (Host.Outcome.next.inj h).symm))))

/-- A DM-bus write leaves alone everything but memory and the count of draws. -/
theorem dmBusWrite_frame {a : Addr} {v : Word} {low : W24Low} (h : s.dmBusWrite a v low = some s') :
    s'.comp = s.comp ∧ s'.compOther = s.compOther ∧ s'.dag = s.dag ∧ s'.dagOther = s.dagOther ∧ s'.px = s.px ∧
      s'.modes = s.modes ∧ s'.dmpg1 = s.dmpg1 ∧ s'.dmpg2 = s.dmpg2 ∧ s'.pc = s.pc ∧ s'.memMap = s.memMap ∧
      s'.text = s.text := by
  obtain ⟨-, rfl⟩ | ⟨-, rfl⟩ := dmBusWrite_eq_some h
  · exact ⟨rfl, rfl, rfl, rfl, rfl, rfl, rfl, rfl, rfl, rfl, rfl⟩
  · exact ⟨rfl, rfl, rfl, rfl, rfl, rfl, rfl, rfl, rfl, rfl, rfl⟩

/-- A DM-bus write writes bytes of the addressed location only (R48). -/
theorem byte_dmBusWrite_of_not_mem {a : Addr} {v : Word} {low : W24Low} (h : s.dmBusWrite a v low = some s')
    {key : Nat} (hkey : key ∉ s.locationKeys a) : s'.byte key = s.byte key := by
  obtain ⟨hkind, rfl⟩ | ⟨hkind, rfl⟩ := dmBusWrite_eq_some h
  · simp only [State.locationKeys, hkind, List.mem_cons, List.not_mem_nil, or_false, not_or] at hkey
    simp only [byte_setMem16, hkey, if_false]
  · simp only [State.locationKeys, hkind, List.mem_cons, List.not_mem_nil, or_false, not_or] at hkey
    simp only [byte_setMem24, hkey, if_false]

/-! ## The frame of an instruction (R118), but for its computation registers -/

/-- What no instruction changes, and the pc, whatever the configuration (R118, R119). -/
theorem execWith_stepFrame (h : execWith P i s = .next t) : StepFrame s t := by
  obtain ⟨d, f, -, rfl⟩ | ⟨op, dst, o, v, x, -, -, rfl⟩ | ⟨op, src, o, v, s', x, -, -, hs', rfl⟩ |
    ⟨op, d1, d2, v, -, -, rfl⟩ | rfl := execWith_writes h
  · constructor <;> simp [dualWrite_frame, dualWrite_dag]
  · constructor <;> simp
  · constructor <;> simp [dmBusWrite_frame hs']
  · constructor <;> simp
  · constructor <;> simp

/-- The flags after an instruction are those of its compute effect (R108). -/
theorem execWith_astat (h : execWith P i s = .next t) : t.astat = (effectOf i s.view P).astat := by
  obtain ⟨d, f, -, rfl⟩ | ⟨op, dst, o, v, x, -, -, rfl⟩ | ⟨op, src, o, v, s', x, -, -, -, rfl⟩ |
    ⟨op, d1, d2, v, -, -, rfl⟩ | rfl := execWith_writes h
  · simp [dualWrite_frame]
  · simp
  · simp
  · simp
  · simp [statusOnly]

/-- Without two reads, an instruction leaves PX alone (R23). -/
theorem execWith_px (h : execWith P i s = .next t) (hi : dualReadsIn i = none) : t.px = s.px := by
  obtain ⟨d, f, hd, -⟩ | ⟨op, dst, o, v, x, -, -, rfl⟩ | ⟨op, src, o, v, s', x, -, -, hs', rfl⟩ |
    ⟨op, d1, d2, v, -, -, rfl⟩ | rfl := execWith_writes h
  · cases hi.symm.trans hd
  · simp
  · simp [dmBusWrite_frame hs']
  · simp
  · simp

/-- An instruction writes bytes of the location its memory write addresses only (R118). -/
theorem exec_byte_of_not_mem (h : exec i s = .next t) {key : Nat} (hkey : key ∉ storedKeys i s) :
    t.byte key = s.byte key := by
  rw [exec_eq_execWith] at h
  obtain ⟨d, f, -, rfl⟩ | ⟨op, dst, o, v, x, -, -, rfl⟩ | ⟨op, src, o, v, s', x, -, hi, hs', rfl⟩ |
    ⟨op, d1, d2, v, -, -, rfl⟩ | rfl := execWith_writes h
  · exact byte_congr (by simp [dualWrite_frame]) key
  · exact byte_congr (by simp) key
  · have hloc : key ∉ s.locationKeys (s.ea o.ireg) := by simpa only [storedKeys, hi] using hkey
    exact (byte_congr (by simp) key).trans (byte_dmBusWrite_of_not_mem hs' hloc)
  · exact byte_congr (by simp) key
  · exact byte_congr (by simp) key

end

/-! ## The computation registers an instruction leaves alone

The compute clause's write and then each data move stay in the frame that the instruction's term gives. -/

/-- Between `c` and `c'`, only the computation registers have changed that an instruction may write (R118). -/
structure RegsFrame (i : Instr) (c c' : CompRegs) : Prop where
  dregs : ∀ r, r ∉ computedDregs i ++ movedDregs i → c'.dregRead r = c.dregRead r
  af : resultRegIn i ≠ some .af → c'.af = c.af
  se : resultRegIn i ≠ some .se → c'.se = c.se
  sb : resultRegIn i ≠ some .sb → c'.sb = c.sb

/-- A compute effect that writes at most the instruction's result register stays in its frame (R106). -/
theorem regsFrame_applyResult {i : Instr} {w : ResultWrite} (c : CompRegs)
    (hw : ∀ rr, w.target = some rr → resultRegIn i = some rr) : RegsFrame i c (applyResult w c) where
  dregs r hr := dregRead_applyResult w c r familyFx fun rr hrr hmem =>
    hr (List.mem_append_left _ (by simpa only [computedDregs, hw rr hrr] using hmem))
  af hne := applyResult_af w c fun h => hne (hw _ h)
  se hne := applyResult_se w c fun h => hne (hw _ h)
  sb hne := applyResult_sb w c fun h => hne (hw _ h)

/-- A data move to destinations of the instruction stays in its frame (R17). -/
theorem RegsFrame.dregWrite {i : Instr} {c c' : CompRegs} (h : RegsFrame i c c') {dst : Dreg} (v : Word) (fx : DregFx)
    (hdst : dst.mw ⊆ movedDregs i) : RegsFrame i c (c'.dregWrite dst v fx) where
  dregs r hr := (dregRead_dregWrite_of_not_mem c' dst r v fx familyFx fun hmem =>
    hr (List.mem_append_right _ (hdst hmem))).trans (h.dregs r hr)
  af hne := (dregWrite_af c' dst v fx).trans (h.af hne)
  se hne := (dregWrite_se c' dst v fx).trans (h.se hne)
  sb hne := (dregWrite_sb c' dst v fx).trans (h.sb hne)

@[simp] theorem mw_dregX (x : DregX) : x.toDreg.mw = [x.toDreg] := by cases x <;> rfl
@[simp] theorem mw_dregY (y : DregY) : y.toDreg.mw = [y.toDreg] := by cases y <;> rfl

/-- The machine's own configuration meets the contract of R106. -/
theorem params_contract : params.Contract := compute_target

/-- An instruction's compute effect writes the result register of its compute clause, if it has one (R106, R108). -/
theorem effectOf_target {P : Params} (hP : P.Contract) (i : Instr) (v : RegView) :
    (effectOf i v P).result.target = i.computeOp.map ComputeOp.dest := by
  unfold effectOf
  cases i.computeOp with
  | none => rfl
  | some op => exact hP op v

/-- The computation registers after an instruction, under any configuration that meets the contract (R118). -/
theorem execWith_regsFrame {P : Params} {i : Instr} {s t : State} (hP : P.Contract) (h : execWith P i s = .next t) :
    RegsFrame i s.comp t.comp := by
  have hresult (hi : resultRegIn i = i.computeOp.map ComputeOp.dest) :
      RegsFrame i s.comp (applyResult (effectOf i s.view P).result s.comp) :=
    regsFrame_applyResult _ fun rr hrr => by rw [hi, ← effectOf_target hP i s.view, hrr]
  obtain ⟨d, f, hi, rfl⟩ | ⟨op, dst, o, v, x, hop, hi, rfl⟩ | ⟨op, src, o, v, s', x, hop, hi, hs', rfl⟩ |
    ⟨op, d1, d2, v, hop, hi, rfl⟩ | rfl := execWith_writes h
  · obtain ⟨hmoved, hdest, -⟩ := dualReadsIn_facts hi
    rw [advance_comp, dualWrite_comp, commit_comp]
    exact ((hresult hdest).dregWrite _ _ (by simp [hmoved])).dregWrite _ _ (by simp [hmoved])
  · obtain ⟨hmoved, hdest, -⟩ := loadIn_facts hi hop
    rw [advance_comp, setI_comp, dregWrite_comp, commit_comp]
    exact (hresult (by simp [hdest, hop])).dregWrite _ _ (by simp [hmoved])
  · obtain ⟨-, hdest, -⟩ := storeIn_facts hi hop
    obtain ⟨hcomp, -⟩ := dmBusWrite_frame hs'
    rw [advance_comp, setI_comp, commit_comp, hcomp]
    exact hresult (by simp [hdest, hop])
  · obtain ⟨hmoved, hdest⟩ := moveIn_facts hi hop
    rw [advance_comp, dregWrite_comp, commit_comp]
    exact (hresult (by simp [hdest, hop])).dregWrite _ _ (by simp [hmoved])
  · rw [advance_comp, commit_comp]
    exact regsFrame_applyResult _ fun rr hrr => nomatch hrr

/-- Settles O46: each part of the state has its lemma above, by cases on the writes an instruction makes; the index
registers are those of its post-modifies (O51). -/
theorem instructionsChangeOnlyTheirFrame : Obligations.InstructionsChangeOnlyTheirFrame := by
  intro i s t h
  have hw : execWith params i s = .next t := (exec_eq_execWith i s).symm.trans h
  obtain ⟨hdregs, haf, hse, hsb⟩ := execWith_regsFrame params_contract hw
  obtain ⟨-, -, -, hindexes, -⟩ := onlyOperandDagRegistersMatter i s t s.dag h
  refine ⟨execWith_stepFrame hw, hdregs, haf, hse, hsb, hindexes, execWith_px hw, fun hnone => ?_,
    fun key hkey => exec_byte_of_not_mem h hkey⟩
  simpa only [effectOf, hnone, noCompute, State.view] using execWith_astat hw

/-! ## Each form from another pc (R119)

No read of a form depends on the pc, and every write commutes with replacing it, up to the last: advancing it. -/

section
variable {s t : State}

theorem advance_withPc (s : State) (p : Addr) : ({ s with pc := p } : State).advance = { s.advance with pc := p + 1 } :=
  rfl

theorem dualWrite_withPc (s : State) (p : Addr) (d : DualReads) (f : DualFetch) (P : Params) :
    ({ s with pc := p } : State).dualWrite d f P = { s.dualWrite d f P with pc := p } := by
  unfold State.dualWrite
  simp only [dregWrite_withPc, setI_withPc]

theorem dmBusWrite_withPc (p : Addr) {a : Addr} {v : Word} {low : W24Low} {s' : State}
    (h : s.dmBusWrite a v low = some s') :
    ({ s with pc := p } : State).dmBusWrite a v low = some { s' with pc := p } := by
  have hkind : ({ s with pc := p } : State).memKind a = s.memKind a := rfl
  have hlow : ({ s with pc := p } : State).lowAfterWrite a low = s.lowAfterWrite a low := by cases low <;> rfl
  unfold State.dmBusWrite at h ⊢
  rw [hkind, hlow]
  cases hk : s.memKind a with
  | absent => simp [hk] at h
  | w16 | w24 =>
    simp only [hk, Option.some.injEq] at h
    rw [← h]

theorem dualReadForm_withPc (p : Addr) {e : ComputeEffect} {d : DualReads} (h : dualReadForm e d s params = .next t) :
    dualReadForm e d { s with pc := p } params = .next { t with pc := p + 1 } := by
  obtain ⟨f, hf, rfl⟩ := dualReadForm_eq_next h
  have hf' : ({ s with pc := p } : State).dualFetch d params = some f := hf
  simp only [dualReadForm, hf', commit_withPc, dualWrite_withPc, advance_withPc]

theorem memReadForm_withPc (p : Addr) {op : ComputeOp} {e : ComputeEffect} {dst : Dreg} {o : MemOperand}
    (h : memReadForm op e dst o s params = .next t) :
    memReadForm op e dst o { s with pc := p } params = .next { t with pc := p + 1 } := by
  obtain ⟨hdest, v, hv, rfl⟩ := memReadForm_eq_next h
  have hv' : ({ s with pc := p } : State).dmBusRead (({ s with pc := p } : State).ea o.ireg) = some v := hv
  have hnext : ({ s with pc := p } : State).nextIndex o = s.nextIndex o := rfl
  simp only [memReadForm, hdest, Bool.false_eq_true, if_false, hv', hnext, commit_withPc, dregWrite_withPc, setI_withPc,
    advance_withPc]

theorem memWriteForm_withPc (p : Addr) {op : ComputeOp} {e : ComputeEffect} {src : Dreg} {o : MemOperand}
    (h : memWriteForm op e src o s params = .next t) :
    memWriteForm op e src o { s with pc := p } params = .next { t with pc := p + 1 } := by
  obtain ⟨hsrc, htext, s', hs', rfl⟩ := memWriteForm_eq_next h
  have hea : ({ s with pc := p } : State).ea o.ireg = s.ea o.ireg := rfl
  have hread : ({ s with pc := p } : State).dregRead src = s.dregRead src := rfl
  have hnext : ({ s with pc := p } : State).nextIndex o = s.nextIndex o := rfl
  have hwrite := dmBusWrite_withPc p hs'
  simp only [memWriteForm, hsrc, htext, Bool.false_eq_true, if_false, hea, hread, hwrite, hnext, commit_withPc,
    setI_withPc, advance_withPc]

theorem regMoveForm_withPc (p : Addr) {op : ComputeOp} {e : ComputeEffect} {d1 d2 : Dreg}
    (h : regMoveForm op e d1 d2 s params = .next t) :
    regMoveForm op e d1 d2 { s with pc := p } params = .next { t with pc := p + 1 } := by
  obtain ⟨hdest, hsrc, rfl⟩ := regMoveForm_eq_next h
  have hread : ({ s with pc := p } : State).dregRead d2 = s.dregRead d2 := rfl
  simp only [regMoveForm, hdest, hsrc, Bool.false_eq_true, if_false, hread, commit_withPc, dregWrite_withPc,
    advance_withPc]

theorem nonAluMoveForm_withPc (p : Addr) {op : ComputeOp} {e : ComputeEffect} {d1 d2 : Dreg}
    (h : nonAluMoveForm op e d1 d2 s params = .next t) :
    nonAluMoveForm op e d1 d2 { s with pc := p } params = .next { t with pc := p + 1 } := by
  obtain ⟨hmove, hform⟩ := nonAluMoveForm_eq_next h
  exact (if_neg hmove).trans (regMoveForm_withPc p hform)

theorem statusOnlyForm_withPc (p : Addr) {e : ComputeEffect} (h : statusOnlyForm e s = .next t) :
    statusOnlyForm e { s with pc := p } = .next { t with pc := p + 1 } := by
  obtain rfl := Host.Outcome.next.inj h
  simp only [statusOnlyForm, commit_withPc, advance_withPc]

theorem execAluRegMove_withPc (p : Addr) {c : AluClause} {z : AluDest} {d1 d2 : Dreg}
    (h : execAluRegMove c z d1 d2 s = .next t) :
    execAluRegMove c z d1 d2 { s with pc := p } = .next { t with pc := p + 1 } := by
  unfold execAluRegMove at h ⊢
  by_cases hmove : d1 = .ar ∧ d2 = .ar
  · rw [if_pos hmove] at h ⊢
    cases z with
    | ar => exact statusOnlyForm_withPc p h
    | af => cases h
  · rw [if_neg hmove] at h ⊢
    exact regMoveForm_withPc p h

/-- From another pc an instruction answers the same state but for the pc, which it advances (R119). The register view
its compute clause reads holds no pc (R104), so the two effects are one by definition. -/
theorem exec_withPc (p : Addr) {i : Instr} (h : exec i s = .next t) :
    exec i { s with pc := p } = .next { t with pc := p + 1 } := by
  cases i with
  | aluDualRead c d => exact dualReadForm_withPc p h
  | macDualRead c d => exact dualReadForm_withPc p h
  | dualRead d => exact dualReadForm_withPc p h
  | aluMemRead c z dst o => exact memReadForm_withPc p h
  | macMemRead c z dst o => exact memReadForm_withPc p h
  | shiftMemRead c dst o => exact memReadForm_withPc p h
  | aluMemWrite c z src o => exact memWriteForm_withPc p h
  | macMemWrite c z src o => exact memWriteForm_withPc p h
  | shiftMemWrite c src o => exact memWriteForm_withPc p h
  | aluStatusOnly c => exact statusOnlyForm_withPc p h
  | aluRegMove c z d1 d2 => exact execAluRegMove_withPc p h
  | macRegMove c z d1 d2 => exact nonAluMoveForm_withPc p h
  | shiftRegMove c d1 d2 => exact nonAluMoveForm_withPc p h

end

/-- Settles O45: the frame says what becomes of the pc, and no form reads it. -/
theorem everyInstructionAdvancesThePc : Obligations.EveryInstructionAdvancesThePc := by
  intro i s t h
  have hframe : StepFrame s t := execWith_stepFrame ((exec_eq_execWith i s).symm.trans h)
  exact ⟨hframe.pc, fun p => exec_withPc p h⟩

end Sys2Proof.Machine

/-!
Proofs of the statements on memory and the step: what a step runs (D26), what each bus primitive does (R46 to R48), the
invariant of memory (R41, R42), and that program text never changes (R59).
-/

namespace Sys2Proof.Machine

open Sys2Proof

/-! ## The step: fetch, decode, run -/

section
variable {s : State} {run : Instr → State → Result}

theorem runFetched_of_decode {i : Instr} (hpc : s.text.holds s.pc = true) (hi : decode (s.mem24 s.pc) = .ok i) :
    s.runFetched run = run i s := by
  simp only [State.runFetched, State.fetch, hpc, if_true, hi]

theorem runFetched_of_decode_error {e : DecodeError} (hpc : s.text.holds s.pc = true)
    (he : decode (s.mem24 s.pc) = .error e) : s.runFetched run = .fault (.undecodable e) := by
  simp only [State.runFetched, State.fetch, hpc, if_true, he]

theorem runFetched_of_end (hpc : s.text.holds s.pc = false) : s.runFetched run = .refused .endOfProgram := by
  simp only [State.runFetched, State.fetch, hpc, Bool.false_eq_true, if_false]

/-- A step that answers a next state has run one instruction. -/
theorem step_eq_next {t : State} (h : step s = .next t) : ∃ i, exec i s = .next t := by
  obtain ⟨-, hrun⟩ | ⟨e, -, -, hrun⟩ | ⟨i, -, -, hrun⟩ := runFetched_cases s exec
  · cases hrun.symm.trans h
  · cases hrun.symm.trans h
  · exact ⟨i, hrun.symm.trans h⟩

/-- A placed word stands where the pc points, as program text (log 5). -/
theorem placeWord_holds (s : State) (w : Word24) : (s.placeWord w).text.holds (s.placeWord w).pc = true := by
  show ProgramText.holds (if s.text.holds s.pc then s.text else ⟨s.pc, 1⟩) s.pc = true
  split
  · assumption
  · simp [ProgramText.holds]

theorem placeWord_mem24 (s : State) (w : Word24) : (s.placeWord w).mem24 (s.placeWord w).pc = w :=
  mem24_setMem24 s s.pc w s.draws

end

/-- Settles O11: the fetch finds the word, and the step is the run of what it decodes to. -/
theorem stepRunsTheDecodedInstruction : Obligations.StepRunsTheDecodedInstruction :=
  fun _ _ hpc hi => runFetched_of_decode hpc hi

/-- Settles O12: the two ways a fetch leads to no instruction. -/
theorem stepStopsWithoutAnInstruction : Obligations.StepStopsWithoutAnInstruction :=
  ⟨fun _ hpc => runFetched_of_end hpc, fun _ _ hpc he => runFetched_of_decode_error hpc he⟩

/-- Settles O13: the placed word is program text at the pc, and reads as placed. -/
theorem placedWordRunsNext : Obligations.PlacedWordRunsNext := by
  intro s w i hi
  refine runFetched_of_decode (placeWord_holds s _) ?_
  rw [State.withFetchWord, placeWord_mem24]
  exact hi

/-! ## The bus primitives -/

section
variable {s s' : State} {a : Addr}

theorem dmBusRead_of_w16 (h : s.memKind a = .w16) : s.dmBusRead a = some (s.mem16 a) := by
  simp only [State.dmBusRead, h]

theorem dmBusRead_of_w24 (h : s.memKind a = .w24) : s.dmBusRead a = some ((s.mem24 a).extractLsb' 8 16) := by
  simp only [State.dmBusRead, h, high24_eq]

theorem dmBusRead_of_absent (h : s.memKind a = .absent) : s.dmBusRead a = none := by
  simp only [State.dmBusRead, h]

theorem pmBusRead_of_w16 (h : s.memKind a = .w16) : s.pmBusRead a = some (s.mem16 a, 0) := by
  simp only [State.pmBusRead, h]

theorem pmBusRead_of_w24 (h : s.memKind a = .w24) :
    s.pmBusRead a = some ((s.mem24 a).extractLsb' 8 16, (s.mem24 a).extractLsb' 0 8) := by
  simp only [State.pmBusRead, h, high24_eq, low24_eq]

theorem pmBusRead_of_absent (h : s.memKind a = .absent) : s.pmBusRead a = none := by
  simp only [State.pmBusRead, h]

theorem dmBusWrite_of_absent (v : Word) (low : W24Low) (h : s.memKind a = .absent) : s.dmBusWrite a v low = none := by
  simp only [State.dmBusWrite, h]

/-- A DM-bus write succeeds wherever there is memory (R48, R50). -/
theorem exists_dmBusWrite (v : Word) (low : W24Low) (h : s.memKind a ≠ .absent) :
    ∃ s', s.dmBusWrite a v low = some s' := by
  cases hk : s.memKind a with
  | w16 => exact ⟨_, by simp only [State.dmBusWrite, hk]; rfl⟩
  | w24 => exact ⟨_, by simp only [State.dmBusWrite, hk]; rfl⟩
  | absent => exact absurd hk h

section
variable {v : Word} {low : W24Low} (h : s.dmBusWrite a v low = some s')
include h

/-- The word of 16-bit memory after a DM-bus write (R48). -/
theorem mem16_dmBusWrite (hk : s.memKind a = .w16) : s'.mem16 a = v := by
  obtain ⟨-, rfl⟩ | ⟨hk', -⟩ := dmBusWrite_eq_some h
  · exact mem16_setMem16 s a v
  · cases hk.symm.trans hk'

/-- The location of 24-bit memory after a DM-bus write: the value, and the low byte of `P_W24_LOW` (R48). -/
theorem mem24_dmBusWrite (hk : s.memKind a = .w24) : s'.mem24 a = v ++ s.lowAfterWrite a low := by
  obtain ⟨hk', -⟩ | ⟨-, rfl⟩ := dmBusWrite_eq_some h
  · cases hk.symm.trans hk'
  · exact mem24_setMem24 s a _ _

theorem high_mem24_dmBusWrite (hk : s.memKind a = .w24) : (s'.mem24 a).extractLsb' 8 16 = v := by
  rw [mem24_dmBusWrite h hk, extract_append_low]

/-- Nothing but memory and the count of draws differs after a DM-bus write. -/
theorem dmBusWrite_rest : { s' with mem := s.mem, draws := s.draws } = s := by
  obtain ⟨-, rfl⟩ | ⟨-, rfl⟩ := dmBusWrite_eq_some h <;> rfl

end

end

/-- Settles O14, by the kind of the memory behind the address. -/
theorem dmBusReadDeliversByKind : Obligations.DmBusReadDeliversByKind :=
  fun _ _ => ⟨dmBusRead_of_w16, dmBusRead_of_w24, dmBusRead_of_absent⟩

/-- Settles O15, by the kind of the memory behind the address. -/
theorem pmBusReadDeliversByKind : Obligations.PmBusReadDeliversByKind :=
  fun _ _ => ⟨pmBusRead_of_w16, pmBusRead_of_w24, pmBusRead_of_absent⟩

/-- Settles O16, by the rules of a DM-bus write. -/
theorem dmBusWriteStoresByKind : Obligations.DmBusWriteStoresByKind :=
  fun _ _ v => ⟨exists_dmBusWrite v .any, fun _ h =>
    ⟨mem16_dmBusWrite h, high_mem24_dmBusWrite h, fun _ => byte_dmBusWrite_of_not_mem h, dmBusWrite_rest h⟩⟩

/-! ## Memory after an instruction -/

theorem execWith_of_exec {i : Instr} {s t : State} (h : exec i s = .next t) : execWith params i s = .next t :=
  (exec_eq_execWith i s).symm.trans h

/-- An instruction leaves memory alone, or it stores its source register through a DM-bus write at an address that holds
no program text (R118, R59). -/
theorem execWith_mem {P : Params} {i : Instr} {s t : State} (h : execWith P i s = .next t) :
    (storeIn i = none ∧ t.mem = s.mem ∧ t.draws = s.draws) ∨
    ∃ src o s', storeIn i = some (src, o) ∧ s.text.holds (s.ea o.ireg P) = false ∧
      s.dmBusWrite (s.ea o.ireg P) (s.dregRead src P) P.w24Low = some s' ∧ t.mem = s'.mem ∧ t.draws = s'.draws := by
  obtain ⟨d, hd, h⟩ | ⟨op, dst, o, hop, hload, h⟩ | ⟨op, src, o, -, hi, h⟩ |
    ⟨op, d1, d2, -, -, -, -, hi, h⟩ | ⟨c, -, -, -, hi, -, h⟩ := execWith_eq_next h
  · obtain ⟨f, -, rfl⟩ := dualReadForm_eq_next h
    obtain ⟨-, -, -, -, hi, -⟩ := dualReadsIn_facts hd
    exact .inl ⟨hi, by simp [dualWrite_frame], by simp [dualWrite_frame]⟩
  · obtain ⟨-, v, -, rfl⟩ := memReadForm_eq_next h
    obtain ⟨-, -, -, -, hi, -⟩ := loadIn_facts hload hop
    exact .inl ⟨hi, by simp, by simp⟩
  · obtain ⟨-, htext, s', hs', rfl⟩ := memWriteForm_eq_next h
    exact .inr ⟨src, o, s', hi, htext, hs', by simp, by simp⟩
  · obtain ⟨-, -, rfl⟩ := regMoveForm_eq_next h
    exact .inl ⟨hi, by simp, by simp⟩
  · obtain rfl := Host.Outcome.next.inj h
    exact .inl ⟨hi, by simp, by simp⟩

/-! ## The invariant of memory (R41, R42) -/

theorem State.Inv.congr {s t : State} (h : s.Inv) (hmem : t.mem = s.mem) (hmap : t.memMap = s.memMap)
    (htext : t.text = s.text) : t.Inv where
  sorted := hmem ▸ h.sorted
  lanes c hc := (laneExists_congr hmap htext c.1).trans (h.lanes c (hmem ▸ hc))

/-- The lanes of a location exist. -/
theorem laneExists_of_mem_locationKeys {s : State} {a : Addr} {key : Nat} (h : key ∈ s.locationKeys a) :
    s.laneExists key = true := by
  have hlane {k : Nat} (hk : k < 3) (hkind : s.memKind a = .w24 ∨ (s.memKind a = .w16 ∧ k < 2)) :
      s.laneExists (laneKey a k) = true := by
    simp only [State.laneExists, laneKey_div a hk, laneKey_mod a hk, BitVec.ofNat_toNat, BitVec.setWidth_eq]
    obtain hkind | ⟨hkind, hk⟩ := hkind
    · simp [hkind, a.isLt]
    · simp [hkind, a.isLt, hk]
  unfold State.locationKeys at h
  cases hk : s.memKind a with
  | w16 =>
    simp only [hk, List.mem_cons, List.not_mem_nil, or_false] at h
    obtain rfl | rfl := h
    · exact hlane (by omega) (.inr ⟨hk, by omega⟩)
    · exact hlane (by omega) (.inr ⟨hk, by omega⟩)
  | w24 =>
    simp only [hk, List.mem_cons, List.not_mem_nil, or_false] at h
    obtain rfl | rfl | rfl := h
    · exact hlane (by omega) (.inl hk)
    · exact hlane (by omega) (.inl hk)
    · exact hlane (by omega) (.inl hk)
  | absent => simp [hk] at h

/-- A DM-bus write lists bytes of the addressed location only. -/
theorem mem_dmBusWrite {s s' : State} {a : Addr} {v : Word} {low : W24Low} (h : s.dmBusWrite a v low = some s')
    {c : Host.Cell} (hc : c ∈ s'.mem) : c.1 ∈ s.locationKeys a ∨ c ∈ s.mem := by
  obtain ⟨hk, rfl⟩ | ⟨hk, rfl⟩ := dmBusWrite_eq_some h
  · have := mem_of_mem_setMem16 _ _ _ c hc
    simpa [State.locationKeys, hk, or_assoc] using this
  · have := mem_of_mem_setMem24 _ _ _ c hc
    simpa [State.locationKeys, hk, or_assoc] using this

/-- A DM-bus write keeps the invariant. -/
theorem State.Inv.dmBusWrite {s s' : State} (hs : s.Inv) {a : Addr} {v : Word} {low : W24Low}
    (h : s.dmBusWrite a v low = some s') : s'.Inv where
  sorted := by
    obtain ⟨-, rfl⟩ | ⟨-, rfl⟩ := dmBusWrite_eq_some h
    · exact setMem16_wf hs.sorted a v
    · exact setMem24_wf hs.sorted a _
  lanes c hc := by
    obtain ⟨-, -, -, -, -, -, -, -, -, hmap, htext⟩ := dmBusWrite_frame h
    rw [laneExists_congr hmap htext]
    obtain hloc | hold := mem_dmBusWrite h hc
    · exact laneExists_of_mem_locationKeys hloc
    · exact hs.lanes c hold

/-- Every instruction keeps the invariant, under every configuration. -/
theorem execWith_keeps_inv {P : Params} {i : Instr} {s t : State} (hs : s.Inv) (h : execWith P i s = .next t) :
    t.Inv := by
  have hframe := execWith_stepFrame h
  obtain ⟨-, hmem, -⟩ | ⟨src, o, s', -, -, hs', hmem, -⟩ := execWith_mem h
  · exact hs.congr hmem hframe.memMap hframe.text
  · obtain ⟨-, -, -, -, -, -, -, -, -, hmap, htext⟩ := dmBusWrite_frame hs'
    exact (hs.dmBusWrite hs').congr hmem (hframe.memMap.trans hmap.symm) (hframe.text.trans htext.symm)

/-- Settles O57: a step is the run of one instruction, and memory after it is that before or after one DM-bus write. -/
theorem stepKeepsTheInvariant : Obligations.StepKeepsTheInvariant := by
  intro s t hs h
  obtain ⟨i, hi⟩ := step_eq_next h
  exact execWith_keeps_inv hs (execWith_of_exec hi)

/-- Settles O58: no byte is listed after reset. -/
theorem resetMeetsTheInvariant : Obligations.ResetMeetsTheInvariant where
  sorted := reset_mem_wf
  lanes _ hc := nomatch hc

/-! ## Program text -/

/-- No lane of an address is one of another address's location. -/
theorem laneKey_not_mem_locationKeys (s : State) {a b : Addr} {k : Nat} (hk : k < 3) (h : a ≠ b) :
    laneKey a k ∉ s.locationKeys b := by
  have hne {j : Nat} (hj : j < 3) : laneKey a k ≠ laneKey b j := fun he => h (laneKey_inj hk hj he).1
  unfold State.locationKeys
  split <;> simp [hne]

/-- Settles O59: a store addresses no program text, and writes bytes of its own location only. -/
theorem programTextIsImmutable : Obligations.ProgramTextIsImmutable := by
  intro s t h
  obtain ⟨i, hi⟩ := step_eq_next h
  have hw := execWith_of_exec hi
  refine ⟨(execWith_stepFrame hw).text, fun a k hk ha => ?_⟩
  obtain ⟨-, hmem, -⟩ | ⟨src, o, s', -, htext, hs', hmem, -⟩ := execWith_mem hw
  · exact byte_congr hmem _
  · have hne : a ≠ s.ea o.ireg params := by
      rintro rfl
      cases ha.symm.trans htext
    exact (byte_congr hmem _).trans (byte_dmBusWrite_of_not_mem hs' (laneKey_not_mem_locationKeys s hk hne))

end Sys2Proof.Machine

/-!
Proofs of the statements on encoding (R81 to R89): the decoder and the encoder invert each other, and a word decodes
exactly if it is one of a row of the opcode table.
-/

namespace Sys2Proof

/-! ## Fields of a word -/

theorem bits_eq_iff {w : Word24} {lo len : Nat} {v : BitVec len} :
    bits w lo len = v ↔ w.toNat / 2 ^ lo % 2 ^ len = v.toNat := by
  rw [← bits_toNat, BitVec.toNat_inj]

theorem amf_code_of_mac {c : BitVec 5} {fn : MacFn} (h : Amf.ofCode c = .mac fn) : fn.code = c := by
  have hcode := amf_code_ofCode c
  rwa [h] at hcode

theorem amf_code_of_alu {c : BitVec 5} {fn : AluFn} (h : Amf.ofCode c = .alu fn) : fn.code = c := by
  have hcode := amf_code_ofCode c
  rwa [h] at hcode

theorem amf_code_of_noOperation {c : BitVec 5} (h : Amf.ofCode c = .noOperation) : c = 0#5 := by
  have hcode := amf_code_ofCode c
  rw [h] at hcode
  exact hcode.symm

/-- The fields YOP and XOP of a word, as one field of five bits. -/
theorem bits_operands (w : Word24) : bits w 8 5 = bits w 11 2 ++ bits w 8 3 := by
  rw [bits_eq_iff, toNat_append_add, bits_toNat, bits_toNat]
  omega

theorem operand_fields {w : Word24} {y : BitVec 2} {x : BitVec 3} (h : bits w 8 5 = y ++ x) :
    bits w 11 2 = y ∧ bits w 8 3 = x := by
  rw [bits_eq_iff, toNat_append_add] at h
  rw [bits_eq_iff, bits_eq_iff]
  have := x.isLt
  have := y.isLt
  omega

theorem aluClauseOf_eq {w : Word24} {c : AluClause} (h : bits w 8 5 = c.operandCode) : aluClauseOf c.fn w = c := by
  obtain ⟨hy, hx⟩ := operand_fields h
  simp only [aluClauseOf, hy, hx, aluX_ofCode_code, aluY_ofCode_code]

theorem macClauseOf_eq {w : Word24} {c : MacClause} (h : bits w 8 5 = c.operandCode) : macClauseOf c.fn w = c := by
  obtain ⟨hy, hx⟩ := operand_fields h
  simp only [macClauseOf, hy, hx, macX_ofCode_code, macY_ofCode_code]

@[simp] theorem aluClauseOf_operandCode (fn : AluFn) (w : Word24) :
    (aluClauseOf fn w).operandCode = bits w 8 5 := by
  simp [aluClauseOf, AluClause.operandCode, bits_operands]

@[simp] theorem macClauseOf_operandCode (fn : MacFn) (w : Word24) :
    (macClauseOf fn w).operandCode = bits w 8 5 := by
  simp [macClauseOf, MacClause.operandCode, bits_operands]

@[simp] theorem aluClauseOf_fn (fn : AluFn) (w : Word24) : (aluClauseOf fn w).fn = fn := rfl
@[simp] theorem macClauseOf_fn (fn : MacFn) (w : Word24) : (macClauseOf fn w).fn = fn := rfl

/-- The two register fields of a move that are `AR` each. -/
theorem move_fields {w : Word24} (h : bits w 0 8 = 0xAA#8) :
    Dreg.ofCode (bits w 4 4) = .ar ∧ Dreg.ofCode (bits w 0 4) = .ar := by
  have h4 : bits w 4 4 = 0xA#4 := by simp [bits_eq_iff] at h ⊢; omega
  have h0 : bits w 0 4 = 0xA#4 := by simp [bits_eq_iff] at h ⊢; omega
  rw [h4, h0]
  exact ⟨rfl, rfl⟩

theorem bits_dagReg_eq {w : Word24} {lo : Nat} {k : Fin 4} (h : w.toNat / 2 ^ lo % 2 ^ 2 = k.val) :
    dagRegOfCode (bits w lo 2) = k :=
  Fin.ext ((bits_toNat w lo 2).trans h)

@[simp] theorem dagRegOfCode_val (c : BitVec 2) : (dagRegOfCode c).val = c.toNat := rfl

/-! ## Which opcode type a word is of (R81 to R85) -/

theorem decode_type1 {w : Word24} (h : bits w 22 2 = 0b11#2) : decode w = decodeType1 w := if_pos h

theorem decode_type4 {w : Word24} (h : bits w 21 3 = 0b011#3) : decode w = decodeType4 w := by
  have h1 : bits w 22 2 ≠ 0b11#2 := by simp [bits_eq_iff] at h ⊢; omega
  simp only [decode, h1, h, if_true, if_false]

theorem decode_type8 {w : Word24} (h : bits w 19 5 = 0b00101#5) : decode w = decodeType8 w := by
  have h1 : bits w 22 2 ≠ 0b11#2 := by simp [bits_eq_iff] at h ⊢; omega
  have h4 : bits w 21 3 ≠ 0b011#3 := by simp [bits_eq_iff] at h ⊢; omega
  simp only [decode, h1, h4, h, if_true, if_false]

theorem decode_type12 {w : Word24} (h : bits w 17 7 = 0b0001001#7) : decode w = decodeType12 w := by
  have h1 : bits w 22 2 ≠ 0b11#2 := by simp [bits_eq_iff] at h ⊢; omega
  have h4 : bits w 21 3 ≠ 0b011#3 := by simp [bits_eq_iff] at h ⊢; omega
  have h8 : bits w 19 5 ≠ 0b00101#5 := by simp [bits_eq_iff] at h ⊢; omega
  simp only [decode, h1, h4, h8, h, if_true, if_false]

theorem decode_type14 {w : Word24} (h : bits w 15 9 = 0b000100000#9) : decode w = decodeType14 w := by
  have h1 : bits w 22 2 ≠ 0b11#2 := by simp [bits_eq_iff] at h ⊢; omega
  have h4 : bits w 21 3 ≠ 0b011#3 := by simp [bits_eq_iff] at h ⊢; omega
  have h8 : bits w 19 5 ≠ 0b00101#5 := by simp [bits_eq_iff] at h ⊢; omega
  have h12 : bits w 17 7 ≠ 0b0001001#7 := by simp [bits_eq_iff] at h ⊢; omega
  simp only [decode, h1, h4, h8, h12, h, if_true, if_false]

/-- Everything `decode` can do: decode by one opcode type, or reject a word of no type. -/
theorem decode_cases (w : Word24) :
    (bits w 22 2 = 0b11#2 ∧ decode w = decodeType1 w) ∨ (bits w 21 3 = 0b011#3 ∧ decode w = decodeType4 w) ∨
    (bits w 19 5 = 0b00101#5 ∧ decode w = decodeType8 w) ∨ (bits w 17 7 = 0b0001001#7 ∧ decode w = decodeType12 w) ∨
    (bits w 15 9 = 0b000100000#9 ∧ decode w = decodeType14 w) ∨
    (bits w 22 2 ≠ 0b11#2 ∧ bits w 21 3 ≠ 0b011#3 ∧ bits w 19 5 ≠ 0b00101#5 ∧ bits w 17 7 ≠ 0b0001001#7 ∧
      bits w 15 9 ≠ 0b000100000#9 ∧ decode w = .error .otherOpcode) := by
  by_cases h1 : bits w 22 2 = 0b11#2
  · exact .inl ⟨h1, decode_type1 h1⟩
  by_cases h4 : bits w 21 3 = 0b011#3
  · exact .inr (.inl ⟨h4, decode_type4 h4⟩)
  by_cases h8 : bits w 19 5 = 0b00101#5
  · exact .inr (.inr (.inl ⟨h8, decode_type8 h8⟩))
  by_cases h12 : bits w 17 7 = 0b0001001#7
  · exact .inr (.inr (.inr (.inl ⟨h12, decode_type12 h12⟩)))
  by_cases h14 : bits w 15 9 = 0b000100000#9
  · exact .inr (.inr (.inr (.inr (.inl ⟨h14, decode_type14 h14⟩))))
  · exact .inr (.inr (.inr (.inr (.inr ⟨h1, h4, h8, h12, h14, by simp [decode, h1, h4, h8, h12, h14]⟩))))

/-! ## Decoding the word of an instruction

For each opcode type: the fields of its words, then each of its instructions. -/

section
variable (d : DualReads) (o : MemOperand) (dir z : BitVec 1) (amf yx : BitVec 5) (r d1 d2 : Dreg) (c : ShiftClause)

theorem encodeType1_fields :
    bits (encodeType1 d amf yx) 22 2 = 0b11#2 ∧ bits (encodeType1 d amf yx) 13 5 = amf ∧
      bits (encodeType1 d amf yx) 8 5 = yx := by
  simp only [bits_eq_iff, encodeType1_toNat, BitVec.toNat_ofNat]
  have := d.dy.code.isLt
  have := d.dx.code.isLt
  have := amf.isLt
  have := yx.isLt
  omega

theorem dualReadsOf_encodeType1 : dualReadsOf (encodeType1 d amf yx) = d := by
  have hdy := d.dy.code.isLt
  have hdx := d.dx.code.isLt
  have := amf.isLt
  have := yx.isLt
  have hx : bits (encodeType1 d amf yx) 18 2 = d.dx.code := by rw [bits_eq_iff, encodeType1_toNat]; omega
  have hy : bits (encodeType1 d amf yx) 20 2 = d.dy.code := by rw [bits_eq_iff, encodeType1_toNat]; omega
  have hpmI : dagRegOfCode (bits (encodeType1 d amf yx) 6 2) = d.pmI :=
    bits_dagReg_eq (by rw [encodeType1_toNat]; omega)
  have hpmM : dagRegOfCode (bits (encodeType1 d amf yx) 4 2) = d.pmM :=
    bits_dagReg_eq (by rw [encodeType1_toNat]; omega)
  have hdmI : dagRegOfCode (bits (encodeType1 d amf yx) 2 2) = d.dmI :=
    bits_dagReg_eq (by rw [encodeType1_toNat]; omega)
  have hdmM : dagRegOfCode (bits (encodeType1 d amf yx) 0 2) = d.dmM :=
    bits_dagReg_eq (by rw [encodeType1_toNat]; omega)
  simp only [dualReadsOf, hx, hy, hpmI, hpmM, hdmI, hdmM, dregX_ofCode_code, dregY_ofCode_code]

theorem encodeType4_fields :
    bits (encodeType4 o dir z amf yx r) 21 3 = 0b011#3 ∧ bits (encodeType4 o dir z amf yx r) 19 1 = dir ∧
      bits (encodeType4 o dir z amf yx r) 18 1 = z ∧ bits (encodeType4 o dir z amf yx r) 13 5 = amf ∧
      bits (encodeType4 o dir z amf yx r) 8 5 = yx ∧ bits (encodeType4 o dir z amf yx r) 4 4 = r.code := by
  simp only [bits_eq_iff, encodeType4_toNat, BitVec.toNat_ofNat]
  have := o.dag.code.isLt
  have := dir.isLt
  have := z.isLt
  have := amf.isLt
  have := yx.isLt
  have := r.code.isLt
  omega

theorem memOperandOf_encodeType4 : memOperandOf 20 (encodeType4 o dir z amf yx r) = o := by
  have := o.dag.code.isLt
  have := dir.isLt
  have := z.isLt
  have := amf.isLt
  have := yx.isLt
  have := r.code.isLt
  have hg : bits (encodeType4 o dir z amf yx r) 20 1 = o.dag.code := by rw [bits_eq_iff, encodeType4_toNat]; omega
  have hi : dagRegOfCode (bits (encodeType4 o dir z amf yx r) 2 2) = o.i :=
    bits_dagReg_eq (by rw [encodeType4_toNat]; omega)
  have hm : dagRegOfCode (bits (encodeType4 o dir z amf yx r) 0 2) = o.m :=
    bits_dagReg_eq (by rw [encodeType4_toNat]; omega)
  simp only [memOperandOf, hg, hi, hm, dag_ofCode_code]

theorem encodeType8_fields :
    bits (encodeType8 z amf yx d1 d2) 19 5 = 0b00101#5 ∧ bits (encodeType8 z amf yx d1 d2) 18 1 = z ∧
      bits (encodeType8 z amf yx d1 d2) 13 5 = amf ∧ bits (encodeType8 z amf yx d1 d2) 8 5 = yx ∧
      bits (encodeType8 z amf yx d1 d2) 4 4 = d1.code ∧ bits (encodeType8 z amf yx d1 d2) 0 4 = d2.code ∧
      bits (encodeType8 z amf yx d1 d2) 0 8 = d1.code ++ d2.code := by
  simp only [bits_eq_iff, encodeType8_toNat, toNat_append_add, BitVec.toNat_ofNat]
  have := z.isLt
  have := amf.isLt
  have := yx.isLt
  have := d1.code.isLt
  have := d2.code.isLt
  omega

theorem encodeType12_fields :
    bits (encodeType12 o dir c r) 17 7 = 0b0001001#7 ∧ bits (encodeType12 o dir c r) 15 1 = dir ∧
      bits (encodeType12 o dir c r) 11 4 = c.fn.code ∧ bits (encodeType12 o dir c r) 8 3 = c.x.code ∧
      bits (encodeType12 o dir c r) 4 4 = r.code := by
  simp only [bits_eq_iff, encodeType12_toNat, BitVec.toNat_ofNat]
  have := o.dag.code.isLt
  have := dir.isLt
  have := c.fn.code.isLt
  have := c.x.code.isLt
  have := r.code.isLt
  omega

theorem memOperandOf_encodeType12 : memOperandOf 16 (encodeType12 o dir c r) = o := by
  have := o.dag.code.isLt
  have := dir.isLt
  have := c.fn.code.isLt
  have := c.x.code.isLt
  have := r.code.isLt
  have hg : bits (encodeType12 o dir c r) 16 1 = o.dag.code := by rw [bits_eq_iff, encodeType12_toNat]; omega
  have hi : dagRegOfCode (bits (encodeType12 o dir c r) 2 2) = o.i :=
    bits_dagReg_eq (by rw [encodeType12_toNat]; omega)
  have hm : dagRegOfCode (bits (encodeType12 o dir c r) 0 2) = o.m :=
    bits_dagReg_eq (by rw [encodeType12_toNat]; omega)
  simp only [memOperandOf, hg, hi, hm, dag_ofCode_code]

theorem encodeType14_fields :
    bits (encodeType14 c d1 d2) 15 9 = 0b000100000#9 ∧ bits (encodeType14 c d1 d2) 11 4 = c.fn.code ∧
      bits (encodeType14 c d1 d2) 8 3 = c.x.code ∧ bits (encodeType14 c d1 d2) 4 4 = d1.code ∧
      bits (encodeType14 c d1 d2) 0 4 = d2.code := by
  simp only [bits_eq_iff, encodeType14_toNat, BitVec.toNat_ofNat]
  have := c.fn.code.isLt
  have := c.x.code.isLt
  have := d1.code.isLt
  have := d2.code.isLt
  omega

end

theorem decode_encodeType1_alu (c : AluClause) (d : DualReads) :
    decode (encodeType1 d c.fn.code c.operandCode) = .ok (.aluDualRead c d) := by
  obtain ⟨htype, hamf, hyx⟩ := encodeType1_fields d c.fn.code c.operandCode
  rw [decode_type1 htype, decodeType1, hamf, amf_ofCode_aluCode]
  simp only [aluClauseOf_eq hyx, dualReadsOf_encodeType1]

theorem decode_encodeType1_mac (c : MacClause) (d : DualReads) :
    decode (encodeType1 d c.fn.code c.operandCode) = .ok (.macDualRead c d) := by
  obtain ⟨htype, hamf, hyx⟩ := encodeType1_fields d c.fn.code c.operandCode
  rw [decode_type1 htype, decodeType1, hamf, amf_ofCode_macCode]
  simp only [macClauseOf_eq hyx, dualReadsOf_encodeType1]

theorem decode_encodeType1_none (d : DualReads) : decode (encodeType1 d 0#5 0#5) = .ok (.dualRead d) := by
  obtain ⟨htype, hamf, -⟩ := encodeType1_fields d 0#5 0#5
  rw [decode_type1 htype, decodeType1, hamf]
  exact congrArg (fun d => Except.ok (Instr.dualRead d)) (dualReadsOf_encodeType1 d 0#5 0#5)

theorem decode_encodeType4_alu (c : AluClause) (z : AluDest) (dir : BitVec 1) (r : Dreg) (o : MemOperand) :
    decode (encodeType4 o dir z.code c.fn.code c.operandCode r) =
      .ok (if dir = 0#1 then .aluMemRead c z r o else .aluMemWrite c z r o) := by
  obtain ⟨htype, hdir, hz, hamf, hyx, hr⟩ := encodeType4_fields o dir z.code c.fn.code c.operandCode r
  rw [decode_type4 htype, decodeType4, hamf, amf_ofCode_aluCode, hdir, hz, hr]
  simp only [aluClauseOf_eq hyx, memOperandOf_encodeType4, aluDest_ofCode_code, dreg_ofCode_code]
  split <;> rfl

theorem decode_encodeType4_mac (c : MacClause) (z : MacDest) (dir : BitVec 1) (r : Dreg) (o : MemOperand) :
    decode (encodeType4 o dir z.code c.fn.code c.operandCode r) =
      .ok (if dir = 0#1 then .macMemRead c z r o else .macMemWrite c z r o) := by
  obtain ⟨htype, hdir, hz, hamf, hyx, hr⟩ := encodeType4_fields o dir z.code c.fn.code c.operandCode r
  rw [decode_type4 htype, decodeType4, hamf, amf_ofCode_macCode, hdir, hz, hr]
  simp only [macClauseOf_eq hyx, memOperandOf_encodeType4, macDest_ofCode_code, dreg_ofCode_code]
  split <;> rfl

theorem code_append_code_eq_AA {d1 d2 : Dreg} : d1.code ++ d2.code = 0xAA#8 ↔ d1 = .ar ∧ d2 = .ar := by
  cases d1 <;> cases d2 <;> decide

theorem decode_encodeType8_alu (c : AluClause) (z : AluDest) (d1 d2 : Dreg) :
    decode (encodeType8 z.code c.fn.code c.operandCode d1 d2) =
      .ok (if z = .ar ∧ d1 = .ar ∧ d2 = .ar then .aluStatusOnly c else .aluRegMove c z d1 d2) := by
  obtain ⟨htype, hz, hamf, hyx, h1, h2, h12⟩ := encodeType8_fields z.code c.fn.code c.operandCode d1 d2
  have har : z.code = 0#1 ↔ z = .ar := by cases z <;> decide
  rw [decode_type8 htype, decodeType8, hamf, amf_ofCode_aluCode, hz, h1, h2, h12]
  simp only [aluClauseOf_eq hyx, aluDest_ofCode_code, dreg_ofCode_code, code_append_code_eq_AA, har]
  split <;> rfl

theorem decode_encodeType8_mac (c : MacClause) (z : MacDest) (d1 d2 : Dreg) :
    decode (encodeType8 z.code c.fn.code c.operandCode d1 d2) = .ok (.macRegMove c z d1 d2) := by
  obtain ⟨htype, hz, hamf, hyx, h1, h2, -⟩ := encodeType8_fields z.code c.fn.code c.operandCode d1 d2
  rw [decode_type8 htype, decodeType8, hamf, amf_ofCode_macCode, hz, h1, h2]
  simp only [macClauseOf_eq hyx, macDest_ofCode_code, dreg_ofCode_code]

theorem shiftClauseOf_eq {w : Word24} {c : ShiftClause} (hfn : bits w 11 4 = c.fn.code) (hx : bits w 8 3 = c.x.code) :
    shiftClauseOf w = c := by
  simp only [shiftClauseOf, hfn, hx, shiftFn_ofCode_code, shiftX_ofCode_code]

theorem decode_encodeType12 (c : ShiftClause) (dir : BitVec 1) (r : Dreg) (o : MemOperand) :
    decode (encodeType12 o dir c r) = .ok (if dir = 0#1 then .shiftMemRead c r o else .shiftMemWrite c r o) := by
  obtain ⟨htype, hdir, hfn, hx, hr⟩ := encodeType12_fields o dir r c
  rw [decode_type12 htype, decodeType12, hdir, hr]
  simp only [shiftClauseOf_eq hfn hx, memOperandOf_encodeType12, dreg_ofCode_code]
  split <;> rfl

theorem decode_encodeType14 (c : ShiftClause) (d1 d2 : Dreg) :
    decode (encodeType14 c d1 d2) = .ok (.shiftRegMove c d1 d2) := by
  obtain ⟨htype, hfn, hx, h1, h2⟩ := encodeType14_fields d1 d2 c
  rw [decode_type14 htype, decodeType14, h1, h2]
  simp only [shiftClauseOf_eq hfn hx, dreg_ofCode_code]

/-- Settles O1: each opcode type's fields are read back from its word; well-formedness excludes the ALU_REG_MOVE whose
word is ALU_STATUS_ONLY's. -/
theorem decodeInvertsEncode : Obligations.DecodeInvertsEncode := by
  intro i hi
  cases i with
  | aluDualRead c d => exact decode_encodeType1_alu c d
  | macDualRead c d => exact decode_encodeType1_mac c d
  | dualRead d => exact decode_encodeType1_none d
  | aluMemRead c z dst o => exact decode_encodeType4_alu c z 0#1 dst o
  | macMemRead c z dst o => exact decode_encodeType4_mac c z 0#1 dst o
  | shiftMemRead c dst o => exact decode_encodeType12 c 0#1 dst o
  | aluMemWrite c z src o => exact decode_encodeType4_alu c z 1#1 src o
  | macMemWrite c z src o => exact decode_encodeType4_mac c z 1#1 src o
  | shiftMemWrite c src o => exact decode_encodeType12 c 1#1 src o
  | aluStatusOnly c => exact decode_encodeType8_alu c .ar .ar .ar
  | aluRegMove c z d1 d2 =>
    have hmove : ¬(z = .ar ∧ d1 = .ar ∧ d2 = .ar) := by
      rintro ⟨rfl, rfl, rfl⟩
      cases hi
    exact (decode_encodeType8_alu c z d1 d2).trans (by rw [if_neg hmove])
  | macRegMove c z d1 d2 => exact decode_encodeType8_mac c z d1 d2
  | shiftRegMove c d1 d2 => exact decode_encodeType14 c d1 d2

/-! ## Encoding what a word decodes to -/

section
variable {w : Word24}

/-- A Type 1 word is made of its fields. -/
theorem encodeType1_bits (h : bits w 22 2 = 0b11#2) : encodeType1 (dualReadsOf w) (bits w 13 5) (bits w 8 5) = w := by
  apply BitVec.eq_of_toNat_eq
  rw [bits_eq_iff] at h
  simp only [BitVec.toNat_ofNat] at h
  simp only [encodeType1_toNat, dualReadsOf, dregX_code_ofCode, dregY_code_ofCode, dagRegOfCode_val, bits_toNat]
  omega

/-- The mask of the fields that carry a meaning in DUAL_READ keeps every bit but 12 to 8. -/
theorem and_mask_eq (w : Word24) : w &&& 0xFFE0FF#24 = bits w 13 11 ++ (0#5 ++ bits w 0 8) := by
  apply BitVec.eq_of_getLsbD_eq
  intro k hk
  have hmask : (0xFFE0FF#24).getLsbD k = !decide (8 ≤ k ∧ k < 13) := by interval_cases k <;> rfl
  rw [BitVec.getLsbD_and, hmask]
  unfold bits
  erw [BitVec.getLsbD_append]
  rw [BitVec.getLsbD_append, BitVec.getLsbD_zero, BitVec.getLsbD_extractLsb', BitVec.getLsbD_extractLsb']
  by_cases h8 : k < 8
  · simp [h8, show k < 13 by omega]
  by_cases h13 : k < 13
  · simp [h8, h13]
    omega
  · simp [h13, show k - 13 < 11 by omega, show 13 + (k - 13) = k by omega]

theorem and_mask_toNat (w : Word24) : (w &&& 0xFFE0FF#24).toNat = w.toNat / 2 ^ 13 * 2 ^ 13 + w.toNat % 2 ^ 8 := by
  rw [and_mask_eq]
  erw [toNat_append_add]
  simp only [toNat_append_add, bits_toNat, BitVec.toNat_ofNat]
  have := w.isLt
  omega

/-- A DUAL_READ word is made of its fields, but for YOP and XOP. -/
theorem encodeType1_bits_masked (h : bits w 22 2 = 0b11#2) (hamf : bits w 13 5 = 0#5) :
    encodeType1 (dualReadsOf w) 0#5 0#5 = w &&& 0xFFE0FF#24 := by
  apply BitVec.eq_of_toNat_eq
  rw [bits_eq_iff] at h hamf
  simp only [BitVec.toNat_ofNat] at h hamf
  simp only [encodeType1_toNat, and_mask_toNat, dualReadsOf, dregX_code_ofCode, dregY_code_ofCode, dagRegOfCode_val,
    bits_toNat, BitVec.toNat_ofNat]
  omega

/-- A Type 4 word is made of its fields. -/
theorem encodeType4_bits (h : bits w 21 3 = 0b011#3) :
    encodeType4 (memOperandOf 20 w) (bits w 19 1) (bits w 18 1) (bits w 13 5) (bits w 8 5) (.ofCode (bits w 4 4)) =
      w := by
  apply BitVec.eq_of_toNat_eq
  rw [bits_eq_iff] at h
  simp only [BitVec.toNat_ofNat] at h
  simp only [encodeType4_toNat, memOperandOf, dag_code_ofCode, dreg_code_ofCode, dagRegOfCode_val, bits_toNat]
  omega

/-- A Type 8 word is made of its fields. -/
theorem encodeType8_bits (h : bits w 19 5 = 0b00101#5) :
    encodeType8 (bits w 18 1) (bits w 13 5) (bits w 8 5) (.ofCode (bits w 4 4)) (.ofCode (bits w 0 4)) = w := by
  apply BitVec.eq_of_toNat_eq
  rw [bits_eq_iff] at h
  simp only [BitVec.toNat_ofNat] at h
  simp only [encodeType8_toNat, dreg_code_ofCode, bits_toNat]
  omega

/-- A Type 12 word is made of its fields. -/
theorem encodeType12_bits (h : bits w 17 7 = 0b0001001#7) :
    encodeType12 (memOperandOf 16 w) (bits w 15 1) (shiftClauseOf w) (.ofCode (bits w 4 4)) = w := by
  apply BitVec.eq_of_toNat_eq
  rw [bits_eq_iff] at h
  simp only [BitVec.toNat_ofNat] at h
  simp only [encodeType12_toNat, memOperandOf, shiftClauseOf, dag_code_ofCode, dreg_code_ofCode, shiftFn_code_ofCode,
    shiftX_code_ofCode, dagRegOfCode_val, bits_toNat]
  omega

/-- A Type 14 word is made of its fields. -/
theorem encodeType14_bits (h : bits w 15 9 = 0b000100000#9) :
    encodeType14 (shiftClauseOf w) (.ofCode (bits w 4 4)) (.ofCode (bits w 0 4)) = w := by
  apply BitVec.eq_of_toNat_eq
  rw [bits_eq_iff] at h
  simp only [BitVec.toNat_ofNat] at h
  simp only [encodeType14_toNat, shiftClauseOf, dreg_code_ofCode, shiftFn_code_ofCode, shiftX_code_ofCode, bits_toNat]
  omega

/-- Encoding gives a Type 1 word back, but for the fields that carry no meaning in DUAL_READ. -/
theorem encode_of_decodeType1 {i : Instr} (htype : bits w 22 2 = 0b11#2) (h : decodeType1 w = .ok i) :
    (encode i = w ∧ ∀ d, i ≠ .dualRead d) ∨
      (bits w 13 5 = 0#5 ∧ i = .dualRead (dualReadsOf w) ∧ encode i = w &&& 0xFFE0FF#24) := by
  have hw := encodeType1_bits htype
  unfold decodeType1 at h
  cases hamf : Amf.ofCode (bits w 13 5) with
  | noOperation =>
    have hcode := amf_code_of_noOperation hamf
    rw [hamf] at h
    obtain rfl := Except.ok.inj h
    exact .inr ⟨hcode, rfl, encodeType1_bits_masked htype hcode⟩
  | mac fn =>
    rw [hamf] at h
    obtain rfl := Except.ok.inj h
    refine .inl ⟨?_, nofun⟩
    rwa [encode, macClauseOf_operandCode, macClauseOf_fn, amf_code_of_mac hamf]
  | alu fn =>
    rw [hamf] at h
    obtain rfl := Except.ok.inj h
    refine .inl ⟨?_, nofun⟩
    rwa [encode, aluClauseOf_operandCode, aluClauseOf_fn, amf_code_of_alu hamf]

theorem encode_of_decodeType4 {i : Instr} (htype : bits w 21 3 = 0b011#3) (h : decodeType4 w = .ok i) :
    encode i = w ∧ ∀ d, i ≠ .dualRead d := by
  have hw := encodeType4_bits htype
  unfold decodeType4 at h
  cases hamf : Amf.ofCode (bits w 13 5) with
  | noOperation =>
    rw [hamf] at h
    cases h
  | mac fn =>
    rw [hamf] at h
    obtain hdir | hdir := BitVec.eq_zero_or_eq_one (bits w 19 1)
    all_goals
      rw [hdir] at h hw
      obtain rfl := Except.ok.inj h
      refine ⟨?_, nofun⟩
      rwa [encode, macClauseOf_operandCode, macClauseOf_fn, amf_code_of_mac hamf, macDest_code_ofCode]
  | alu fn =>
    rw [hamf] at h
    obtain hdir | hdir := BitVec.eq_zero_or_eq_one (bits w 19 1)
    all_goals
      rw [hdir] at h hw
      obtain rfl := Except.ok.inj h
      refine ⟨?_, nofun⟩
      rwa [encode, aluClauseOf_operandCode, aluClauseOf_fn, amf_code_of_alu hamf, aluDest_code_ofCode]

theorem encode_of_decodeType8 {i : Instr} (htype : bits w 19 5 = 0b00101#5) (h : decodeType8 w = .ok i) :
    encode i = w ∧ ∀ d, i ≠ .dualRead d := by
  have hw := encodeType8_bits htype
  unfold decodeType8 at h
  cases hamf : Amf.ofCode (bits w 13 5) with
  | noOperation =>
    rw [hamf] at h
    cases h
  | mac fn =>
    rw [hamf] at h
    obtain rfl := Except.ok.inj h
    refine ⟨?_, nofun⟩
    rwa [encode, macClauseOf_operandCode, macClauseOf_fn, amf_code_of_mac hamf, macDest_code_ofCode]
  | alu fn =>
    rw [hamf] at h
    dsimp only at h
    split at h
    next hstatus =>
      obtain ⟨hz, hmove⟩ := hstatus
      obtain rfl := Except.ok.inj h
      refine ⟨?_, nofun⟩
      obtain ⟨h1, h2⟩ := move_fields hmove
      rw [hz, h1, h2] at hw
      rwa [encode, aluClauseOf_operandCode, aluClauseOf_fn, amf_code_of_alu hamf]
    next =>
      obtain rfl := Except.ok.inj h
      refine ⟨?_, nofun⟩
      rwa [encode, aluClauseOf_operandCode, aluClauseOf_fn, amf_code_of_alu hamf, aluDest_code_ofCode]

theorem encode_of_decodeType12 {i : Instr} (htype : bits w 17 7 = 0b0001001#7) (h : decodeType12 w = .ok i) :
    encode i = w ∧ ∀ d, i ≠ .dualRead d := by
  have hw := encodeType12_bits htype
  unfold decodeType12 at h
  obtain hdir | hdir := BitVec.eq_zero_or_eq_one (bits w 15 1)
  all_goals
    rw [hdir] at h hw
    obtain rfl := Except.ok.inj h
    exact ⟨hw, nofun⟩

theorem encode_of_decodeType14 {i : Instr} (htype : bits w 15 9 = 0b000100000#9) (h : decodeType14 w = .ok i) :
    encode i = w ∧ ∀ d, i ≠ .dualRead d := by
  obtain rfl := Except.ok.inj h
  exact ⟨encodeType14_bits htype, nofun⟩

/-- Encoding gives a word back that decodes, but for DUAL_READ's fields that carry no meaning. -/
theorem encode_of_decode {i : Instr} (h : decode w = .ok i) :
    (encode i = w ∧ ∀ d, i ≠ .dualRead d) ∨
      (bits w 22 2 = 0b11#2 ∧ bits w 13 5 = 0#5 ∧ i = .dualRead (dualReadsOf w) ∧ encode i = w &&& 0xFFE0FF#24) := by
  obtain ⟨htype, hw⟩ | ⟨htype, hw⟩ | ⟨htype, hw⟩ | ⟨htype, hw⟩ | ⟨htype, hw⟩ | ⟨-, -, -, -, -, hw⟩ := decode_cases w
  · exact (encode_of_decodeType1 htype (hw.symm.trans h)).imp_right fun hd => ⟨htype, hd⟩
  · exact .inl (encode_of_decodeType4 htype (hw.symm.trans h))
  · exact .inl (encode_of_decodeType8 htype (hw.symm.trans h))
  · exact .inl (encode_of_decodeType12 htype (hw.symm.trans h))
  · exact .inl (encode_of_decodeType14 htype (hw.symm.trans h))
  · cases hw.symm.trans h

end

/-- Settles O2: a word of each opcode type is made of its fields. -/
theorem encodeRestoresDecodedWord : Obligations.EncodeRestoresDecodedWord := by
  intro w i h
  obtain ⟨hw, hne⟩ | ⟨-, -, rfl, hw⟩ := encode_of_decode h
  · split
    next d => exact absurd rfl (hne d)
    next => exact hw
  · exact hw

/-! ## The rows of the opcode table -/

/-- The word of an instruction has the fixed bits of the instruction's row. -/
theorem encode_fits_row (i : Instr) : ∀ f ∈ i.fixedFields, f.fits (encode i) := by
  cases i with
  | aluDualRead c d => exact Laws.EncodeFitsRow.aluDualRead c d
  | macDualRead c d => exact Laws.EncodeFitsRow.macDualRead c d
  | dualRead d => exact Laws.EncodeFitsRow.dualRead d
  | aluMemRead c z dst o => exact Laws.EncodeFitsRow.aluMemRead c z dst o
  | macMemRead c z dst o => exact Laws.EncodeFitsRow.macMemRead c z dst o
  | shiftMemRead c dst o => exact Laws.EncodeFitsRow.shiftMemRead c dst o
  | aluMemWrite c z src o => exact Laws.EncodeFitsRow.aluMemWrite c z src o
  | macMemWrite c z src o => exact Laws.EncodeFitsRow.macMemWrite c z src o
  | shiftMemWrite c src o => exact Laws.EncodeFitsRow.shiftMemWrite c src o
  | aluStatusOnly c => exact Laws.EncodeFitsRow.aluStatusOnly c
  | aluRegMove c z d1 d2 => exact Laws.EncodeFitsRow.aluRegMove c z d1 d2
  | macRegMove c z d1 d2 => exact Laws.EncodeFitsRow.macRegMove c z d1 d2
  | shiftRegMove c d1 d2 => exact Laws.EncodeFitsRow.shiftRegMove c d1 d2

/-- Settles O3: the word is that of the instruction, which fits its row; DUAL_READ's row fixes no bit that the encoder
clears. -/
theorem decodedWordFitsItsRow : Obligations.DecodedWordFitsItsRow := by
  intro w i h
  obtain ⟨hw, -⟩ | ⟨htype, hamf, rfl, -⟩ := encode_of_decode h
  · exact hw ▸ encode_fits_row i
  · intro f hf
    simp only [Instr.fixedFields, List.mem_cons, List.not_mem_nil, or_false] at hf
    obtain rfl | rfl := hf
    · exact congrArg BitVec.toNat hamf
    · exact congrArg BitVec.toNat htype

/-- A word that fits the row of an instruction is of one of the five opcode types. -/
theorem type_of_fits {i : Instr} {w : Word24} (h : ∀ f ∈ i.fixedFields, f.fits w) :
    bits w 22 2 = 0b11#2 ∨ bits w 21 3 = 0b011#3 ∨ bits w 19 5 = 0b00101#5 ∨ bits w 17 7 = 0b0001001#7 ∨
      bits w 15 9 = 0b000100000#9 := by
  have hfit {lo len v : Nat} (hf : ⟨lo, len, v⟩ ∈ i.fixedFields) : w.toNat / 2 ^ lo % 2 ^ len = v :=
    (bits_toNat w lo len).symm.trans (h ⟨lo, len, v⟩ hf)
  simp only [bits_eq_iff, BitVec.toNat_ofNat]
  cases i with
  | aluDualRead | macDualRead | dualRead => exact .inl (hfit (lo := 22) (by simp [Instr.fixedFields]))
  | aluMemRead | macMemRead | aluMemWrite | macMemWrite =>
    exact .inr (.inl (hfit (lo := 21) (by simp [Instr.fixedFields])))
  | aluRegMove | macRegMove => exact .inr (.inr (.inl (hfit (lo := 19) (by simp [Instr.fixedFields]))))
  | aluStatusOnly =>
    have h17 := hfit (lo := 17) (len := 7) (v := 21) (by simp [Instr.fixedFields])
    exact .inr (.inr (.inl (by omega)))
  | shiftMemRead | shiftMemWrite =>
    exact .inr (.inr (.inr (.inl (hfit (lo := 17) (by simp [Instr.fixedFields])))))
  | shiftRegMove => exact .inr (.inr (.inr (.inr (hfit (lo := 15) (by simp [Instr.fixedFields])))))

theorem decodeType1_ne_error (w : Word24) (e : DecodeError) : decodeType1 w ≠ .error e := by
  unfold decodeType1
  split <;> nofun

theorem decodeType4_eq_error {w : Word24} {e : DecodeError} (h : decodeType4 w = .error e) :
    e = .noCompute ∧ bits w 13 5 = 0#5 := by
  unfold decodeType4 at h
  dsimp only at h
  split at h
  next hamf => exact ⟨(Except.error.inj h).symm, amf_code_of_noOperation hamf⟩
  next => split at h <;> cases h
  next => split at h <;> cases h

theorem decodeType8_eq_error {w : Word24} {e : DecodeError} (h : decodeType8 w = .error e) :
    e = .noCompute ∧ bits w 13 5 = 0#5 := by
  unfold decodeType8 at h
  dsimp only at h
  split at h
  next hamf => exact ⟨(Except.error.inj h).symm, amf_code_of_noOperation hamf⟩
  next => cases h
  next => split at h <;> cases h

theorem decodeType12_ne_error (w : Word24) (e : DecodeError) : decodeType12 w ≠ .error e := by
  unfold decodeType12
  dsimp only
  split <;> nofun

/-- Settles O4: of the words of an opcode type only those of Types 4 and 8 without a function are rejected, and every
row is of an opcode type. -/
theorem rejectedWordFitsNoRow : Obligations.RejectedWordFitsNoRow := by
  intro w e h
  obtain ⟨-, hw⟩ | ⟨htype, hw⟩ | ⟨htype, hw⟩ | ⟨-, hw⟩ | ⟨-, hw⟩ | ⟨h1, h4, h8, h12, h14, hw⟩ := decode_cases w
  · exact absurd (hw.symm.trans h) (decodeType1_ne_error w e)
  · obtain ⟨he, hamf⟩ := decodeType4_eq_error (hw.symm.trans h)
    exact .inr ⟨he, hamf, .inl htype⟩
  · obtain ⟨he, hamf⟩ := decodeType8_eq_error (hw.symm.trans h)
    exact .inr ⟨he, hamf, .inr htype⟩
  · exact absurd (hw.symm.trans h) (decodeType12_ne_error w e)
  · cases hw.symm.trans h
  · refine .inl ⟨(Except.error.inj (hw.symm.trans h)).symm, fun i hi => ?_⟩
    obtain ht | ht | ht | ht | ht := type_of_fits hi
    · exact h1 ht
    · exact h4 ht
    · exact h8 ht
    · exact h12 ht
    · exact h14 ht

/-- Settles O5, word by word. -/
theorem specExampleWordsDecode : Obligations.SpecExampleWordsDecode :=
  ⟨rfl, rfl, rfl, rfl, rfl, rfl, rfl, rfl, rfl, rfl, rfl, rfl, rfl, rfl, rfl⟩

end Sys2Proof

/-!
Well-formedness, register by register (R115, R116): when a result register and a data move have a register in common.
-/

namespace Sys2Proof

@[simp] theorem alu_dest_eq_ar {c : AluClause} {z : AluDest} : (ComputeOp.alu c z).dest = .ar ↔ z = .ar := by
  cases z <;> simp [ComputeOp.dest]
@[simp] theorem alu_dest_ne_mr (c : AluClause) (z : AluDest) : (ComputeOp.alu c z).dest ≠ .mr := by
  cases z <;> simp [ComputeOp.dest]
@[simp] theorem alu_dest_ne_sr (c : AluClause) (z : AluDest) : (ComputeOp.alu c z).dest ≠ .sr := by
  cases z <;> simp [ComputeOp.dest]
@[simp] theorem mac_dest_ne_ar (c : MacClause) (z : MacDest) : (ComputeOp.mac c z).dest ≠ .ar := by
  cases z <;> simp [ComputeOp.dest]
@[simp] theorem mac_dest_eq_mr {c : MacClause} {z : MacDest} : (ComputeOp.mac c z).dest = .mr ↔ z = .mr := by
  cases z <;> simp [ComputeOp.dest]
@[simp] theorem mac_dest_eq_sr {c : MacClause} {z : MacDest} : (ComputeOp.mac c z).dest = .sr ↔ z = .sr := by
  cases z <;> simp [ComputeOp.dest]
@[simp] theorem shift_dest (c : ShiftClause) : (ComputeOp.shift c).dest = c.fn.dest := rfl
@[simp] theorem shiftFn_dest_ne_ar (f : ShiftFn) : f.dest ≠ .ar := by cases f <;> simp [ShiftFn.dest]
@[simp] theorem shiftFn_dest_ne_mr (f : ShiftFn) : f.dest ≠ .mr := by cases f <;> simp [ShiftFn.dest]

/-- R115, R17: a data move writes a part of a result register if its destination is AR or a part of MR or SR. -/
theorem mw_meets_dregs (rr : ResultReg) (dst : Dreg) :
    (∃ r ∈ rr.dregs, r ∈ dst.mw) ↔
      (rr = .ar ∧ dst = .ar) ∨ (rr = .mr ∧ dst ∈ [.mr0, .mr1, .mr2]) ∨ (rr = .sr ∧ dst ∈ [.sr0, .sr1, .sr2]) := by
  cases rr <;> cases dst <;> decide

theorem sameDestination_iff {op : ComputeOp} {dst : Dreg} :
    sameDestination op dst = true ↔ (op.dest = .ar ∧ dst = .ar) ∨ (op.dest = .mr ∧ dst ∈ [.mr0, .mr1, .mr2]) ∨
      (op.dest = .sr ∧ dst ∈ [.sr0, .sr1, .sr2]) := by
  rw [← mw_meets_dregs]
  simp [sameDestination, ComputeOp.cw]

theorem sr2Source_iff {op : ComputeOp} {src : Dreg} :
    sr2Source op src = true ↔ op.dest = .sr ∧ src = .sr2 := by
  have hmem (rr : ResultReg) : .sr2 ∈ rr.dregs ↔ rr = .sr := by cases rr <;> decide
  simp [sr2Source, ComputeOp.cw, hmem, and_comm]

theorem sameDestination_alu {c : AluClause} {z : AluDest} {dst : Dreg} :
    sameDestination (.alu c z) dst = true ↔ z = .ar ∧ dst = .ar := by
  simp [sameDestination_iff]

theorem sameDestination_mac {c : MacClause} {z : MacDest} {dst : Dreg} :
    sameDestination (.mac c z) dst = true ↔
      (z = .mr ∧ dst ∈ [.mr0, .mr1, .mr2]) ∨ (z = .sr ∧ dst ∈ [.sr0, .sr1, .sr2]) := by
  simp [sameDestination_iff]

theorem sameDestination_shift {c : ShiftClause} {dst : Dreg} :
    sameDestination (.shift c) dst = true ↔ c.fn.dest = .sr ∧ dst ∈ [.sr0, .sr1, .sr2] := by
  simp [sameDestination_iff]

@[simp] theorem sr2Source_alu (c : AluClause) (z : AluDest) (src : Dreg) : sr2Source (.alu c z) src = false := by
  simp [Bool.eq_false_iff, sr2Source_iff]

theorem sr2Source_mac {c : MacClause} {z : MacDest} {src : Dreg} :
    sr2Source (.mac c z) src = true ↔ z = .sr ∧ src = .sr2 := by
  simp [sr2Source_iff]

theorem sr2Source_shift {c : ShiftClause} {src : Dreg} :
    sr2Source (.shift c) src = true ↔ c.fn.dest = .sr ∧ src = .sr2 := by
  simp [sr2Source_iff]

/-! The same, as the statements' hypotheses spell it. -/

theorem sameDestination_alu_eq_false {c : AluClause} {z : AluDest} {dst : Dreg} :
    sameDestination (.alu c z) dst = false ↔ ¬(z = .ar ∧ dst = .ar) := by
  rw [Bool.eq_false_iff, ne_eq, sameDestination_alu]

theorem sameDestination_mac_eq_false {c : MacClause} {z : MacDest} {dst : Dreg} :
    sameDestination (.mac c z) dst = false ↔
      (z = .mr → dst ∉ [.mr0, .mr1, .mr2]) ∧ (z = .sr → dst ∉ [.sr0, .sr1, .sr2]) := by
  rw [Bool.eq_false_iff, ne_eq, sameDestination_mac, not_or, not_and, not_and]

theorem sameDestination_shift_eq_false {c : ShiftClause} {dst : Dreg} :
    sameDestination (.shift c) dst = false ↔ (c.fn.dest = .sr → dst ∉ [.sr0, .sr1, .sr2]) := by
  rw [Bool.eq_false_iff, ne_eq, sameDestination_shift, not_and]

theorem sr2Source_mac_eq_false {c : MacClause} {z : MacDest} {src : Dreg} :
    sr2Source (.mac c z) src = false ↔ ¬(z = .sr ∧ src = .sr2) := by
  rw [Bool.eq_false_iff, ne_eq, sr2Source_mac]

theorem sr2Source_shift_eq_false {c : ShiftClause} {src : Dreg} :
    sr2Source (.shift c) src = false ↔ ¬(c.fn.dest = .sr ∧ src = .sr2) := by
  rw [Bool.eq_false_iff, ne_eq, sr2Source_shift]

/-! ## Which instructions are well formed -/

theorem wellFormed_aluMemWrite (c : AluClause) (z : AluDest) (src : Dreg) (o : MemOperand) :
    WellFormed (.aluMemWrite c z src o) := by
  simp [WellFormed, Instr.check]

section
variable {ca : AluClause} {cm : MacClause} {cs : ShiftClause} {za : AluDest} {zm : MacDest} {d1 d2 : Dreg}
  {o : MemOperand}

theorem wellFormed_aluMemRead : WellFormed (.aluMemRead ca za d1 o) ↔ sameDestination (.alu ca za) d1 = false := by
  simp [WellFormed, Instr.check]

theorem wellFormed_macMemRead : WellFormed (.macMemRead cm zm d1 o) ↔ sameDestination (.mac cm zm) d1 = false := by
  simp [WellFormed, Instr.check]

theorem wellFormed_shiftMemRead : WellFormed (.shiftMemRead cs d1 o) ↔ sameDestination (.shift cs) d1 = false := by
  simp [WellFormed, Instr.check]

theorem wellFormed_macMemWrite : WellFormed (.macMemWrite cm zm d1 o) ↔ sr2Source (.mac cm zm) d1 = false := by
  simp [WellFormed, Instr.check]

theorem wellFormed_shiftMemWrite : WellFormed (.shiftMemWrite cs d1 o) ↔ sr2Source (.shift cs) d1 = false := by
  simp [WellFormed, Instr.check]

theorem wellFormed_aluRegMove :
    WellFormed (.aluRegMove ca za d1 d2) ↔ ¬(d1 = .ar ∧ d2 = .ar) ∧ sameDestination (.alu ca za) d1 = false := by
  by_cases h : d1 = .ar ∧ d2 = .ar
  · cases za <;> simp [WellFormed, Instr.check, h]
  · simp [WellFormed, Instr.check, h]

theorem moveCheck_eq_none {op : ComputeOp} :
    moveCheck op d1 d2 = none ↔
      ¬(d1 = .ar ∧ d2 = .ar) ∧ sameDestination op d1 = false ∧ sr2Source op d2 = false := by
  by_cases h : d1 = .ar ∧ d2 = .ar
  · simp [moveCheck, h]
  · cases hdest : sameDestination op d1 <;> simp [moveCheck, h, hdest]

end

end Sys2Proof

/-!
Proofs of the statements on the assembly text: what a text spells is well formed, which texts spell nothing, and the
names of the refusals of two reads (R91).
-/

namespace Sys2Proof.Machine

open Sys2Proof

/-! ## What each part of a text is read as -/

theorem bind_eq_ok {ε α β : Type} {x : Except ε α} {f : α → Except ε β} {b : β} :
    (x >>= f) = .ok b ↔ ∃ a, x = .ok a ∧ f a = .ok b := by
  cases x with
  | error e => exact ⟨nofun, fun ⟨_, h, _⟩ => nomatch h⟩
  | ok a => exact ⟨fun h => ⟨a, rfl, h⟩, fun ⟨_, ha, h⟩ => Except.ok.inj ha ▸ h⟩

theorem checked_eq_ok {i j : Instr} (h : checked i = .ok j) : i = j ∧ WellFormed j := by
  unfold checked at h
  split at h
  next hi =>
    obtain rfl := Except.ok.inj h
    exact ⟨rfl, hi⟩
  next => cases h

/-- A memory operand is a post-modify with both registers of one generator, its own (R20). -/
theorem operandOfText_eq_ok {a : AddrText} {o : MemOperand} (h : operandOfText a = .ok o) :
    ∃ i m : Fin 8, a = .postModify i m ∧
      ((i.val < 4 ∧ m.val < 4 ∧ o.dag = .dag1) ∨ (4 ≤ i.val ∧ 4 ≤ m.val ∧ o.dag = .dag2)) := by
  cases a with
  | postModify i m =>
    refine ⟨i, m, rfl, ?_⟩
    by_cases hi : i.val < 4 <;> by_cases hm : m.val < 4
    · rw [operandOfText_dag1 hi hm] at h
      exact .inl ⟨hi, hm, Except.ok.inj h ▸ rfl⟩
    · rw [operandOfText_crossed (by omega)] at h
      cases h
    · rw [operandOfText_crossed (by omega)] at h
      cases h
    · rw [operandOfText_dag2 (by omega) (by omega)] at h
      exact .inr ⟨by omega, by omega, Except.ok.inj h ▸ rfl⟩
  | noModify | postImmediate | preModify => cases h

theorem dregXOfText_ne_none {r : RegName} :
    dregXOfText r ≠ none ↔ r ∈ [.dreg .ax0, .dreg .ax1, .dreg .mx0, .dreg .mx1] := by
  unfold dregXOfText
  split <;> simp_all

theorem dregYOfText_ne_none {r : RegName} :
    dregYOfText r ≠ none ↔ r ∈ [.dreg .ay0, .dreg .ay1, .dreg .my0, .dreg .my1] := by
  unfold dregYOfText
  split <;> simp_all

/-- The two reads of a dual-read form are of their generators and have destinations of DREGX and DREGY (R45). -/
theorem dualOfText_eq_ok {dx dy : RegName} {dm pm : AddrText} {d : DualReads} (h : dualOfText dx dm dy pm = .ok d) :
    ∃ aD bD aP bP : Fin 8, dm = .postModify aD bD ∧ pm = .postModify aP bP ∧
      dx ∈ [.dreg .ax0, .dreg .ax1, .dreg .mx0, .dreg .mx1] ∧ aD.val < 4 ∧ bD.val < 4 ∧
      dy ∈ [.dreg .ay0, .dreg .ay1, .dreg .my0, .dreg .my1] ∧ 4 ≤ aP.val ∧ 4 ≤ bP.val := by
  unfold dualOfText at h
  split at h
  next oD oP hD hP =>
    split at h
    next hbus =>
      obtain ⟨hD1, hP2⟩ := hbus
      split at h
      next x y hx hy =>
        obtain ⟨aD, bD, rfl, ⟨haD, hbD, -⟩ | ⟨-, -, hne⟩⟩ := operandOfText_eq_ok hD
        · obtain ⟨aP, bP, rfl, ⟨-, -, hne⟩ | ⟨haP, hbP, -⟩⟩ := operandOfText_eq_ok hP
          · cases hne.symm.trans hP2
          · exact ⟨aD, bD, aP, bP, rfl, rfl, dregXOfText_ne_none.1 (by simp [hx]), haD, hbD,
              dregYOfText_ne_none.1 (by simp [hy]), haP, hbP⟩
        · cases hne.symm.trans hD1
      next => cases h
    next => cases h
  next => cases h
  next => cases h

/-- Two reads of a dual-read form are spelled `DM` and `PM`, in either order (R72). -/
theorem readsOfText_eq_ok {r1 r2 : RegName × MemText} {d : DualReads} (h : readsOfText r1 r2 = .ok d) :
    ∃ (rD rP : RegName) (aD bD aP bP : Fin 8),
      [r1, r2].Perm [(rD, ⟨.dm, .postModify aD bD⟩), (rP, ⟨.pm, .postModify aP bP⟩)] ∧
      rD ∈ [.dreg .ax0, .dreg .ax1, .dreg .mx0, .dreg .mx1] ∧ aD.val < 4 ∧ bD.val < 4 ∧
      rP ∈ [.dreg .ay0, .dreg .ay1, .dreg .my0, .dreg .my1] ∧ 4 ≤ aP.val ∧ 4 ≤ bP.val := by
  obtain ⟨n1, sp1, a1⟩ := r1
  obtain ⟨n2, sp2, a2⟩ := r2
  cases sp1 <;> cases sp2
  case dm.pm =>
    obtain ⟨aD, bD, aP, bP, rfl, rfl, hrest⟩ := dualOfText_eq_ok h
    exact ⟨n1, n2, aD, bD, aP, bP, .refl _, hrest⟩
  case pm.dm =>
    obtain ⟨aD, bD, aP, bP, rfl, rfl, hrest⟩ := dualOfText_eq_ok h
    exact ⟨n2, n1, aD, bD, aP, bP, .swap .., hrest⟩
  all_goals cases h

/-- A compute clause that is read has no condition and is none of the excluded expressions (R78, R91). -/
theorem computeOfText_eq_ok {c : ComputeText} {o : ClauseOp} (h : computeOfText c = .ok o) :
    c.conditional = false ∧
      ((∃ fn x y, c.expr = .alu fn x y ∧ aluOfText fn x y c.result = .ok o) ∨
       (∃ fn x y, c.expr = .mac fn x y ∧ macOfText fn x y c.result = .ok o) ∨
       (∃ fn x, c.expr = .shift fn x ∧ shiftOfText fn x c.result = .ok o)) := by
  obtain ⟨conditional, result, expr⟩ := c
  cases conditional with
  | true => cases h
  | false =>
    refine ⟨rfl, ?_⟩
    cases expr with
    | alu fn x y => exact .inl ⟨fn, x, y, rfl, h⟩
    | mac fn x y => exact .inr (.inl ⟨fn, x, y, rfl, h⟩)
    | shift fn x => exact .inr (.inr ⟨fn, x, rfl, h⟩)
    | macSaturate | divs | divq | shiftImmediate => cases h

theorem aluOfText_eq_ok {fn : AluFn} {x y : OperandText} {result : ResultText} {o : ClauseOp}
    (h : aluOfText fn x y result = .ok o) :
    aluXOfText x ≠ none ∧ aluYOfText y ≠ none ∧
      ((result = .reg .ar ∧ ∃ c, o = .op (.alu c .ar)) ∨ (result = .reg .af ∧ ∃ c, o = .op (.alu c .af)) ∨
       (∃ c, o = .noneAlu c) ∨ o = .otherResult false) := by
  unfold aluOfText at h
  split at h
  next cx cy hx hy =>
    refine ⟨by simp [hx], by simp [hy], ?_⟩
    split at h
    · exact .inl ⟨rfl, _, (Except.ok.inj h).symm⟩
    · exact .inr (.inl ⟨rfl, _, (Except.ok.inj h).symm⟩)
    · exact .inr (.inr (.inl ⟨_, (Except.ok.inj h).symm⟩))
    · exact .inr (.inr (.inr (Except.ok.inj h).symm))
  next => cases h

theorem macOfText_eq_ok {fn : MacFn} {x y : OperandText} {result : ResultText} {o : ClauseOp}
    (h : macOfText fn x y result = .ok o) :
    macXOfText x ≠ none ∧ macYOfText y ≠ none ∧
      ((result = .reg .mr ∧ ∃ c, o = .op (.mac c .mr)) ∨ (result = .reg .sr ∧ ∃ c, o = .op (.mac c .sr)) ∨
       o = .otherResult false) := by
  unfold macOfText at h
  split at h
  next cx cy hx hy =>
    refine ⟨by simp [hx], by simp [hy], ?_⟩
    split at h
    · exact .inl ⟨rfl, _, (Except.ok.inj h).symm⟩
    · exact .inr (.inl ⟨rfl, _, (Except.ok.inj h).symm⟩)
    · exact .inr (.inr (Except.ok.inj h).symm)
  next => cases h

theorem shiftOfText_eq_ok {fn : ShiftFn} {x : OperandText} {result : ResultText} {o : ClauseOp}
    (h : shiftOfText fn x result = .ok o) :
    shiftXOfText x ≠ none ∧ ((∃ c, o = .op (.shift c)) ∨ o = .otherResult true) := by
  unfold shiftOfText at h
  split at h
  next cx hx =>
    refine ⟨by simp [hx], ?_⟩
    split at h
    · exact .inl ⟨_, (Except.ok.inj h).symm⟩
    · exact .inr (Except.ok.inj h).symm
  next => cases h

/-- Beside two reads stands an ALU clause to AR or a MAC clause to MR (R73). -/
theorem dualReadOfText_eq_ok {o : ClauseOp} {d : DualReads} {i : Instr} (h : dualReadOfText o d = .ok i) :
    (∃ c, o = .op (.alu c .ar)) ∨ ∃ c, o = .op (.mac c .mr) := by
  unfold dualReadOfText at h
  split at h
  · exact .inl ⟨_, rfl⟩
  · exact .inr ⟨_, rfl⟩
  all_goals cases h

/-! ## What a text that spells an instruction is made of -/

/-- Through which of the forms a text spells an instruction (R73 to R77, R79). -/
theorem assemble_eq_ok {t : Text} {i : Instr} (h : assemble t = .ok i) :
    WellFormed i ∧
    ((∃ r1 r2 d, computesOf t = [] ∧ readsOf t = [r1, r2] ∧ writesOf t = [] ∧ readsOfText r1 r2 = .ok d) ∨
     (∃ c r1 r2 o d, computesOf t = [c] ∧ readsOf t = [r1, r2] ∧ writesOf t = [] ∧ computeOfText c = .ok o ∧
       readsOfText r1 r2 = .ok d ∧ dualReadOfText o d = .ok i) ∨
     (∃ c r o m, computesOf t = [c] ∧ readsOf t = [r] ∧ writesOf t = [] ∧ computeOfText c = .ok o ∧
       operandOfText r.2.addr = .ok m) ∨
     (∃ c w o m, computesOf t = [c] ∧ readsOf t = [] ∧ writesOf t = [w] ∧ computeOfText c = .ok o ∧
       operandOfText w.1.addr = .ok m) ∨
     (∃ c o, computesOf t = [c] ∧ readsOf t = [] ∧ writesOf t = [] ∧ computeOfText c = .ok o)) := by
  unfold assemble at h
  split at h
  next r1 r2 hc hr hw hv =>
    obtain ⟨d, hd, h⟩ := bind_eq_ok.1 h
    exact ⟨(checked_eq_ok h).2, .inl ⟨r1, r2, d, hc, hr, hw, hd⟩⟩
  next c r1 r2 hc hr hw hv =>
    obtain ⟨o, ho, h⟩ := bind_eq_ok.1 h
    obtain ⟨d, hd, h⟩ := bind_eq_ok.1 h
    obtain ⟨j, hj, h⟩ := bind_eq_ok.1 h
    obtain ⟨rfl, hi⟩ := checked_eq_ok h
    exact ⟨hi, .inr (.inl ⟨c, r1, r2, o, d, hc, hr, hw, ho, hd, hj⟩)⟩
  next c r hc hr hw hv =>
    obtain ⟨o, ho, h⟩ := bind_eq_ok.1 h
    obtain ⟨dst, -, h⟩ := bind_eq_ok.1 h
    obtain ⟨m, hm, h⟩ := bind_eq_ok.1 h
    obtain ⟨j, -, h⟩ := bind_eq_ok.1 h
    exact ⟨(checked_eq_ok h).2, .inr (.inr (.inl ⟨c, r, o, m, hc, hr, hw, ho, hm⟩))⟩
  next c w hc hr hw hv =>
    obtain ⟨o, ho, h⟩ := bind_eq_ok.1 h
    obtain ⟨src, -, h⟩ := bind_eq_ok.1 h
    obtain ⟨m, hm, h⟩ := bind_eq_ok.1 h
    obtain ⟨j, -, h⟩ := bind_eq_ok.1 h
    exact ⟨(checked_eq_ok h).2, .inr (.inr (.inr (.inl ⟨c, w, o, m, hc, hr, hw, ho, hm⟩)))⟩
  next c v hc hr hw hv =>
    obtain ⟨o, ho, h⟩ := bind_eq_ok.1 h
    obtain ⟨d1, -, h⟩ := bind_eq_ok.1 h
    obtain ⟨d2, -, h⟩ := bind_eq_ok.1 h
    obtain ⟨j, -, h⟩ := bind_eq_ok.1 h
    exact ⟨(checked_eq_ok h).2, .inr (.inr (.inr (.inr ⟨c, o, hc, hr, hw, ho⟩)))⟩
  next c hc hr hw hv =>
    obtain ⟨o, ho, h⟩ := bind_eq_ok.1 h
    split at h
    next => exact ⟨(checked_eq_ok h).2, .inr (.inr (.inr (.inr ⟨c, _, hc, hr, hw, ho⟩)))⟩
    next => cases h
  next => cases h

/-- Settles O7: a text spells an instruction only if that passes the checks. -/
theorem assembledInstructionsAreWellFormed : Obligations.AssembledInstructionsAreWellFormed := by
  intro t i h
  obtain ⟨hi, -⟩ := assemble_eq_ok h
  refine ⟨hi, ?_⟩
  cases i with
  | aluDualRead | macDualRead | dualRead | aluMemWrite | aluStatusOnly => trivial
  | aluMemRead c z dst o => exact sameDestination_alu_eq_false.1 (wellFormed_aluMemRead.1 hi)
  | macMemRead c z dst o => exact sameDestination_mac_eq_false.1 (wellFormed_macMemRead.1 hi)
  | shiftMemRead c dst o => exact sameDestination_shift_eq_false.1 (wellFormed_shiftMemRead.1 hi)
  | macMemWrite c z src o => exact sr2Source_mac_eq_false.1 (wellFormed_macMemWrite.1 hi)
  | shiftMemWrite c src o => exact sr2Source_shift_eq_false.1 (wellFormed_shiftMemWrite.1 hi)
  | aluRegMove c z d1 d2 =>
    obtain ⟨hmove, hdest⟩ := wellFormed_aluRegMove.1 hi
    exact ⟨sameDestination_alu_eq_false.1 hdest, hmove⟩
  | macRegMove c z d1 d2 =>
    obtain ⟨hmove, hdest, hsrc⟩ := moveCheck_eq_none.1 hi
    obtain ⟨hmr, hsr⟩ := sameDestination_mac_eq_false.1 hdest
    exact ⟨hmove, hmr, hsr, sr2Source_mac_eq_false.1 hsrc⟩
  | shiftRegMove c d1 d2 =>
    obtain ⟨hmove, hdest, hsrc⟩ := moveCheck_eq_none.1 hi
    exact ⟨hmove, sameDestination_shift_eq_false.1 hdest, sr2Source_shift_eq_false.1 hsrc⟩

/-! ## The clauses of a text that spells an instruction -/

section
variable {t : Text} {i : Instr}

@[simp] theorem mem_computesOf {c : ComputeText} : c ∈ computesOf t ↔ .compute c ∈ t := by
  simp only [computesOf, List.mem_filterMap]
  exact ⟨fun ⟨a, ha, h⟩ => by cases a <;> simp_all, fun h => ⟨_, h, rfl⟩⟩

@[simp] theorem mem_readsOf {r : RegName} {m : MemText} : (r, m) ∈ readsOf t ↔ .read r m ∈ t := by
  simp only [readsOf, List.mem_filterMap]
  exact ⟨fun ⟨a, ha, h⟩ => by cases a <;> simp_all, fun h => ⟨_, h, rfl⟩⟩

@[simp] theorem mem_writesOf {r : RegName} {m : MemText} : (m, r) ∈ writesOf t ↔ .write m r ∈ t := by
  simp only [writesOf, List.mem_filterMap]
  exact ⟨fun ⟨a, ha, h⟩ => by cases a <;> simp_all, fun h => ⟨_, h, rfl⟩⟩

theorem readsOf_sublist {t t' : Text} (h : t.Sublist t') : (readsOf t).Sublist (readsOf t') := h.filterMap _

theorem computeOfText_of_assemble (h : assemble t = .ok i) {c : ComputeText} (hc : c ∈ computesOf t) :
    ∃ o, computeOfText c = .ok o := by
  obtain ⟨-, ⟨r1, r2, d, ht, -⟩ | ⟨c', r1, r2, o, d, ht, -, -, ho, -⟩ | ⟨c', r, o, m, ht, -, -, ho, -⟩ |
    ⟨c', w, o, m, ht, -, -, ho, -⟩ | ⟨c', o, ht, -, -, ho⟩⟩ := assemble_eq_ok h
  · simp [ht] at hc
  all_goals
    obtain rfl : c = c' := by simpa [ht] using hc
    exact ⟨o, ho⟩

theorem post_modify_of_operandOfText {a : AddrText} {o : MemOperand} (h : operandOfText a = .ok o) :
    ∃ i m : Fin 8, a = .postModify i m ∧ (i.val < 4 ↔ m.val < 4) := by
  obtain ⟨i, m, rfl, him⟩ := operandOfText_eq_ok h
  exact ⟨i, m, rfl, by omega⟩

theorem post_modify_of_readsOfText {r1 r2 r : RegName × MemText} {d : DualReads} (h : readsOfText r1 r2 = .ok d)
    (hr : r ∈ [r1, r2]) : ∃ i m : Fin 8, r.2.addr = .postModify i m ∧ (i.val < 4 ↔ m.val < 4) := by
  obtain ⟨rD, rP, aD, bD, aP, bP, hperm, -, haD, hbD, -, haP, hbP⟩ := readsOfText_eq_ok h
  have hr' := hperm.mem_iff.1 hr
  simp only [List.mem_cons, List.not_mem_nil, or_false] at hr'
  obtain rfl | rfl := hr'
  · exact ⟨aD, bD, rfl, by omega⟩
  · exact ⟨aP, bP, rfl, by omega⟩

theorem post_modify_of_mem_readsOf (h : assemble t = .ok i) {r : RegName × MemText} (hr : r ∈ readsOf t) :
    ∃ a b : Fin 8, r.2.addr = .postModify a b ∧ (a.val < 4 ↔ b.val < 4) := by
  obtain ⟨-, ⟨r1, r2, d, -, ht, -, hd⟩ | ⟨c, r1, r2, o, d, -, ht, -, -, hd, -⟩ | ⟨c, r', o, m, -, ht, -, -, hm⟩ |
    ⟨c, w, o, m, -, ht, -⟩ | ⟨c, o, -, ht, -⟩⟩ := assemble_eq_ok h
  · exact post_modify_of_readsOfText hd (ht ▸ hr)
  · exact post_modify_of_readsOfText hd (ht ▸ hr)
  · obtain rfl : r = r' := by simpa [ht] using hr
    exact post_modify_of_operandOfText hm
  · simp [ht] at hr
  · simp [ht] at hr

theorem post_modify_of_mem_writesOf (h : assemble t = .ok i) {w : MemText × RegName} (hw : w ∈ writesOf t) :
    ∃ a b : Fin 8, w.1.addr = .postModify a b ∧ (a.val < 4 ↔ b.val < 4) := by
  obtain ⟨-, ⟨r1, r2, d, -, -, ht, -⟩ | ⟨c, r1, r2, o, d, -, -, ht, -⟩ | ⟨c, r, o, m, -, -, ht, -⟩ |
    ⟨c, w', o, m, -, -, ht, -, hm⟩ | ⟨c, o, -, -, ht, -⟩⟩ := assemble_eq_ok h
  · simp [ht] at hw
  · simp [ht] at hw
  · simp [ht] at hw
  · obtain rfl : w = w' := by simpa [ht] using hw
    exact post_modify_of_operandOfText hm
  · simp [ht] at hw

/-- Two reads in a text that spells an instruction are all its reads, and a compute clause beside them is that of a
dual-read form. -/
theorem dual_of_assemble (h : assemble t = .ok i) {r1 r2 : RegName × MemText} (hr : [r1, r2].Sublist (readsOf t)) :
    ∃ d, readsOfText r1 r2 = .ok d ∧
      ∀ c ∈ computesOf t, ∃ o, computeOfText c = .ok o ∧ dualReadOfText o d = .ok i := by
  obtain ⟨-, ⟨r1', r2', d, hc, ht, -, hd⟩ | ⟨c, r1', r2', o, d, hc, ht, -, ho, hd, hi⟩ | ⟨c, r', o, m, -, ht, -⟩ |
    ⟨c, w, o, m, -, ht, -⟩ | ⟨c, o, -, ht, -⟩⟩ := assemble_eq_ok h
  · rw [ht] at hr
    cases hr.eq_of_length rfl
    exact ⟨d, hd, by simp [hc]⟩
  · rw [ht] at hr
    cases hr.eq_of_length rfl
    exact ⟨d, hd, by simpa [hc] using ⟨o, ho, hi⟩⟩
  · simpa [ht] using hr.length_le
  · simpa [ht] using hr.length_le
  · simpa [ht] using hr.length_le

end

/-- The result and the unit of a compute clause beside two reads (R73). -/
theorem result_of_dualReadOfText {c : ComputeText} {o : ClauseOp} {d : DualReads} {i : Instr}
    (ho : computeOfText c = .ok o) (hi : dualReadOfText o d = .ok i) :
    (c.result = .reg .ar ∧ ∃ fn x y, c.expr = .alu fn x y) ∨
      (c.result = .reg .mr ∧ ∃ fn x y, c.expr = .mac fn x y) := by
  obtain ⟨-, ⟨fn, x, y, hexpr, ho⟩ | ⟨fn, x, y, hexpr, ho⟩ | ⟨fn, x, hexpr, ho⟩⟩ := computeOfText_eq_ok ho
  · obtain ⟨-, -, hres⟩ := aluOfText_eq_ok ho
    obtain ⟨c', rfl⟩ | ⟨c', rfl⟩ := dualReadOfText_eq_ok hi <;> simp at hres
    exact .inl ⟨hres, fn, x, y, hexpr⟩
  · obtain ⟨-, -, hres⟩ := macOfText_eq_ok ho
    obtain ⟨c', rfl⟩ | ⟨c', rfl⟩ := dualReadOfText_eq_ok hi <;> simp at hres
    exact .inr ⟨hres, fn, x, y, hexpr⟩
  · obtain ⟨-, hres⟩ := shiftOfText_eq_ok ho
    obtain ⟨c', rfl⟩ | ⟨c', rfl⟩ := dualReadOfText_eq_ok hi <;> simp at hres

/-- Settles O8: each clause of a text that spells an instruction has been read, and no excluded clause can be. -/
theorem excludedTextsSpellNothing : Obligations.ExcludedTextsSpellNothing := by
  refine fun t i h => ⟨fun c hc => ?_, fun r m hrm => ?_, fun r1 r2 m1 m2 hsub => ⟨?_, fun c hc => ?_⟩⟩
  · obtain ⟨o, ho⟩ := computeOfText_of_assemble h (mem_computesOf.2 hc)
    obtain ⟨hcond, ⟨fn, x, y, hexpr, ho⟩ | ⟨fn, x, y, hexpr, ho⟩ | ⟨fn, x, hexpr, ho⟩⟩ := computeOfText_eq_ok ho
    · obtain ⟨hx, hy, -⟩ := aluOfText_eq_ok ho
      exact ⟨hcond, by rw [hexpr]; exact ⟨hx, hy⟩⟩
    · obtain ⟨hx, hy, -⟩ := macOfText_eq_ok ho
      exact ⟨hcond, by rw [hexpr]; exact ⟨hx, hy⟩⟩
    · obtain ⟨hx, -⟩ := shiftOfText_eq_ok ho
      exact ⟨hcond, by rw [hexpr]; exact hx⟩
  · obtain hr | hw := hrm
    · exact post_modify_of_mem_readsOf h (mem_readsOf.2 hr)
    · exact post_modify_of_mem_writesOf h (mem_writesOf.2 hw)
  · obtain ⟨d, hd, -⟩ := dual_of_assemble h (readsOf_sublist hsub)
    obtain ⟨rD, rP, aD, bD, aP, bP, hperm, hrest⟩ := readsOfText_eq_ok hd
    exact ⟨rD, rP, aD, bD, aP, bP, hperm.map fun r : RegName × MemText => Clause.read r.1 r.2, hrest⟩
  · obtain ⟨d, -, hcs⟩ := dual_of_assemble h (readsOf_sublist hsub)
    obtain ⟨o, ho, hi⟩ := hcs c (mem_computesOf.2 hc)
    exact result_of_dualReadOfText ho hi

/-! ## The refusals of two reads by name (R91) -/

section
variable {dx dy : RegName} {aD bD aP bP : Fin 8}

theorem operandOfText_of_pair {i m : Fin 8} (h : i.val < 4 ↔ m.val < 4) :
    operandOfText (.postModify i m) = .ok ⟨if i.val < 4 then .dag1 else .dag2, withinDag i, withinDag m⟩ := by
  by_cases hi : i.val < 4
  · rw [operandOfText_dag1 hi (h.1 hi), if_pos hi]
  · rw [operandOfText_dag2 (by omega) (by omega), if_neg hi]

theorem dualOfText_of_crossed (h : ¬((aD.val < 4 ↔ bD.val < 4) ∧ (aP.val < 4 ↔ bP.val < 4))) :
    dualOfText dx (.postModify aD bD) dy (.postModify aP bP) = .error (.refused .dagPairing) := by
  by_cases hD : aD.val < 4 ↔ bD.val < 4
  · have hP : ¬(aP.val < 4 ↔ bP.val < 4) := fun hP => h ⟨hD, hP⟩
    simp only [dualOfText, operandOfText_of_pair hD, operandOfText_crossed hP]
  · by_cases hP : aP.val < 4 ↔ bP.val < 4
    · simp only [dualOfText, operandOfText_crossed hD, operandOfText_of_pair hP]
    · simp only [dualOfText, operandOfText_crossed hD, operandOfText_crossed hP]

theorem dualOfText_of_pairs (hD : aD.val < 4 ↔ bD.val < 4) (hP : aP.val < 4 ↔ bP.val < 4)
    (hbus : ¬(aD.val < 4 ∧ 4 ≤ aP.val)) :
    dualOfText dx (.postModify aD bD) dy (.postModify aP bP) = .error (.refused .dagBus) := by
  have hdag : ¬((if aD.val < 4 then Dag.dag1 else .dag2) = .dag1 ∧
      (if aP.val < 4 then Dag.dag1 else .dag2) = .dag2) := by
    obtain haD | haP := not_and_or.1 hbus
    · simp [haD]
    · simp [Nat.lt_of_not_le haP]
  simp only [dualOfText, operandOfText_of_pair hD, operandOfText_of_pair hP, hdag, if_false]

theorem dualOfText_of_buses (hD : aD.val < 4 ↔ bD.val < 4) (hP : aP.val < 4 ↔ bP.val < 4) (haD : aD.val < 4)
    (haP : 4 ≤ aP.val)
    (hdest : ¬(dx ∈ [.dreg .ax0, .dreg .ax1, .dreg .mx0, .dreg .mx1] ∧
      dy ∈ [.dreg .ay0, .dreg .ay1, .dreg .my0, .dreg .my1])) :
    dualOfText dx (.postModify aD bD) dy (.postModify aP bP) = .error (.refused .type1Dest) := by
  rw [← dregXOfText_ne_none, ← dregYOfText_ne_none] at hdest
  simp only [dualOfText, operandOfText_of_pair hD, operandOfText_of_pair hP, haD, if_true, if_neg (Nat.not_lt.2 haP),
    and_self]
  cases hx : dregXOfText dx with
  | none => rfl
  | some x =>
    cases hy : dregYOfText dy with
    | none => rfl
    | some y => exact absurd ⟨by simp [hx], by simp [hy]⟩ hdest

/-- What is wrong with two reads is what their text is refused for, beside no compute clause or one that is read. -/
theorem assemble_reads_eq_error {cs : Text} {m1 m2 : AddrText} {e : TextError}
    (hcs : cs = [] ∨ ∃ c o, cs = [.compute c] ∧ computeOfText c = .ok o) (h : dualOfText dx m1 dy m2 = .error e) :
    assemble (cs ++ [.read dx ⟨.dm, m1⟩, .read dy ⟨.pm, m2⟩]) = .error e := by
  obtain rfl | ⟨c, o, rfl, ho⟩ := hcs
  · show (dualOfText dx m1 dy m2 >>= fun d => checked (.dualRead d)) = _
    rw [h]
    rfl
  · show (computeOfText c >>= fun o => dualOfText dx m1 dy m2 >>= fun d => dualReadOfText o d >>= checked) = _
    rw [ho, h]
    rfl

end

/-- A compute clause beside two proper reads is read by the dual-read form's own rule (R73). -/
theorem assemble_compute_dual {c : ComputeText} {o : ClauseOp} (ho : computeOfText c = .ok o) (d : DualReads) :
    assemble (.compute c :: dualToText d) = dualReadOfText o d >>= checked := by
  show (do
    let o' ← computeOfText c
    let d' ← readsOfText (.dreg d.dx.toDreg, memToText .dm d.dm) (.dreg d.dy.toDreg, memToText .pm d.pm)
    dualReadOfText o' d' >>= checked) = _
  rw [ho, readsOfText_dual]
  rfl

theorem dual_shift_refused (d : DualReads) (result : ResultText) (fn : ShiftFn) {x : OperandText}
    (hx : shiftXOfText x ≠ none) :
    assemble (.compute ⟨false, result, .shift fn x⟩ :: dualToText d) = .error (.refused .noShiftInType1) := by
  obtain ⟨cx, hx⟩ := Option.ne_none_iff_exists'.1 hx
  have ho : computeOfText ⟨false, result, .shift fn x⟩ =
      .ok (if result = .reg fn.dest then .op (.shift ⟨fn, cx⟩) else .otherResult true) := by
    simp [computeOfText, shiftOfText, hx]
  rw [assemble_compute_dual ho]
  split <;> rfl

theorem dual_alu_refused (d : DualReads) {result : ResultText} (fn : AluFn) {x y : OperandText}
    (hres : result ≠ .reg .ar) (hx : aluXOfText x ≠ none) (hy : aluYOfText y ≠ none) :
    assemble (.compute ⟨false, result, .alu fn x y⟩ :: dualToText d) = .error (.refused .type1Result) := by
  obtain ⟨cx, hx⟩ := Option.ne_none_iff_exists'.1 hx
  obtain ⟨cy, hy⟩ := Option.ne_none_iff_exists'.1 hy
  have hread : computeOfText ⟨false, result, .alu fn x y⟩ = aluOfText fn x y result := by simp [computeOfText]
  cases result with
  | none => rw [assemble_compute_dual (hread.trans (by simp only [aluOfText, hx, hy]; rfl))]; rfl
  | reg r =>
    cases r with
    | ar => exact absurd rfl hres
    | af | mr | sr | se | sb =>
      rw [assemble_compute_dual (hread.trans (by simp only [aluOfText, hx, hy]; rfl))]
      rfl

theorem dual_mac_refused (d : DualReads) {result : ResultText} (fn : MacFn) {x y : OperandText}
    (hres : result ≠ .reg .mr) (hx : macXOfText x ≠ none) (hy : macYOfText y ≠ none) :
    assemble (.compute ⟨false, result, .mac fn x y⟩ :: dualToText d) = .error (.refused .type1Result) := by
  obtain ⟨cx, hx⟩ := Option.ne_none_iff_exists'.1 hx
  obtain ⟨cy, hy⟩ := Option.ne_none_iff_exists'.1 hy
  have hread : computeOfText ⟨false, result, .mac fn x y⟩ = macOfText fn x y result := by simp [computeOfText]
  cases result with
  | none => rw [assemble_compute_dual (hread.trans (by simp only [macOfText, hx, hy]; rfl))]; rfl
  | reg r =>
    cases r with
    | mr => exact absurd rfl hres
    | ar | af | sr | se | sb =>
      rw [assemble_compute_dual (hread.trans (by simp only [macOfText, hx, hy]; rfl))]
      rfl

/-- Settles O9: the first reason that `dualOfText` or `dualReadOfText` finds is the text's. -/
theorem dualReadRefusalsAreNamed : Obligations.DualReadRefusalsAreNamed := by
  refine ⟨fun cs rD rP aD bD aP bP hcs => ?_, fun d result x y => ⟨fun fn => dual_shift_refused d result fn,
    fun fn => dual_alu_refused d fn, fun fn => dual_mac_refused d fn⟩⟩
  refine ⟨fun hpairs => ?_, fun ⟨hD, hP⟩ hbuses => ?_, fun ⟨hD, hP⟩ ⟨haD, haP⟩ hdests => ?_⟩
  · exact assemble_reads_eq_error hcs (dualOfText_of_crossed hpairs)
  · exact assemble_reads_eq_error hcs (dualOfText_of_pairs hD hP hbuses)
  · exact assemble_reads_eq_error hcs (dualOfText_of_buses hD hP haD haP hdests)

end Sys2Proof.Machine

/-!
Proofs of the statements on addressing (R109 to R113) and on the compute clauses of the annex's candidate (R202 to R206,
R210 to R213, R215, R216, R222).
-/

namespace Sys2Proof.Machine

open Sys2Proof

/-! ## Addresses and post-modify -/

/-- Settles O17: an append as a number. -/
theorem effectiveAddressIsPageAndIndex : Obligations.EffectiveAddressIsPageAndIndex :=
  fun _ _ => toNat_append_add _ _

theorem modifyIndex_of_zero {i m l b : Word} {circ : Word → Word → Word → Word → Word} (h : l = 0) :
    modifyIndex i m l b circ = i + m := if_pos h

/-- Settles O18: linear post-modify is the sum of two words. -/
theorem linearPostModifyWraps : Obligations.LinearPostModifyWraps :=
  fun _ _ h => (congrArg BitVec.toNat (modifyIndex_of_zero h)).trans (BitVec.toNat_add ..)

/-- The sum that circular post-modify narrows, moved back into the buffer by the length (R113). -/
def circularSum (i m l b : Word) : Int :=
  let t : Int := i.toNat + m.toInt
  if 0 ≤ m.toInt then if t < b.toNat + l.toNat then t else t - l.toNat
  else if (b.toNat : Int) ≤ t then t else t + l.toNat

theorem circularModify_eq (i m l b : Word) : circularModify i m l b = BitVec.ofInt 16 (circularSum i m l b) := by
  unfold circularModify circularSum
  dsimp only
  split <;> rfl

theorem circularSum_mem {i m l b : Word} (hi : b.toNat ≤ i.toNat) (hi' : i.toNat < b.toNat + l.toNat)
    (hm : m.toInt.natAbs ≤ l.toNat) : b.toNat ≤ circularSum i m l b ∧ circularSum i m l b < b.toNat + l.toNat := by
  unfold circularSum
  dsimp only
  split <;> split <;> omega

theorem dvd_circularSum_sub (i m l b : Word) : (l.toNat : Int) ∣ circularSum i m l b - (i.toNat + m.toInt) := by
  have hcases : circularSum i m l b = i.toNat + m.toInt ∨ circularSum i m l b = i.toNat + m.toInt - l.toNat ∨
      circularSum i m l b = i.toNat + m.toInt + l.toNat := by
    unfold circularSum
    dsimp only
    split <;> split <;> simp
  obtain h | h | h := hcases
  · simp [h]
  · exact ⟨-1, by omega⟩
  · exact ⟨1, by omega⟩

/-- Settles O19: the narrowed sum is inside the buffer, so narrowing it changes nothing. -/
theorem circularPostModifyStaysInBuffer : Obligations.CircularPostModifyStaysInBuffer := by
  intro i m l b hl hi hi' hwrap hm
  obtain ⟨hlow, hhigh⟩ := circularSum_mem hi hi' hm
  have hnext : ((modifyIndex i m l b).toNat : Int) = circularSum i m l b := by
    rw [modifyIndex, if_neg hl, circularModify_eq, BitVec.toNat_ofInt]
    omega
  refine ⟨by omega, by omega, ?_⟩
  rw [hnext]
  exact dvd_circularSum_sub i m l b

/-! ## ALU clauses -/

theorem msb_iff (x : Word) : x.msb = true ↔ 2 ^ 15 ≤ x.toNat := by
  simp [BitVec.msb_eq_decide]

theorem msb_eq_msb_iff (x y : Word) : x.msb = y.msb ↔ (2 ^ 15 ≤ x.toNat ↔ 2 ^ 15 ≤ y.toNat) := by
  rw [Bool.eq_iff_iff, msb_iff, msb_iff]

theorem toInt_word (x : Word) :
    (x.toNat < 2 ^ 15 ∧ x.toInt = x.toNat) ∨ (2 ^ 15 ≤ x.toNat ∧ x.toInt = x.toNat - 2 ^ 16) := by
  have := x.isLt
  rw [BitVec.toInt_eq_toNat_cond]
  split <;> omega

theorem addWithCarry_r_toNat (x y : Word) (c : Bool) :
    (addWithCarry x y c).r.toNat = (x.toNat + y.toNat + c.toNat) % 2 ^ 16 := BitVec.toNat_ofNat ..

/-- The signed sum overflows if the operands have one sign and the result the other (R202). -/
theorem addWithCarry_av (x y : Word) (c : Bool) :
    (addWithCarry x y c).av = decide (x.msb = y.msb ∧ (addWithCarry x y c).r.msb ≠ x.msb) := by
  have hr := addWithCarry_r_toNat x y c
  have hav : (addWithCarry x y c).av =
    decide (x.toInt + y.toInt + (c.toNat : Int) ≠ (addWithCarry x y c).r.toInt) := rfl
  have hx := toInt_word x
  have hy := toInt_word y
  have hr' := toInt_word (addWithCarry x y c).r
  have hc : c.toNat ≤ 1 := c.toNat_le
  rw [hav, decide_eq_decide, ne_eq, ne_eq, msb_eq_msb_iff, msb_eq_msb_iff]
  omega

/-- The flags of an ALU clause for AR_SAT = 0 and AV_LATCH = 0 (R201). -/
theorem compute_alu {c : AluClause} {z : AluDest} {v : RegView} (hsat : v.modes.arSat = false)
    (hlatch : v.modes.avLatch = false) {o : AluOut}
    (ho : aluOut c.fn (aluXValue v.regs c.x) (aluYValue v.regs c.y) v.astat.ac = o) :
    compute (.alu c z) v =
      { result := aluWrite z o.r
        astat :=
          { v.astat with
            az := decide (o.r = 0)
            an := o.r.msb
            ac := o.ac
            av := o.av
            as := aluSign c.fn (aluXValue v.regs c.x) v.astat.as } } := by
  subst ho
  simp [compute, aluEffect, hsat, aluFlags, hlatch]

/-- Settles O20: both functions are the ALU's addition. -/
theorem aluAdditionsResultAndFlags : Obligations.AluAdditionsResultAndFlags := by
  intro c z v hsat hlatch hfn x y sum
  let carry : Bool := if c.fn = .addC then v.astat.ac else false
  have ho : aluOut c.fn x y v.astat.ac = addWithCarry x y carry := by
    obtain hfn | hfn := hfn <;> simp [carry, hfn, aluOut]
  have hsum : sum = x.toNat + y.toNat + carry.toNat := by
    obtain hfn | hfn := hfn <;> simp [sum, carry, hfn]
  have hsign : aluSign c.fn x v.astat.as = v.astat.as := by
    obtain hfn | hfn := hfn <;> rw [hfn] <;> rfl
  refine ⟨(addWithCarry x y carry).r, hsum ▸ addWithCarry_r_toNat x y carry, ?_⟩
  rw [compute_alu hsat hlatch ho, addWithCarry_av, hsign, hsum]
  rfl

/-- Settles O21: each function is the ALU's addition of the complement. -/
theorem aluSubtractionsResultAndFlags : Obligations.AluSubtractionsResultAndFlags := by
  intro c z v hsat hlatch hfn swapped a b sum
  let carry : Bool := if c.fn = .sub ∨ c.fn = .rsub then true else v.astat.ac
  have ho : aluOut c.fn (aluXValue v.regs c.x) (aluYValue v.regs c.y) v.astat.ac = addWithCarry a (~~~b) carry := by
    obtain hfn | hfn | hfn | hfn := hfn <;> simp [carry, a, b, swapped, hfn, aluOut]
  have hsum : sum = a.toNat + (~~~b).toNat + carry.toNat := by
    obtain hfn | hfn | hfn | hfn := hfn <;> simp [sum, carry, hfn, BitVec.toNat_not]
  have hsign : aluSign c.fn (aluXValue v.regs c.x) v.astat.as = v.astat.as := by
    obtain hfn | hfn | hfn | hfn := hfn <;> rw [hfn] <;> rfl
  have hmsb : a.msb = (~~~b).msb ↔ a.msb ≠ b.msb := by
    simp [BitVec.msb_not, Bool.eq_not]
  refine ⟨(addWithCarry a (~~~b) carry).r, hsum ▸ addWithCarry_r_toNat a (~~~b) carry, ?_⟩
  rw [compute_alu hsat hlatch ho, addWithCarry_av, hsign, hsum]
  simp only [hmsb]
  rfl

/-! The functions of one operand: carry and overflow by the operand's value (R206). -/

theorem addWithCarry_ac (x y : Word) (c : Bool) :
    (addWithCarry x y c).ac = decide (2 ^ 16 ≤ x.toNat + y.toNat + c.toNat) := rfl

theorem incY_out (y : Word) :
    (addWithCarry y 0 true).r.toNat = (y.toNat + 1) % 2 ^ 16 ∧ (addWithCarry y 0 true).ac = decide (y = 0xFFFF) ∧
      (addWithCarry y 0 true).av = decide (y = 0x7FFF) := by
  have hr : (addWithCarry y 0 true).r.toNat = (y.toNat + 1) % 2 ^ 16 := addWithCarry_r_toNat y 0 true
  have hy := y.isLt
  refine ⟨hr, ?_, ?_⟩
  · rw [addWithCarry_ac, decide_eq_decide, ← BitVec.toNat_inj]
    simp
    omega
  · rw [addWithCarry_av, decide_eq_decide, ne_eq, msb_eq_msb_iff, msb_eq_msb_iff, hr, ← BitVec.toNat_inj]
    simp
    omega

theorem decY_out (y : Word) :
    ((addWithCarry y 0xFFFF false).r.toNat + 1) % 2 ^ 16 = y.toNat ∧
      (addWithCarry y 0xFFFF false).ac = decide (y ≠ 0) ∧ (addWithCarry y 0xFFFF false).av = decide (y = 0x8000) := by
  have hr : (addWithCarry y 0xFFFF false).r.toNat = (y.toNat + 0xFFFF) % 2 ^ 16 := addWithCarry_r_toNat y 0xFFFF false
  have hy := y.isLt
  refine ⟨by omega, ?_, ?_⟩
  · rw [addWithCarry_ac, decide_eq_decide, ne_eq, ← BitVec.toNat_inj]
    simp
    omega
  · rw [addWithCarry_av, decide_eq_decide, ne_eq, msb_eq_msb_iff, msb_eq_msb_iff, hr, ← BitVec.toNat_inj]
    simp
    omega

theorem negY_out (y : Word) :
    ((addWithCarry 0 (~~~y) true).r.toNat + y.toNat) % 2 ^ 16 = 0 ∧
      (addWithCarry 0 (~~~y) true).ac = decide (y = 0) ∧ (addWithCarry 0 (~~~y) true).av = decide (y = 0x8000) := by
  have hnot : (~~~y).toNat = 2 ^ 16 - 1 - y.toNat := BitVec.toNat_not
  have hr : (addWithCarry 0 (~~~y) true).r.toNat = (0 + (~~~y).toNat + 1) % 2 ^ 16 := addWithCarry_r_toNat 0 (~~~y) true
  have hy := y.isLt
  refine ⟨by omega, ?_, ?_⟩
  · rw [addWithCarry_ac, decide_eq_decide, ← BitVec.toNat_inj, hnot]
    simp
    omega
  · rw [addWithCarry_av, decide_eq_decide, ne_eq, msb_eq_msb_iff, msb_eq_msb_iff, hr, hnot, ← BitVec.toNat_inj]
    simp
    omega

theorem absOut_r (x : Word) : (absOut x).r.toNat = x.toInt.natAbs := by
  have hx := toInt_word x
  unfold absOut
  dsimp only
  split
  next h =>
    rw [msb_iff] at h
    rw [BitVec.toNat_sub]
    simp
    omega
  next h =>
    rw [msb_iff] at h
    omega

theorem aluSign_eq (fn : AluFn) (x : Word) (before : Bool) :
    aluSign fn x before = if fn = .absX then x.msb else before := by
  cases fn <;> rfl

/-- Settles O22: the output of the function gives the existentials; each clause is a fact about one function. -/
theorem aluOtherFunctionsResultAndFlags : Obligations.AluOtherFunctionsResultAndFlags := by
  intro c z v hsat hlatch x y
  refine ⟨(aluOut c.fn x y v.astat.ac).r, (aluOut c.fn x y v.astat.ac).ac, (aluOut c.fn x y v.astat.ac).av, ?_, ?_⟩
  · rw [compute_alu hsat hlatch rfl, aluSign_eq]
  · refine ⟨?_, ?_, ?_, ?_, ?_, ?_, ?_, ?_, ?_, ?_⟩ <;> intro hfn <;> rw [hfn]
    · exact ⟨rfl, rfl, rfl⟩
    · exact incY_out y
    · exact decY_out y
    · exact negY_out y
    · exact ⟨rfl, rfl, rfl⟩
    · exact ⟨rfl, rfl, rfl⟩
    · exact ⟨rfl, rfl, rfl⟩
    · exact ⟨rfl, rfl, rfl⟩
    · exact ⟨rfl, rfl, rfl⟩
    · exact ⟨absOut_r x, rfl, rfl⟩

/-! The flags in every mode (R222, log 14). -/

theorem compute_alu_av_of_latch {c : AluClause} {z : AluDest} {v : RegView} (hlatch : v.modes.avLatch = true)
    (hav : v.astat.av = true) : (compute (.alu c z) v).astat.av = true := by
  show (aluEffect c z v).astat.av = true
  unfold aluEffect
  dsimp only
  split
  · simp [hlatch, hav]
  · simp [aluFlags, hlatch, hav]

/-- Settles O23: AV is the only flag that AV_LATCH enters. -/
theorem overflowLatchIsSticky : Obligations.OverflowLatchIsSticky := by
  refine ⟨fun c z v => compute_alu_av_of_latch, fun c z v hsat => ?_⟩
  simp [compute, aluEffect, hsat, aluFlags]

/-- Settles O24, by the two cases of AR_SAT. -/
theorem aluClauseKeepsOtherFlags : Obligations.AluClauseKeepsOtherFlags := by
  intro c z v after
  have has : after.as = aluSign c.fn (aluXValue v.regs c.x) v.astat.as := by
    show (aluEffect c z v).astat.as = _
    unfold aluEffect
    dsimp only
    split <;> rfl
  have hrest : after.aq = v.astat.aq ∧ after.mv = v.astat.mv ∧ after.ss = v.astat.ss ∧ after.sv = v.astat.sv := by
    show (aluEffect c z v).astat.aq = _ ∧ (aluEffect c z v).astat.mv = _ ∧ (aluEffect c z v).astat.ss = _ ∧
      (aluEffect c z v).astat.sv = _
    unfold aluEffect
    dsimp only
    split <;> exact ⟨rfl, rfl, rfl, rfl⟩
  obtain ⟨haq, hmv, hss, hsv⟩ := hrest
  exact ⟨haq, hmv, hss, hsv, fun hfn => by rw [has, aluSign_eq, if_neg hfn]⟩

end Sys2Proof.Machine

/-!
Proofs of the statements on MAC clauses (R210 to R213) and on shifter clauses (R215, R216).
-/

namespace Sys2Proof.Machine

open Sys2Proof

/-! ## MAC clauses -/

/-- An integer narrowed to the accumulator is congruent to it modulo 2^40. -/
theorem dvd_toInt_ofInt_sub (e : Int) : (2 ^ 40 : Int) ∣ (BitVec.ofInt 40 e).toInt - e := by
  rw [BitVec.toInt_ofInt]
  exact Int.dvd_bmod_sub_self

/-- MV says that the accumulator does not fit 32 signed bits (R212). -/
theorem macOverflow_eq (r : Acc) : macOverflow r = decide ¬(-2 ^ 31 ≤ r.toInt ∧ r.toInt < 2 ^ 31) := by
  have hr := r.isLt
  have h0 : r.extractLsb' 31 9 = 0#9 ↔ r.toNat / 2 ^ 31 % 2 ^ 9 = 0 := by
    rw [← BitVec.toNat_inj, BitVec.extractLsb'_toNat, Nat.shiftRight_eq_div_pow]
    rfl
  have h1 : r.extractLsb' 31 9 = 0x1FF#9 ↔ r.toNat / 2 ^ 31 % 2 ^ 9 = 0x1FF := by
    rw [← BitVec.toNat_inj, BitVec.extractLsb'_toNat, Nat.shiftRight_eq_div_pow]
    rfl
  have hint : (r.toNat < 2 ^ 39 ∧ r.toInt = r.toNat) ∨ (2 ^ 39 ≤ r.toNat ∧ r.toInt = r.toNat - 2 ^ 40) := by
    rw [BitVec.toInt_eq_toNat_cond]
    split <;> omega
  have hiff : (r.extractLsb' 31 9 = 0#9 ∨ r.extractLsb' 31 9 = 0x1FF#9) ↔ (-2 ^ 31 ≤ r.toInt ∧ r.toInt < 2 ^ 31) := by
    rw [h0, h1]
    omega
  rw [macOverflow, ← Bool.decide_or, ← decide_not, decide_eq_decide, hiff]

/-- The product of a MAC clause, factor by factor (R210). -/
theorem macProduct_eq {fmt : MacFmt} (x y : Word) (integerMode : Bool) (h : fmt ≠ .rnd) :
    macProduct fmt x y integerMode =
      (if fmt = .ss ∨ fmt = .su then x.toInt else (x.toNat : Int)) *
        (if fmt = .ss ∨ fmt = .us then y.toInt else (y.toNat : Int)) * if integerMode then 1 else 2 := by
  cases fmt with
  | rnd => exact absurd rfl h
  | ss | su | us | uu => simp [macProduct]

theorem compute_mac {c : MacClause} {z : MacDest} {v : RegView} (hfmt : c.fn.fmt ≠ .rnd) (hy : c.y ≠ .zero) {r : Acc}
    (hr : macResult c.fn (macXValue v.regs c.x) (macYValue v.regs c.y) (macAcc v.regs z) v.modes.mMode = r) :
    (compute (.mac c z) v).result = macWrite z r ∧
      (z = .mr → (compute (.mac c z) v).astat = { v.astat with mv := macOverflow r }) ∧
      (z = .sr → ∃ mv sv, (compute (.mac c z) v).astat = { v.astat with mv := mv, sv := sv }) := by
  have hopen : macIsOpen c = false := by simp [macIsOpen, hfmt, hy]
  subst hr
  cases z with
  | mr => simp [compute, macEffect, hopen, macWrite]
  | sr =>
    refine ⟨by simp [compute, macEffect, hopen, macWrite], nofun, fun _ => ?_⟩
    simp only [compute, macEffect, hopen, Bool.false_eq_true, if_false]
    exact ⟨_, _, rfl⟩

/-- Settles O25: the result is the exact one narrowed, and MV is read off it. -/
theorem macResultAndOverflow : Obligations.MacResultAndOverflow := by
  intro c z v hfmt hy x y xv yv p old e
  have hprod : macProduct c.fn.fmt x y v.modes.mMode = p := macProduct_eq x y v.modes.mMode hfmt
  have hacc : (macAcc v.regs z).toInt = old := by cases z <;> rfl
  have hval : macResult c.fn x y (macAcc v.regs z) v.modes.mMode = BitVec.ofInt 40 e := by
    unfold macResult
    simp only [hprod, hacc, e]
    cases c.fn.acc <;> rfl
  obtain ⟨hresult, hmr, hsr⟩ := compute_mac hfmt hy hval
  refine ⟨_, hresult, dvd_toInt_ofInt_sub e, ?_⟩
  cases z with
  | mr => exact (hmr rfl).trans (by rw [macOverflow_eq])
  | sr => exact hsr rfl

/-! ## Shifter clauses -/

theorem toNat_append_zero (x : Word) : (x ++ 0#16 : BitVec 32).toNat = x.toNat * 2 ^ 16 := by
  show (x ++ 0#16 : BitVec (16 + 16)).toNat = _
  rw [toNat_append_add, BitVec.toNat_ofNat, Nat.zero_mod, Nat.add_zero]

theorem toInt_append_zero (x : Word) : (x ++ 0#16 : BitVec 32).toInt = x.toInt * 2 ^ 16 := by
  have hx := toInt_word x
  rw [BitVec.toInt_eq_toNat_cond, toNat_append_zero]
  split <;> omega

/-- The field of an arithmetic shift as a number (R215). -/
theorem ashiftField_toInt (half : Half) (x : Word) :
    (ashiftField half x).toInt = x.toInt * if half = .hi then 2 ^ 16 else 1 := by
  cases half with
  | hi => simpa [ashiftField, BitVec.toInt_signExtend_of_le] using toInt_append_zero x
  | lo => simp [ashiftField, BitVec.toInt_signExtend_of_le]

/-- The field of a logical shift as a number (R216). -/
theorem lshiftField_toNat (half : Half) (x : Word) :
    (lshiftField half x).toNat = x.toNat * if half = .hi then 2 ^ 16 else 1 := by
  have hx := x.isLt
  cases half with
  | hi =>
    show ((x ++ 0#16 : BitVec 32).zeroExtend 40).toNat = _
    rw [BitVec.toNat_setWidth, toNat_append_zero, if_pos rfl]
    omega
  | lo =>
    show (x.zeroExtend 40).toNat = _
    rw [BitVec.toNat_setWidth, if_neg nofun]
    omega

/-- An accumulator's two readings as a number are congruent modulo 2^40. -/
theorem dvd_toInt_sub_toNat (a : Acc) : (2 ^ 40 : Int) ∣ a.toInt - a.toNat := by
  rw [BitVec.toInt_eq_toNat_bmod]
  exact Int.dvd_bmod_sub_self

/-- A left shift multiplies by the power of two modulo 2^40. -/
theorem dvd_toInt_shiftLeft_sub (f : Acc) (k : Nat) : (2 ^ 40 : Int) ∣ (f <<< k).toInt - f.toInt * 2 ^ k := by
  have hval : (f <<< k).toInt = ((f.toNat : Int) * 2 ^ k).bmod (2 ^ 40) := by
    rw [BitVec.toInt_shiftLeft, Nat.shiftLeft_eq]
    push_cast
    rfl
  have hmul : (2 ^ 40 : Int) ∣ f.toNat * 2 ^ k - f.toInt * 2 ^ k := by
    rw [← sub_mul]
    exact (dvd_sub_comm.1 (dvd_toInt_sub_toNat f)).mul_right _
  rw [hval]
  exact sub_add_sub_cancel _ _ (_ : Int) ▸ dvd_add Int.dvd_bmod_sub_self hmul

theorem toInt_sshiftRight_eq (f : Acc) (k : Nat) : (f.sshiftRight k).toInt = f.toInt / 2 ^ k := by
  rw [BitVec.toInt_sshiftRight, Int.shiftRight_eq_div_pow]
  norm_cast

theorem toNat_ushiftRight_eq (f : Acc) (k : Nat) : (f >>> k).toNat = f.toNat / 2 ^ k := by
  rw [BitVec.toNat_ushiftRight, Nat.shiftRight_eq_div_pow]

/-- An arithmetic shift scales its field by a power of two, rounding down (R215). -/
theorem ashiftBy_scales (f : Acc) (n : Int) :
    (0 ≤ n → (2 ^ 40 : Int) ∣ (ashiftBy f n).toInt - f.toInt * 2 ^ n.toNat) ∧
      (n < 0 → (2 ^ 40 : Int) ∣ (ashiftBy f n).toInt - f.toInt / 2 ^ n.natAbs) := by
  refine ⟨fun hn => ?_, fun hn => ?_⟩
  · rw [ashiftBy, if_pos hn]
    exact dvd_toInt_shiftLeft_sub f n.toNat
  · have habs : (-n).toNat = n.natAbs := by omega
    rw [ashiftBy, if_neg (by omega), habs, toInt_sshiftRight_eq, sub_self]
    exact dvd_zero _

/-- A logical shift scales its field, read as an unsigned number, by a power of two, rounding down (R216). -/
theorem lshiftBy_scales (f : Acc) (n : Int) :
    (0 ≤ n → (2 ^ 40 : Int) ∣ (lshiftBy f n).toInt - f.toNat * 2 ^ n.toNat) ∧
      (n < 0 → (2 ^ 40 : Int) ∣ (lshiftBy f n).toInt - f.toNat / 2 ^ n.natAbs) := by
  refine ⟨fun hn => ?_, fun hn => ?_⟩
  · rw [lshiftBy, if_pos hn]
    have hmul : (2 ^ 40 : Int) ∣ f.toInt * 2 ^ n.toNat - f.toNat * 2 ^ n.toNat := by
      rw [← sub_mul]
      exact (dvd_toInt_sub_toNat f).mul_right _
    exact sub_add_sub_cancel _ _ (_ : Int) ▸ dvd_add (dvd_toInt_shiftLeft_sub f n.toNat) hmul
  · have habs : (-n).toNat = n.natAbs := by omega
    have hdiv : (f.toNat : Int) / 2 ^ n.natAbs = (f >>> n.natAbs).toNat := by
      rw [toNat_ushiftRight_eq]
      norm_cast
    rw [lshiftBy, if_neg (by omega), habs, hdiv]
    exact dvd_toInt_sub_toNat _

theorem compute_shift (kind : ShiftKind) (half : Half) (orOld : Bool) (sx : ShiftX) (v : RegView) :
    (compute (.shift ⟨.shift kind half orOld, sx⟩) v).result =
      .sr (shiftResult kind half orOld (shiftXValue v.regs sx) v.regs.se.toInt v.regs.sr
        (Config.freeCompute (.shift ⟨.shift kind half orOld, sx⟩) v).acc) := rfl

/-- Settles O26, by the kind of shift: the shifted field is the scaled field. -/
theorem shiftResultIsScaledField : Obligations.ShiftResultIsScaledField := by
  intro kind half orOld sx v hkind hse x n place field
  rw [compute_shift]
  cases kind with
  | norm => exact absurd rfl hkind
  | ashift =>
    have hfield : field = (ashiftField half x).toInt := (ashiftField_toInt half x).symm
    rw [hfield]
    refine ⟨ashiftBy (ashiftField half x) n, ?_, ashiftBy_scales _ n⟩
    simp only [shiftResult, orOption, if_pos hse]
    rfl
  | lshift =>
    have hfield : field = (lshiftField half x).toNat := by
      rw [lshiftField_toNat]
      cases half <;> simp [field, place]
    rw [hfield]
    refine ⟨lshiftBy (lshiftField half x) n, ?_, lshiftBy_scales _ n⟩
    simp only [shiftResult, orOption, if_pos hse]
    rfl

end Sys2Proof.Machine

/-!
Proofs of the statements for every configuration of the open parameters (R5, R104, R200): what an instruction leaves of
its compute clause and of its data move.
-/

namespace Sys2Proof.Machine

open Sys2Proof

/-! ## Registers after a compute effect and a data move -/

theorem dregX_not_mem_dregs (x : DregX) (rr : ResultReg) : x.toDreg ∉ rr.dregs := by
  cases x <;> cases rr <;> decide

theorem dregY_not_mem_dregs (y : DregY) (rr : ResultReg) : y.toDreg ∉ rr.dregs := by
  cases y <;> cases rr <;> decide

theorem dregX_ne_dregY (x : DregX) (y : DregY) : x.toDreg ≠ y.toDreg := by
  cases x <;> cases y <;> decide

@[simp] theorem dregRead_dregWrite_dregX (c : CompRegs) (x : DregX) (v : Word) (fx : DregFx) :
    (c.dregWrite x.toDreg v fx).dregRead x.toDreg fx = v := by cases x <;> rfl

@[simp] theorem dregRead_dregWrite_dregY (c : CompRegs) (y : DregY) (v : Word) (fx : DregFx) :
    (c.dregWrite y.toDreg v fx).dregRead y.toDreg fx = v := by cases y <;> rfl

/-- The two loads of a dual read touch no result register (R12, R13). -/
theorem resultValue_dual_loads (c : CompRegs) (x : DregX) (y : DregY) (v w : Word) (fx : DregFx) (rr : ResultReg) :
    ((c.dregWrite x.toDreg v fx).dregWrite y.toDreg w fx).resultValue rr = c.resultValue rr := by
  have hx : ∀ r ∈ rr.dregs, r ∉ x.toDreg.mw := fun r hr hmem => by
    rw [mw_dregX, List.mem_singleton] at hmem
    exact dregX_not_mem_dregs x rr (hmem ▸ hr)
  have hy : ∀ r ∈ rr.dregs, r ∉ y.toDreg.mw := fun r hr hmem => by
    rw [mw_dregY, List.mem_singleton] at hmem
    exact dregY_not_mem_dregs y rr (hmem ▸ hr)
  rw [resultValue_dregWrite _ _ _ _ _ hy, resultValue_dregWrite _ _ _ _ _ hx]

/-- The first of the two loads is there after the second. -/
theorem dregRead_dual_loads (c : CompRegs) (x : DregX) (y : DregY) (v w : Word) (fx : DregFx) :
    ((c.dregWrite x.toDreg v fx).dregWrite y.toDreg w fx).dregRead x.toDreg fx = v := by
  rw [dregRead_dregWrite_of_not_mem _ _ _ _ _ _ (by simpa using dregX_ne_dregY x y), dregRead_dregWrite_dregX]

/-- What a data move leaves in its destinations does not depend on a compute effect that writes none of them (R115). -/
theorem dregRead_dregWrite_applyResult (w : ResultWrite) (c : CompRegs) {dst r : Dreg} (v : Word) (fx : DregFx)
    (hr : r ∈ dst.mw) (h : ∀ rr, w.target = some rr → ∀ r ∈ rr.dregs, r ∉ dst.mw) :
    ((applyResult w c).dregWrite dst v fx).dregRead r fx = (c.dregWrite dst v fx).dregRead r fx := by
  have hmr : .mr2 ∈ dst.mw → (applyResult w c).mr2 = c.mr2 := fun hm => by
    cases w with
    | mr a => exact absurd hm (h .mr rfl .mr2 (by decide))
    | nothing | ar | af | sr | se | sb => rfl
  have hsr : .sr2 ∈ dst.mw → (applyResult w c).sr2 = c.sr2 := fun hm => by
    cases w with
    | sr a => exact absurd hm (h .sr rfl .sr2 (by decide))
    | nothing | ar | af | mr | se | sb => rfl
  cases dst with
  | mr1 =>
    simp only [Dreg.mw, List.mem_cons, List.not_mem_nil, or_false] at hr
    obtain rfl | rfl := hr
    · rfl
    · exact congrArg (fun b => fx.mr.extend (fx.mr.fill v b)) (hmr (by decide))
  | sr1 =>
    simp only [Dreg.mw, List.mem_cons, List.not_mem_nil, or_false] at hr
    obtain rfl | rfl := hr
    · rfl
    · exact congrArg (fun b => fx.sr.extend (fx.sr.fill v b)) (hsr (by decide))
  | _ =>
    obtain rfl := List.mem_singleton.1 hr
    rfl

/-- The result register after a compute effect that writes it, and a data move beside it (R106, R115). -/
theorem resultValue_dregWrite_applyResult {op : ComputeOp} {w : ResultWrite} (c : CompRegs) {dst : Dreg} (v : Word)
    (fx : DregFx) (hw : w.target = some op.dest) (h : sameDestination op dst = false) :
    ((applyResult w c).dregWrite dst v fx).resultValue op.dest = w.value := by
  rw [resultValue_dregWrite _ _ _ _ _ (sameDestination_eq_false.1 h), resultValue_applyResult, if_pos hw]

/-! ## The compute clause's half of an instruction -/

section
variable {P : Params} {i : Instr} {s t : State} {op : ComputeOp}

theorem effectOf_of_computeOp (hop : i.computeOp = some op) (v : RegView) : effectOf i v P = P.compute op v := by
  simp only [effectOf, hop]

/-- What runs is well formed, or is the move `AR = AR` that stands for status only (R180, R184). -/
theorem wellFormed_of_execWith (h : execWith P i s = .next t) : WellFormed i ∨ ∃ c, i = .aluRegMove c .ar .ar .ar := by
  cases i with
  | aluDualRead | macDualRead | dualRead | aluStatusOnly => exact .inl rfl
  | aluMemRead c z dst o => exact .inl (wellFormed_aluMemRead.2 (memReadForm_eq_next h).1)
  | macMemRead c z dst o => exact .inl (wellFormed_macMemRead.2 (memReadForm_eq_next h).1)
  | shiftMemRead c dst o => exact .inl (wellFormed_shiftMemRead.2 (memReadForm_eq_next h).1)
  | aluMemWrite c z src o => exact .inl (wellFormed_aluMemWrite c z src o)
  | macMemWrite c z src o => exact .inl (wellFormed_macMemWrite.2 (memWriteForm_eq_next h).1)
  | shiftMemWrite c src o => exact .inl (wellFormed_shiftMemWrite.2 (memWriteForm_eq_next h).1)
  | aluRegMove c z d1 d2 =>
    have h' : execAluRegMove c z d1 d2 s P = .next t := h
    unfold execAluRegMove at h'
    split at h'
    next hmove =>
      obtain ⟨rfl, rfl⟩ := hmove
      cases z with
      | ar => exact .inr ⟨c, rfl⟩
      | af => cases h'
    next hmove =>
      obtain ⟨hdest, -⟩ := regMoveForm_eq_next h'
      exact .inl (wellFormed_aluRegMove.2 ⟨hmove, hdest⟩)
  | macRegMove c z d1 d2 =>
    obtain ⟨hmove, h⟩ := nonAluMoveForm_eq_next h
    obtain ⟨hdest, hsrc, -⟩ := regMoveForm_eq_next h
    exact .inl (moveCheck_eq_none.2 ⟨hmove, hdest, hsrc⟩)
  | shiftRegMove c d1 d2 =>
    obtain ⟨hmove, h⟩ := nonAluMoveForm_eq_next h
    obtain ⟨hdest, hsrc, -⟩ := regMoveForm_eq_next h
    exact .inl (moveCheck_eq_none.2 ⟨hmove, hdest, hsrc⟩)

/-- A well-formed instruction with a result register leaves its `Compute`'s value in it (R106, R108). -/
theorem execWith_resultValue (hP : P.Contract) (h : execWith P i s = .next t) (hi : WellFormed i)
    (hop : i.computeOp = some op) (hres : resultRegIn i = some op.dest) :
    t.comp.resultValue op.dest = (P.compute op s.view).result.value := by
  have htarget := hP op s.view
  obtain ⟨d, -, h⟩ | ⟨op', dst, o, hop', -, h⟩ | ⟨op', src, o, hop', -, h⟩ | ⟨op', d1, d2, hop', -, -, -, -, h⟩ |
    ⟨c, -, -, -, -, rfl | rfl, -⟩ := execWith_eq_next h
  · obtain ⟨f, -, rfl⟩ := dualReadForm_eq_next h
    rw [advance_comp, dualWrite_comp, commit_comp, resultValue_dual_loads, effectOf_of_computeOp hop,
      resultValue_applyResult, if_pos htarget]
  · obtain rfl := Option.some.inj (hop'.symm.trans hop)
    obtain ⟨hdest, v, -, rfl⟩ := memReadForm_eq_next h
    rw [advance_comp, setI_comp, dregWrite_comp, commit_comp,
      resultValue_dregWrite_applyResult _ _ _ htarget hdest]
  · obtain rfl := Option.some.inj (hop'.symm.trans hop)
    obtain ⟨-, -, s', -, rfl⟩ := memWriteForm_eq_next h
    rw [advance_comp, setI_comp, commit_comp, resultValue_applyResult, if_pos htarget]
  · obtain rfl := Option.some.inj (hop'.symm.trans hop)
    obtain ⟨hdest, -, rfl⟩ := regMoveForm_eq_next h
    rw [advance_comp, dregWrite_comp, commit_comp, resultValue_dregWrite_applyResult _ _ _ htarget hdest]
  · cases hres
  · cases hi

/-- Without a result register, an instruction leaves every result register alone (R140, R184). -/
theorem execWith_resultValue_of_none (h : execWith P i s = .next t) (hres : resultRegIn i = none) (rr : ResultReg) :
    t.comp.resultValue rr = s.comp.resultValue rr := by
  cases i with
  | dualRead d =>
    obtain ⟨f, -, rfl⟩ := dualReadForm_eq_next h
    rw [advance_comp, dualWrite_comp, commit_comp, resultValue_dual_loads]
    rfl
  | aluStatusOnly c =>
    obtain rfl := Host.Outcome.next.inj h
    rw [advance_comp, commit_comp]
    rfl
  | _ => cases hres

/-- The compute clause's half of a well-formed instruction with a result register. -/
theorem execWith_computeDone (hP : P.Contract) (h : execWith P i s = .next t) (hi : WellFormed i)
    (hop : i.computeOp = some op) (hres : resultRegIn i = some op.dest) : ComputeDone op s t P := by
  obtain ⟨-, haf, hse, hsb⟩ := execWith_regsFrame hP h
  have hne {rr : ResultReg} (hne : op.dest ≠ rr) : resultRegIn i ≠ some rr := by simpa [hres] using hne
  exact
    { result := execWith_resultValue hP h hi hop hres
      flags := (execWith_astat h).trans (by rw [effectOf_of_computeOp hop])
      af := fun h => haf (hne h)
      se := fun h => hse (hne h)
      sb := fun h => hsb (hne h) }

/-- A dual read's, load's or move's result register is that of its compute clause, and status only has none. -/
theorem resultRegIn_of_computeOp (hop : i.computeOp = some op) :
    resultRegIn i = some op.dest ∨ resultRegIn i = none := by
  cases i <;> simp_all [Instr.computeOp, resultRegIn]

end

/-! ## Which form an instruction with memory operands is -/

section
variable {i : Instr}

theorem execWith_of_dualReadsIn {d : DualReads} (hi : dualReadsIn i = some d) (P : Params) (s : State) :
    execWith P i s = dualReadForm (effectOf i s.view P) d s P := by
  cases i <;> cases hi <;> rfl

theorem execWith_of_loadIn {dst : Dreg} {o : MemOperand} (hi : loadIn i = some (dst, o)) :
    ∃ op, (WellFormed i ↔ sameDestination op dst = false) ∧
      ∀ P s, execWith P i s = memReadForm op (P.compute op s.view) dst o s P := by
  cases i with
  | aluMemRead c z dst o =>
    cases hi
    exact ⟨_, wellFormed_aluMemRead, fun P s => rfl⟩
  | macMemRead c z dst o =>
    cases hi
    exact ⟨_, wellFormed_macMemRead, fun P s => rfl⟩
  | shiftMemRead c dst o =>
    cases hi
    exact ⟨_, wellFormed_shiftMemRead, fun P s => rfl⟩
  | _ => cases hi

theorem execWith_of_storeIn {src : Dreg} {o : MemOperand} (hi : storeIn i = some (src, o)) :
    ∃ op, (WellFormed i ↔ sr2Source op src = false) ∧
      ∀ P s, execWith P i s = memWriteForm op (P.compute op s.view) src o s P := by
  cases i with
  | aluMemWrite c z src o =>
    cases hi
    exact ⟨_, iff_of_true (wellFormed_aluMemWrite c z src o) (sr2Source_alu c z src), fun P s => rfl⟩
  | macMemWrite c z src o =>
    cases hi
    exact ⟨_, wellFormed_macMemWrite, fun P s => rfl⟩
  | shiftMemWrite c src o =>
    cases hi
    exact ⟨_, wellFormed_shiftMemWrite, fun P s => rfl⟩
  | _ => cases hi

end

/-! ## The data move's half of an instruction -/

section
variable {P : Params} {i : Instr} {s t : State}

theorem dm_ireg_ne_pm_ireg (d : DualReads) : d.dm.ireg ≠ d.pm.ireg := by
  simp only [DualReads.dm, DualReads.pm, MemOperand.ireg, Dag.num, ne_eq, Fin.mk.injEq]
  omega

/-- Each index register of an operand is post-modified (R110). -/
theorem execWith_index (h : execWith P i s = .next t) {o : MemOperand} (ho : o ∈ operandsIn i) :
    t.dag.i[o.ireg] = s.nextIndex o P := by
  obtain ⟨d, hd, h⟩ | ⟨op, dst, o', hop, hi, h⟩ | ⟨op, src, o', hop, hi, h⟩ | ⟨op, d1, d2, -, -, hd, hl, hs, -⟩ |
    ⟨c, -, hd, hl, hs, -⟩ := execWith_eq_next h
  · obtain ⟨f, hf, rfl⟩ := dualReadForm_eq_next h
    obtain ⟨vD, vP, p, -, -, rfl⟩ := dualFetch_eq_some hf
    obtain ⟨-, -, hops, -⟩ := dualReadsIn_facts hd
    simp only [hops, List.mem_cons, List.not_mem_nil, or_false] at ho
    rw [advance_dag, dualWrite_dag]
    obtain rfl | rfl := ho
    · have hne : d.pm.ireg.val ≠ d.dm.ireg.val := fun he => dm_ireg_ne_pm_ireg d (Fin.ext he.symm)
      simp [Vector.getElem_set_ne, hne]
    · simp
  · obtain ⟨-, v, -, rfl⟩ := memReadForm_eq_next h
    obtain ⟨-, -, hops, -⟩ := loadIn_facts hi hop
    obtain rfl : o = o' := by simpa [hops] using ho
    simp
  · obtain ⟨-, -, s', -, rfl⟩ := memWriteForm_eq_next h
    obtain ⟨-, -, hops, -⟩ := storeIn_facts hi hop
    obtain rfl : o = o' := by simpa [hops] using ho
    simp
  · simp [operandsIn, hd, hl, hs] at ho
  · simp [operandsIn, hd, hl, hs] at ho

/-- What the two reads of a dual read leave (R130, R140). -/
theorem execWith_dualReads (h : execWith P i s = .next t) {d : DualReads} (hd : dualReadsIn i = some d) :
    ∃ vD vP p, s.dmBusRead (s.ea d.dm.ireg P) = some vD ∧ s.pmBusRead (s.ea d.pm.ireg P) = some (vP, p) ∧
      t.dregRead d.dx.toDreg P = vD ∧ t.dregRead d.dy.toDreg P = vP ∧
      t.px = pxAfter (s.memKind (s.ea d.dm.ireg P)) p P := by
  obtain ⟨f, hf, rfl⟩ := dualReadForm_eq_next ((execWith_of_dualReadsIn hd P s).symm.trans h)
  obtain ⟨vD, vP, p, hD, hPM, rfl⟩ := dualFetch_eq_some hf
  refine ⟨vD, vP, p, hD, hPM, ?_, ?_, rfl⟩
  · rw [State.dregRead, advance_comp, dualWrite_comp, dregRead_dual_loads]
  · rw [State.dregRead, advance_comp, dualWrite_comp, dregRead_dregWrite_dregY]

/-- A compute effect beside a data move writes none of the move's destinations (R115). -/
theorem not_mem_mw_of_target (hP : P.Contract) {op : ComputeOp} {v : RegView} {dst : Dreg}
    (hdest : sameDestination op dst = false) :
    ∀ rr, (P.compute op v).result.target = some rr → ∀ r ∈ rr.dregs, r ∉ dst.mw := by
  intro rr hrr
  obtain rfl := Option.some.inj ((hP op v).symm.trans hrr)
  exact sameDestination_eq_false.1 hdest

/-- What the load of Compute with Memory Read leaves (R150). -/
theorem execWith_load (hP : P.Contract) (h : execWith P i s = .next t) {dst : Dreg} {o : MemOperand}
    (hi : loadIn i = some (dst, o)) :
    ∃ v, s.dmBusRead (s.ea o.ireg P) = some v ∧
      ∀ r ∈ dst.mw, t.dregRead r P = (s.dregWrite dst v P).dregRead r P := by
  obtain ⟨op, -, hform⟩ := execWith_of_loadIn hi
  obtain ⟨hdest, v, hv, rfl⟩ := memReadForm_eq_next ((hform P s).symm.trans h)
  refine ⟨v, hv, fun r hr => ?_⟩
  simp only [State.dregRead, advance_comp, setI_comp, dregWrite_comp, commit_comp]
  exact dregRead_dregWrite_applyResult _ _ v _ hr (not_mem_mw_of_target hP hdest)

/-- What the move of Compute with Register to Register Move leaves (R180). The move `AR = AR` of status only leaves AR
alone. -/
theorem execWith_move (hP : P.Contract) (h : execWith P i s = .next t) {d1 d2 : Dreg} (hi : moveIn i = some (d1, d2)) :
    ∀ r ∈ d1.mw, t.dregRead r P = (s.dregWrite d1 (s.dregRead d2 P) P).dregRead r P := by
  obtain ⟨d, hd, -⟩ | ⟨op, dst, o, hop, hl, -⟩ | ⟨op, src, o, hop, hs, -⟩ | ⟨op, e1, e2, hop, hm, -, -, -, h⟩ |
    ⟨c, -, -, -, -, rfl | rfl, h⟩ := execWith_eq_next h
  · obtain ⟨-, -, -, -, -, hm⟩ := dualReadsIn_facts hd
    cases hm.symm.trans hi
  · obtain ⟨-, -, -, -, -, hm⟩ := loadIn_facts hl hop
    cases hm.symm.trans hi
  · obtain ⟨-, -, -, -, -, hm⟩ := storeIn_facts hs hop
    cases hm.symm.trans hi
  · obtain ⟨rfl, rfl⟩ : e1 = d1 ∧ e2 = d2 := by simpa [hm] using hi
    obtain ⟨hdest, -, rfl⟩ := regMoveForm_eq_next h
    intro r hr
    simp only [State.dregRead, advance_comp, dregWrite_comp, commit_comp]
    exact dregRead_dregWrite_applyResult _ _ _ _ hr (not_mem_mw_of_target hP hdest)
  · cases hi
  · cases hi
    obtain rfl := Host.Outcome.next.inj h
    intro r hr
    obtain rfl := List.mem_singleton.1 hr
    simp only [State.dregRead, advance_comp, dregWrite_comp, commit_comp]
    rfl

/-- Bits 7:0 of a 24-bit location after a DM-bus write (R48). -/
theorem low24_dmBusWrite {s s' : State} {a : Addr} {v : Word} {low : W24Low} (h : s.dmBusWrite a v low = some s')
    (hk : s.memKind a = .w24) : s'.low24 a = s.lowAfterWrite a low := by
  rw [low24_eq, mem24_dmBusWrite h hk]
  apply BitVec.eq_of_toNat_eq
  rw [BitVec.extractLsb'_toNat, toNat_append_add]
  have := (s.lowAfterWrite a low).isLt
  simp only [Nat.shiftRight_zero]
  omega

theorem lane_congr {s t : State} (h : t.mem = s.mem) (a : Addr) (k : Nat) : t.lane a k = s.lane a k := byte_congr h _

theorem mem16_congr {s t : State} (h : t.mem = s.mem) (a : Addr) : t.mem16 a = s.mem16 a := by
  simp only [State.mem16, lane_congr h]

theorem mem24_congr {s t : State} (h : t.mem = s.mem) (a : Addr) : t.mem24 a = s.mem24 a := by
  simp only [State.mem24, lane_congr h]

theorem low24_congr {s t : State} (h : t.mem = s.mem) (a : Addr) : t.low24 a = s.low24 a := lane_congr h a 0

/-- The DM-bus write of Compute with Memory Write, and that nothing else touches memory (R165). -/
theorem execWith_store (h : execWith P i s = .next t) {src : Dreg} {o : MemOperand} (hi : storeIn i = some (src, o)) :
    ∃ s', s.dmBusWrite (s.ea o.ireg P) (s.dregRead src P) P.w24Low = some s' ∧ t.mem = s'.mem ∧ t.draws = s'.draws := by
  obtain ⟨hnone, -⟩ | ⟨src', o', s', hi', -, hs', hmem⟩ := execWith_mem h
  · cases hnone.symm.trans hi
  · cases hi'.symm.trans hi
    exact ⟨s', hs', hmem⟩

theorem sameMemory_of_storeIn_eq_none (h : execWith P i s = .next t) (hi : storeIn i = none) : SameMemory s t := by
  obtain ⟨-, hmem, hdraws⟩ | ⟨src, o, s', hi', -⟩ := execWith_mem h
  · exact ⟨byte_congr hmem, hdraws⟩
  · cases hi.symm.trans hi'

/-- What Compute with Memory Write leaves in memory (R48, R165). -/
theorem execWith_stored (h : execWith P i s = .next t) {src : Dreg} {o : MemOperand} (hi : storeIn i = some (src, o)) :
    (s.memKind (s.ea o.ireg P) = .w16 → t.mem16 (s.ea o.ireg P) = s.dregRead src P) ∧
    (s.memKind (s.ea o.ireg P) = .w24 →
      (t.mem24 (s.ea o.ireg P)).extractLsb' 8 16 = s.dregRead src P ∧
        t.low24 (s.ea o.ireg P) = s.lowAfterWrite (s.ea o.ireg P) P.w24Low) ∧
    ∀ key, key ∉ s.locationKeys (s.ea o.ireg P) → t.byte key = s.byte key := by
  obtain ⟨s', hs', hmem, -⟩ := execWith_store h hi
  refine ⟨fun hk => ?_, fun hk => ⟨?_, ?_⟩, fun key hkey => ?_⟩
  · rw [mem16_congr hmem, mem16_dmBusWrite hs' hk]
  · rw [mem24_congr hmem, high_mem24_dmBusWrite hs' hk]
  · rw [low24_congr hmem, low24_dmBusWrite hs' hk]
  · rw [byte_congr hmem, byte_dmBusWrite_of_not_mem hs' hkey]

end

theorem getElem_set_of_ne {v : Vector Word 8} {i j : Fin 8} (x : Word) (h : j ≠ i) : (v.set i x)[j] = v[j] :=
  Vector.getElem_set_ne _ _ fun he => h (Fin.ext he.symm)

/-- An instruction writes the index registers of its operands only (R118). -/
theorem execWith_indexes {P : Params} {i : Instr} {s t : State} (h : execWith P i s = .next t) :
    SameIndexesBut (indexesIn i) s t := by
  intro j hj
  obtain ⟨d, f, hd, rfl⟩ | ⟨op, dst, o, v, x, hop, hi, rfl⟩ | ⟨op, src, o, v, s', x, hop, hi, hs', rfl⟩ |
    ⟨op, d1, d2, v, -, -, rfl⟩ | rfl := execWith_writes h
  · obtain ⟨-, -, hops, -⟩ := dualReadsIn_facts hd
    simp only [indexesIn, hops, List.map_cons, List.map_nil, List.mem_cons, List.not_mem_nil, or_false, not_or] at hj
    obtain ⟨hdm, hpm⟩ := hj
    rw [advance_dag, dualWrite_dag, commit_dag]
    exact (getElem_set_of_ne _ hpm).trans (getElem_set_of_ne _ hdm)
  · obtain ⟨-, -, hops, -⟩ := loadIn_facts hi hop
    simp only [indexesIn, hops, List.map_cons, List.map_nil, List.mem_singleton] at hj
    rw [advance_dag, setI_dag, dregWrite_dag, commit_dag]
    exact getElem_set_of_ne _ hj
  · obtain ⟨-, -, hops, -⟩ := storeIn_facts hi hop
    obtain ⟨-, -, hdag, -⟩ := dmBusWrite_frame hs'
    simp only [indexesIn, hops, List.map_cons, List.map_nil, List.mem_singleton] at hj
    rw [advance_dag, setI_dag, commit_dag, hdag]
    exact getElem_set_of_ne _ hj
  · simp
  · simp

/-! ## The two statements -/

theorem stepWith_of_interrupt {P : Params} {s s' : State} (h : P.interrupt s = some s') : stepWith P s = .next s' := by
  simp only [stepWith, h]

theorem stepWith_of_no_interrupt {P : Params} {s : State} (h : P.interrupt s = none) :
    stepWith P s = s.runFetched (execWith P) := by
  simp only [stepWith, h]

/-- Without a compute clause, an instruction leaves the flags and the result registers alone (R108, R140). -/
theorem execWith_of_no_compute {P : Params} {i : Instr} {s t : State} (h : execWith P i s = .next t)
    (hop : i.computeOp = none) : t.astat = s.astat ∧ ∀ r, t.comp.resultValue r = s.comp.resultValue r := by
  have hres : resultRegIn i = none := by cases i <;> simp_all [Instr.computeOp, resultRegIn]
  exact ⟨(execWith_astat h).trans (by simp [effectOf, hop, noCompute, State.view]), execWith_resultValue_of_none h hres⟩

/-- Settles O52: the frame, the flags and the result register have their lemmas for every configuration. -/
theorem computeHoldsForEveryParameters : Obligations.ComputeHoldsForEveryParameters := by
  refine ⟨exec_eq_execWith, step_eq_stepWith, params_interrupt, params_contract,
    fun P s => ⟨fun s' h => stepWith_of_interrupt h, fun i hint hpc hi => ?_⟩, fun P i s t hP h => ?_⟩
  · rw [stepWith_of_no_interrupt hint, runFetched_of_decode hpc hi]
  · obtain ⟨hdregs, -⟩ := execWith_regsFrame hP h
    refine ⟨execWith_stepFrame h, hdregs, execWith_indexes h, ?_⟩
    cases hop : i.computeOp with
    | some op =>
      exact ⟨(execWith_astat h).trans (by rw [effectOf_of_computeOp hop]),
        fun hi hres => execWith_computeDone hP h hi hop hres, execWith_resultValue_of_none h⟩
    | none => exact execWith_of_no_compute h hop

/-- Settles O53: each kind of data move has its lemma for every configuration. -/
theorem dataMoveHoldsForEveryParameters : Obligations.DataMoveHoldsForEveryParameters := by
  intro P i s t hP h
  refine ⟨fun o => execWith_index h, sameMemory_of_storeIn_eq_none h, execWith_px h, fun d => execWith_dualReads h,
    fun dst o => execWith_load hP h, fun src o hi => ?_, fun d1 d2 => execWith_move hP h⟩
  obtain ⟨h16, h24, hbytes⟩ := execWith_stored h hi
  refine ⟨h16, fun hk => ?_, hbytes⟩
  obtain ⟨hhigh, hlow⟩ := h24 hk
  refine ⟨hhigh, fun hw => ?_, fun hw => ?_⟩
  · rw [hlow, hw, State.lowAfterWrite]
  · rw [hlow, hw, State.lowAfterWrite]

end Sys2Proof.Machine

/-!
Proofs that every instruction completes, and with what (R130, R131, R140, R150 to R152, R165 to R167, R180 to R182,
R184).
-/

namespace Sys2Proof.Machine

open Sys2Proof

/-! ## Where each form answers a next state -/

section
variable {P : Params} {s : State} {op : ComputeOp}

theorem dualReadForm_completes (e : ComputeEffect) {d : DualReads} {vD vP : Word} {p : Byte}
    (hD : s.dmBusRead (s.ea d.dm.ireg P) = some vD) (hPM : s.pmBusRead (s.ea d.pm.ireg P) = some (vP, p)) :
    ∃ t, dualReadForm e d s P = .next t := by
  simp only [dualReadForm, State.dualFetch, hD, hPM]
  exact ⟨_, rfl⟩

theorem memReadForm_completes (e : ComputeEffect) {dst : Dreg} {o : MemOperand} {v : Word}
    (hdest : sameDestination op dst = false) (hv : s.dmBusRead (s.ea o.ireg P) = some v) :
    ∃ t, memReadForm op e dst o s P = .next t := by
  simp only [memReadForm, hdest, Bool.false_eq_true, if_false, hv]
  exact ⟨_, rfl⟩

theorem memWriteForm_completes (e : ComputeEffect) {src : Dreg} {o : MemOperand} (hsrc : sr2Source op src = false)
    (htext : s.text.holds (s.ea o.ireg P) = false) (hkind : s.memKind (s.ea o.ireg P) ≠ .absent) :
    ∃ t, memWriteForm op e src o s P = .next t := by
  obtain ⟨s', hs'⟩ := exists_dmBusWrite (s.dregRead src P) P.w24Low hkind
  simp only [memWriteForm, hsrc, htext, Bool.false_eq_true, if_false, hs']
  exact ⟨_, rfl⟩

theorem regMoveForm_completes (e : ComputeEffect) {d1 d2 : Dreg} (hdest : sameDestination op d1 = false)
    (hsrc : sr2Source op d2 = false) : ∃ t, regMoveForm op e d1 d2 s P = .next t := by
  simp only [regMoveForm, hdest, hsrc, Bool.false_eq_true, if_false]
  exact ⟨_, rfl⟩

theorem nonAluMoveForm_completes (e : ComputeEffect) {d1 d2 : Dreg} (h : moveCheck op d1 d2 = none) :
    ∃ t, nonAluMoveForm op e d1 d2 s P = .next t := by
  obtain ⟨hmove, hdest, hsrc⟩ := moveCheck_eq_none.1 h
  obtain ⟨t, ht⟩ := regMoveForm_completes (s := s) (P := P) e hdest hsrc
  exact ⟨t, (if_neg hmove).trans ht⟩

theorem execAluRegMove_of_move {c : AluClause} {z : AluDest} {d1 d2 : Dreg} (hmove : ¬(d1 = .ar ∧ d2 = .ar)) :
    execAluRegMove c z d1 d2 s P = regMoveForm (.alu c z) (P.compute (.alu c z) s.view) d1 d2 s P := if_neg hmove

end

/-! ## What each form leaves, as its rule states it -/

section
variable {i : Instr} {s t : State} {op : ComputeOp}

theorem computedDregs_eq_cw (hres : resultRegIn i = some op.dest) : computedDregs i = op.cw := by
  simp only [computedDregs, hres, ComputeOp.cw]

variable (h : exec i s = .next t)
include h

theorem exec_dregs : SameDregsBut (computedDregs i ++ movedDregs i) s t := by
  obtain ⟨-, hdregs, -⟩ := instructionsChangeOnlyTheirFrame i s t h
  exact hdregs

theorem exec_indexes {is : List (Fin 8)} (his : indexesIn i = is) : SameIndexesBut is s t :=
  his ▸ execWith_indexes (execWith_of_exec h)

theorem exec_dualReadsDone {d : DualReads} {vD vP : Word} {p : Byte} (hd : dualReadsIn i = some d)
    (hD : s.dmBusRead (s.ea d.dm.ireg) = some vD) (hPM : s.pmBusRead (s.ea d.pm.ireg) = some (vP, p)) :
    DualReadsDone d vD vP p s t := by
  have hw := execWith_of_exec h
  obtain ⟨-, -, hops, -, hstore, -⟩ := dualReadsIn_facts hd
  obtain ⟨vD', vP', p', hD', hPM', hdx, hdy, hpx⟩ := execWith_dualReads hw hd
  obtain rfl : vD' = vD := Option.some.inj (hD'.symm.trans hD)
  obtain ⟨rfl, rfl⟩ : vP' = vP ∧ p' = p := by simpa using hPM'.symm.trans hPM
  exact
    { dx := hdx
      dy := hdy
      px := hpx
      dmIndex := execWith_index hw (by simp [hops])
      pmIndex := execWith_index hw (by simp [hops])
      indexes := exec_indexes h (by simp [indexesIn, hops])
      memory := sameMemory_of_storeIn_eq_none hw hstore
      frame := execWith_stepFrame hw }

/-- What the load of Compute with Memory Read leaves in its destinations, for the default `P_DREG_WRITE_FX`. -/
theorem exec_loaded {dst : Dreg} {o : MemOperand} (hl : loadIn i = some (dst, o)) :
    ∃ v, s.dmBusRead (s.ea o.ireg) = some v ∧ ∀ r ∈ dst.mw, t.dregRead r = movedValue dst r v := by
  obtain ⟨v, hv, hload⟩ := execWith_load params_contract (execWith_of_exec h) hl
  refine ⟨v, hv, fun r hr => ?_⟩
  rw [hload r hr, State.dregRead, dregWrite_comp]
  exact (dregRead_dregWrite _ _ _ _).trans (if_pos hr)

variable (hop : i.computeOp = some op)
include hop

theorem exec_computeDone (hi : WellFormed i) (hres : resultRegIn i = some op.dest) : ComputeDone op s t :=
  execWith_computeDone params_contract (execWith_of_exec h) hi hop hres

theorem exec_memReadDone {dst : Dreg} {o : MemOperand} {v : Word} (hi : WellFormed i) (hl : loadIn i = some (dst, o))
    (hv : s.dmBusRead (s.ea o.ireg) = some v) : MemReadDone op dst o v s t := by
  have hw := execWith_of_exec h
  obtain ⟨hmoved, hres, hops, hdual, hstore, -⟩ := loadIn_facts hl hop
  obtain ⟨v', hv', hloaded⟩ := exec_loaded h hl
  obtain rfl : v' = v := Option.some.inj (hv'.symm.trans hv)
  have hdregs := exec_dregs h
  exact
    { compute := exec_computeDone h hop hi hres
      loaded := hloaded
      dregs := by rwa [computedDregs_eq_cw hres, hmoved] at hdregs
      index := execWith_index hw (by simp [hops])
      indexes := exec_indexes h (by simp [indexesIn, hops])
      px := execWith_px hw hdual
      memory := sameMemory_of_storeIn_eq_none hw hstore
      frame := execWith_stepFrame hw }

theorem exec_memWriteDone {src : Dreg} {o : MemOperand} (hi : WellFormed i) (hs : storeIn i = some (src, o)) :
    MemWriteDone op src o s t := by
  have hw := execWith_of_exec h
  obtain ⟨hmoved, hres, hops, hdual, -⟩ := storeIn_facts hs hop
  obtain ⟨h16, h24, hbytes⟩ := execWith_stored hw hs
  have hdregs := exec_dregs h
  exact
    { compute := exec_computeDone h hop hi hres
      stored16 := h16
      stored24 := fun hk => (h24 hk).1
      bytes := hbytes
      dregs := by rwa [computedDregs_eq_cw hres, hmoved, List.append_nil] at hdregs
      index := execWith_index hw (by simp [hops])
      indexes := exec_indexes h (by simp [indexesIn, hops])
      px := execWith_px hw hdual
      frame := execWith_stepFrame hw }

theorem exec_regMoveDone {d1 d2 : Dreg} (hi : WellFormed i) (hm : moveIn i = some (d1, d2)) :
    RegMoveDone op d1 d2 s t := by
  have hw := execWith_of_exec h
  obtain ⟨hmoved, hres⟩ := moveIn_facts hm hop
  obtain ⟨hdual, hops, hstore⟩ : dualReadsIn i = none ∧ operandsIn i = [] ∧ storeIn i = none := by
    cases i <;> cases hm <;> exact ⟨rfl, rfl, rfl⟩
  have hdregs := exec_dregs h
  exact
    { compute := exec_computeDone h hop hi hres
      moved := fun r hr => by
        rw [execWith_move params_contract hw hm r hr, State.dregRead, dregWrite_comp]
        exact (dregRead_dregWrite _ _ _ _).trans (if_pos hr)
      dregs := by rwa [computedDregs_eq_cw hres, hmoved] at hdregs
      indexes := exec_indexes h (by simp [indexesIn, hops])
      px := execWith_px hw hdual
      memory := sameMemory_of_storeIn_eq_none hw hstore
      frame := execWith_stepFrame hw }

end

/-! ## The dual-read forms -/

/-- Settles O27: the form completes; its compute clause, its two reads and its frame have their lemmas. -/
theorem aluDualReadCompletes : Obligations.AluDualReadCompletes := by
  intro c d s vD vP p hD hPM
  obtain ⟨t, h⟩ : ∃ t, exec (.aluDualRead c d) s = .next t := dualReadForm_completes _ hD hPM
  exact ⟨t, h, exec_computeDone h rfl rfl rfl, exec_dualReadsDone h rfl hD hPM, exec_dregs h⟩

/-- Settles O28, as O27. -/
theorem macDualReadCompletes : Obligations.MacDualReadCompletes := by
  intro c d s vD vP p hD hPM
  obtain ⟨t, h⟩ : ∃ t, exec (.macDualRead c d) s = .next t := dualReadForm_completes _ hD hPM
  exact ⟨t, h, exec_computeDone h rfl rfl rfl, exec_dualReadsDone h rfl hD hPM, exec_dregs h⟩

/-- Settles O29, as O27, without a compute clause. -/
theorem dualReadCompletes : Obligations.DualReadCompletes := by
  intro d s vD vP p hD hPM
  obtain ⟨t, h⟩ : ∃ t, exec (.dualRead d) s = .next t := dualReadForm_completes _ hD hPM
  obtain ⟨hastat, hres⟩ := execWith_of_no_compute (execWith_of_exec h) rfl
  exact ⟨t, h, exec_dualReadsDone h rfl hD hPM, hastat, hres, exec_dregs h⟩

/-! ## Compute with Memory Read -/

/-- Settles O30: the form completes where the two destinations are apart, and leaves what its rule states. -/
theorem aluMemReadCompletes : Obligations.AluMemReadCompletes := by
  intro c z dst o s v hne hv
  have hdest := (sameDestination_alu_eq_false (c := c)).2 hne
  obtain ⟨t, h⟩ : ∃ t, exec (.aluMemRead c z dst o) s = .next t := memReadForm_completes _ hdest hv
  exact ⟨t, h, exec_memReadDone h rfl (wellFormed_aluMemRead.2 hdest) rfl hv⟩

/-- Settles O31, as O30. -/
theorem macMemReadCompletes : Obligations.MacMemReadCompletes := by
  intro c z dst o s v hmr hsr hv
  have hdest := (sameDestination_mac_eq_false (c := c)).2 ⟨hmr, hsr⟩
  obtain ⟨t, h⟩ : ∃ t, exec (.macMemRead c z dst o) s = .next t := memReadForm_completes _ hdest hv
  exact ⟨t, h, exec_memReadDone h rfl (wellFormed_macMemRead.2 hdest) rfl hv⟩

/-- Settles O32, as O30. -/
theorem shiftMemReadCompletes : Obligations.ShiftMemReadCompletes := by
  intro c dst o s v hsr hv
  have hdest := sameDestination_shift_eq_false.2 hsr
  obtain ⟨t, h⟩ : ∃ t, exec (.shiftMemRead c dst o) s = .next t := memReadForm_completes _ hdest hv
  exact ⟨t, h, exec_memReadDone h rfl (wellFormed_shiftMemRead.2 hdest) rfl hv⟩

/-! ## Compute with Memory Write -/

/-- Settles O33: an ALU clause's result is no part of SR, so the form completes, and leaves what its rule states. -/
theorem aluMemWriteCompletes : Obligations.AluMemWriteCompletes := by
  intro c z src o s htext hkind
  have hsrc := sr2Source_alu c z src
  obtain ⟨t, h⟩ : ∃ t, exec (.aluMemWrite c z src o) s = .next t := memWriteForm_completes _ hsrc htext hkind
  exact ⟨t, h, exec_memWriteDone h rfl (wellFormed_aluMemWrite c z src o) rfl⟩

/-- Settles O34: the form completes where SR2 is not stored beside a result in SR. -/
theorem macMemWriteCompletes : Obligations.MacMemWriteCompletes := by
  intro c z src o s hne htext hkind
  have hsrc := (sr2Source_mac_eq_false (c := c)).2 hne
  obtain ⟨t, h⟩ : ∃ t, exec (.macMemWrite c z src o) s = .next t := memWriteForm_completes _ hsrc htext hkind
  exact ⟨t, h, exec_memWriteDone h rfl (wellFormed_macMemWrite.2 hsrc) rfl⟩

/-- Settles O35, as O34. -/
theorem shiftMemWriteCompletes : Obligations.ShiftMemWriteCompletes := by
  intro c src o s hne htext hkind
  have hsrc := sr2Source_shift_eq_false.2 hne
  obtain ⟨t, h⟩ : ∃ t, exec (.shiftMemWrite c src o) s = .next t := memWriteForm_completes _ hsrc htext hkind
  exact ⟨t, h, exec_memWriteDone h rfl (wellFormed_shiftMemWrite.2 hsrc) rfl⟩

/-! ## Compute with Register to Register Move -/

@[simp] theorem setComp_comp_self (s : State) : s.setComp s.comp = s := by
  unfold State.setComp State.comp
  cases h : s.modes.secReg <;> simp

theorem statusOnlyForm_eq (e : ComputeEffect) (s : State) :
    statusOnlyForm e s = .next { s with astat := e.astat, pc := s.pc + 1 } := by
  simp [statusOnlyForm, statusOnly, State.commit, applyResult, State.advance]

section
variable {fn : AluFn} {x y : OperandText} {cx : AluX} {cy : AluY} (hx : aluXOfText x = some cx)
  (hy : aluYOfText y = some cy)
include hx hy

theorem assemble_alu_ar_ar :
    assemble [.compute ⟨false, .reg .ar, .alu fn x y⟩, .move (.dreg .ar) (.dreg .ar)] =
      .ok (.aluStatusOnly ⟨fn, cx, cy⟩) := by
  have ho : computeOfText ⟨false, .reg .ar, .alu fn x y⟩ = .ok (.op (.alu ⟨fn, cx, cy⟩ .ar)) := by
    simp [computeOfText, aluOfText, hx, hy]
  show computeOfText ⟨false, .reg .ar, .alu fn x y⟩ >>= (fun o => regMoveOfText o .ar .ar >>= checked) = _
  rw [ho]
  rfl

theorem assemble_none_alu : assemble [.compute ⟨false, .none, .alu fn x y⟩] = .ok (.aluStatusOnly ⟨fn, cx, cy⟩) := by
  have ho : computeOfText ⟨false, .none, .alu fn x y⟩ = .ok (.noneAlu ⟨fn, cx, cy⟩) := by
    simp [computeOfText, aluOfText, hx, hy]
  simp only [assemble, computesOf, readsOf, writesOf, movesOf, List.filterMap_cons, List.filterMap_nil, ho]
  rfl

theorem assemble_alu_af_ar :
    assemble [.compute ⟨false, .reg .af, .alu fn x y⟩, .move (.dreg .ar) (.dreg .ar)] = .error (.refused .arArAf) := by
  have ho : computeOfText ⟨false, .reg .af, .alu fn x y⟩ = .ok (.op (.alu ⟨fn, cx, cy⟩ .af)) := by
    simp [computeOfText, aluOfText, hx, hy]
  show computeOfText ⟨false, .reg .af, .alu fn x y⟩ >>= (fun o => regMoveOfText o .ar .ar >>= checked) = _
  rw [ho]
  rfl

end

/-- Settles O36: the write of nothing leaves the registers, and the three texts are read part by part. -/
theorem aluStatusOnlyCompletes : Obligations.AluStatusOnlyCompletes :=
  ⟨fun c s => ⟨statusOnlyForm_eq (compute (.alu c .ar) s.view) s, rfl, rfl⟩,
    fun _ _ _ _ _ hx hy => ⟨assemble_alu_ar_ar hx hy, assemble_none_alu hx hy, assemble_alu_af_ar hx hy⟩⟩

/-- Settles O37: apart from `AR = AR` the instruction is the shared form, which completes. -/
theorem aluRegMoveCompletes : Obligations.AluRegMoveCompletes := by
  intro c z d1 d2 s hne hmove
  have hdest := (sameDestination_alu_eq_false (c := c)).2 hne
  obtain ⟨t, h⟩ : ∃ t, exec (.aluRegMove c z d1 d2) s = .next t :=
    (regMoveForm_completes _ hdest (sr2Source_alu c z d2)).imp fun t => (execAluRegMove_of_move hmove).trans
  exact ⟨t, h, exec_regMoveDone h rfl (wellFormed_aluRegMove.2 ⟨hmove, hdest⟩) rfl⟩

/-- Settles O38: the hypotheses are the checks of the move (R181). -/
theorem macRegMoveCompletes : Obligations.MacRegMoveCompletes := by
  intro c z d1 d2 s hmove hmr hsr hsrc
  have hcheck : moveCheck (.mac c z) d1 d2 = none :=
    moveCheck_eq_none.2 ⟨hmove, sameDestination_mac_eq_false.2 ⟨hmr, hsr⟩, sr2Source_mac_eq_false.2 hsrc⟩
  obtain ⟨t, h⟩ : ∃ t, exec (.macRegMove c z d1 d2) s = .next t := nonAluMoveForm_completes _ hcheck
  exact ⟨t, h, exec_regMoveDone h rfl hcheck rfl⟩

/-- Settles O39: the hypotheses are the checks of the move (R182). -/
theorem shiftRegMoveCompletes : Obligations.ShiftRegMoveCompletes := by
  intro c d1 d2 s hmove hsr hsrc
  have hcheck : moveCheck (.shift c) d1 d2 = none :=
    moveCheck_eq_none.2 ⟨hmove, sameDestination_shift_eq_false.2 hsr, sr2Source_shift_eq_false.2 hsrc⟩
  obtain ⟨t, h⟩ : ∃ t, exec (.shiftRegMove c d1 d2) s = .next t := nonAluMoveForm_completes _ hcheck
  exact ⟨t, h, exec_regMoveDone h rfl hcheck rfl⟩

end Sys2Proof.Machine

/-!
Proofs of the statements on where an instruction stops (R50, R59, R92, R115, R116, R185).
-/

namespace Sys2Proof.Machine

open Sys2Proof

/-! ## Where each form stops -/

section
variable {P : Params} {s : State} {op : ComputeOp} (e : ComputeEffect)

theorem memReadForm_of_sameDestination {dst : Dreg} (o : MemOperand) (h : sameDestination op dst = true) :
    memReadForm op e dst o s P = .fault (.unpredictable .sameDestination) := if_pos h

theorem memReadForm_of_absent {dst : Dreg} {o : MemOperand} (h : sameDestination op dst = false)
    (hk : s.memKind (s.ea o.ireg P) = .absent) : memReadForm op e dst o s P = .fault .noMemory := by
  simp only [memReadForm, h, Bool.false_eq_true, if_false, dmBusRead_of_absent hk]

theorem memWriteForm_of_sr2Source {src : Dreg} (o : MemOperand) (h : sr2Source op src = true) :
    memWriteForm op e src o s P = .fault (.unpredictable .sr2Source) := if_pos h

theorem memWriteForm_of_text {src : Dreg} {o : MemOperand} (h : sr2Source op src = false)
    (ht : s.text.holds (s.ea o.ireg P) = true) : memWriteForm op e src o s P = .refused .storeToCode := by
  simp only [memWriteForm, h, ht, Bool.false_eq_true, if_false, if_true]

/-- Program text is 24-bit memory (log 6). -/
theorem text_holds_of_absent {a : Addr} (hk : s.memKind a = .absent) : s.text.holds a = false := by
  cases ht : s.text.holds a with
  | false => rfl
  | true => simp [State.memKind, ht] at hk

theorem memWriteForm_of_absent {src : Dreg} {o : MemOperand} (h : sr2Source op src = false)
    (hk : s.memKind (s.ea o.ireg P) = .absent) : memWriteForm op e src o s P = .fault .noMemory := by
  simp only [memWriteForm, h, text_holds_of_absent hk, Bool.false_eq_true, if_false, dmBusWrite_of_absent _ _ hk]

theorem dualReadForm_of_absent {d : DualReads}
    (hk : s.memKind (s.ea d.dm.ireg P) = .absent ∨ s.memKind (s.ea d.pm.ireg P) = .absent) :
    dualReadForm e d s P = .fault .noMemory := by
  have hfetch : s.dualFetch d P = none := by
    obtain hk | hk := hk
    · simp [State.dualFetch, dmBusRead_of_absent hk]
    · simp [State.dualFetch, pmBusRead_of_absent hk]
  simp only [dualReadForm, hfetch]

theorem regMoveForm_of_sameDestination {d1 : Dreg} (d2 : Dreg) (h : sameDestination op d1 = true) :
    regMoveForm op e d1 d2 s P = .fault (.unpredictable .sameDestination) := if_pos h

theorem regMoveForm_of_sr2Source {d1 d2 : Dreg} (hdest : sameDestination op d1 = false) (h : sr2Source op d2 = true) :
    regMoveForm op e d1 d2 s P = .fault (.unpredictable .sr2Source) := by
  simp only [regMoveForm, hdest, h, Bool.false_eq_true, if_false, if_true]

theorem nonAluMoveForm_of_move {d1 d2 : Dreg} (h : ¬(d1 = .ar ∧ d2 = .ar)) :
    nonAluMoveForm op e d1 d2 s P = regMoveForm op e d1 d2 s P := if_neg h

end

/-- Settles O40, form by form. -/
theorem sameDestinationFaults : Obligations.SameDestinationFaults := by
  refine fun s dst d2 o => ⟨fun c => ?_, fun hd c => ?_, fun hd c => ?_, fun hd c hfn => ?_, fun hd2 c => ?_⟩
  · have hdest : sameDestination (.alu c .ar) .ar = true := sameDestination_alu.2 ⟨rfl, rfl⟩
    exact memReadForm_of_sameDestination (s := s) (P := params) (compute (.alu c .ar) s.view) o hdest
  · have hdest : sameDestination (.mac c .mr) dst = true := sameDestination_mac.2 (.inl ⟨rfl, hd⟩)
    have hmove : ¬(dst = .ar ∧ d2 = .ar) := fun h => absurd (h.1 ▸ hd) (by decide)
    exact ⟨memReadForm_of_sameDestination _ o hdest,
      (nonAluMoveForm_of_move _ hmove).trans (regMoveForm_of_sameDestination _ d2 hdest)⟩
  · have hdest : sameDestination (.mac c .sr) dst = true := sameDestination_mac.2 (.inr ⟨rfl, hd⟩)
    have hmove : ¬(dst = .ar ∧ d2 = .ar) := fun h => absurd (h.1 ▸ hd) (by decide)
    exact ⟨memReadForm_of_sameDestination _ o hdest,
      (nonAluMoveForm_of_move _ hmove).trans (regMoveForm_of_sameDestination _ d2 hdest)⟩
  · have hdest : sameDestination (.shift c) dst = true := sameDestination_shift.2 ⟨hfn, hd⟩
    have hmove : ¬(dst = .ar ∧ d2 = .ar) := fun h => absurd (h.1 ▸ hd) (by decide)
    exact ⟨memReadForm_of_sameDestination _ o hdest,
      (nonAluMoveForm_of_move _ hmove).trans (regMoveForm_of_sameDestination _ d2 hdest)⟩
  · exact (execAluRegMove_of_move fun h => hd2 h.2).trans
      (regMoveForm_of_sameDestination _ d2 (sameDestination_alu.2 ⟨rfl, rfl⟩))

/-- Settles O41, form by form. -/
theorem sr2SourceFaults : Obligations.Sr2SourceFaults := by
  refine fun s d1 o => ⟨fun c => ?_, fun c hfn => ?_, fun hd c => ?_, fun hd c hfn => ?_⟩
  · have hsrc : sr2Source (.mac c .sr) .sr2 = true := sr2Source_mac.2 ⟨rfl, rfl⟩
    exact memWriteForm_of_sr2Source (s := s) (P := params) (compute (.mac c .sr) s.view) o hsrc
  · have hsrc : sr2Source (.shift c) .sr2 = true := sr2Source_shift.2 ⟨hfn, rfl⟩
    exact memWriteForm_of_sr2Source _ o hsrc
  · have hsrc : sr2Source (.mac c .sr) .sr2 = true := sr2Source_mac.2 ⟨rfl, rfl⟩
    have hdest : sameDestination (.mac c .sr) d1 = false := sameDestination_mac_eq_false.2 ⟨nofun, fun _ => hd⟩
    have hmove : ¬(d1 = .ar ∧ Dreg.sr2 = .ar) := fun h => nomatch h.2
    exact (nonAluMoveForm_of_move _ hmove).trans (regMoveForm_of_sr2Source _ hdest hsrc)
  · have hsrc : sr2Source (.shift c) .sr2 = true := sr2Source_shift.2 ⟨hfn, rfl⟩
    have hdest : sameDestination (.shift c) d1 = false := sameDestination_shift_eq_false.2 fun _ => hd
    have hmove : ¬(d1 = .ar ∧ Dreg.sr2 = .ar) := fun h => nomatch h.2
    exact (nonAluMoveForm_of_move _ hmove).trans (regMoveForm_of_sr2Source _ hdest hsrc)

/-- Settles O42: the move is looked at first. -/
theorem arArBesideNonAluRefused : Obligations.ArArBesideNonAluRefused := by
  refine fun s => ⟨fun c z => ?_, fun c => ?_⟩
  · show nonAluMoveForm (.mac c z) (compute (.mac c z) s.view) .ar .ar s params = _
    exact if_pos ⟨rfl, rfl⟩
  · show nonAluMoveForm (.shift c) (compute (.shift c) s.view) .ar .ar s params = _
    exact if_pos ⟨rfl, rfl⟩

/-- Settles O43: no bus primitive delivers or stores where no memory is. -/
theorem accessWithoutMemoryFaults : Obligations.AccessWithoutMemoryFaults := by
  refine ⟨fun i d s hd hk => ?_, fun i r o s hi hk => ?_⟩
  · rw [exec_eq_execWith, execWith_of_dualReadsIn hd]
    exact dualReadForm_of_absent _ hk
  · rw [exec_eq_execWith]
    obtain hi | hi := hi
    · obtain ⟨op, hwf, hform⟩ := execWith_of_loadIn hi
      rw [hform, hwf]
      refine ⟨?_, fun hdest => memReadForm_of_absent _ hdest hk⟩
      rintro ⟨t, h⟩
      obtain ⟨-, v, hv, -⟩ := memReadForm_eq_next h
      cases (dmBusRead_of_absent hk).symm.trans hv
    · obtain ⟨op, hwf, hform⟩ := execWith_of_storeIn hi
      rw [hform, hwf]
      refine ⟨?_, fun hsrc => memWriteForm_of_absent _ hsrc hk⟩
      rintro ⟨t, h⟩
      obtain ⟨-, -, s', hs', -⟩ := memWriteForm_eq_next h
      cases (dmBusWrite_of_absent _ _ hk).symm.trans hs'

/-- Settles O44: a well-formed write is past the check of its source, and the text is looked at next. -/
theorem storeToProgramTextRefused : Obligations.StoreToProgramTextRefused := by
  intro i src o s hi hwf ht
  obtain ⟨op, hsrc, hform⟩ := execWith_of_storeIn hi
  rw [exec_eq_execWith, hform]
  exact memWriteForm_of_text _ (hsrc.1 hwf) ht

end Sys2Proof.Machine

/-!
Proofs of the statements on PX (R23), on the bank tables (R132, R153, R168), on what depends on what (R55, R101, R104),
and on the cycle tables (R270 to R272).
-/

namespace Sys2Proof.Machine

open Sys2Proof

/-! ## PX -/

section
variable {s t : State} (q : Byte)

theorem advance_withPx (s : State) : ({ s with px := q } : State).advance = { s.advance with px := q } := rfl

theorem dmBusWrite_withPx {a : Addr} {v : Word} {low : W24Low} {s' : State} (h : s.dmBusWrite a v low = some s') :
    ({ s with px := q } : State).dmBusWrite a v low = some { s' with px := q } := by
  have hkind : ({ s with px := q } : State).memKind a = s.memKind a := rfl
  have hlow : ({ s with px := q } : State).lowAfterWrite a low = s.lowAfterWrite a low := by cases low <;> rfl
  unfold State.dmBusWrite at h ⊢
  rw [hkind, hlow]
  cases hk : s.memKind a with
  | absent => simp [hk] at h
  | w16 | w24 =>
    simp only [hk, Option.some.injEq] at h
    rw [← h]

/-- A dual read does not read PX, and writes it (R23). -/
theorem dualReadForm_withPx {e : ComputeEffect} {d : DualReads} (h : dualReadForm e d s params = .next t) :
    dualReadForm e d { s with px := q } params = .next t := by
  obtain ⟨f, hf, rfl⟩ := dualReadForm_eq_next h
  have hf' : ({ s with px := q } : State).dualFetch d params = some f := hf
  simp only [dualReadForm, hf', commit_withPx, dualWrite_withPx]

theorem memReadForm_withPx {op : ComputeOp} {e : ComputeEffect} {dst : Dreg} {o : MemOperand}
    (h : memReadForm op e dst o s params = .next t) :
    memReadForm op e dst o { s with px := q } params = .next { t with px := q } := by
  obtain ⟨hdest, v, hv, rfl⟩ := memReadForm_eq_next h
  have hv' : ({ s with px := q } : State).dmBusRead (({ s with px := q } : State).ea o.ireg) = some v := hv
  have hnext : ({ s with px := q } : State).nextIndex o = s.nextIndex o := rfl
  simp only [memReadForm, hdest, Bool.false_eq_true, if_false, hv', hnext, commit_withPx, dregWrite_withPx, setI_withPx,
    advance_withPx]

theorem memWriteForm_withPx {op : ComputeOp} {e : ComputeEffect} {src : Dreg} {o : MemOperand}
    (h : memWriteForm op e src o s params = .next t) :
    memWriteForm op e src o { s with px := q } params = .next { t with px := q } := by
  obtain ⟨hsrc, htext, s', hs', rfl⟩ := memWriteForm_eq_next h
  have hea : ({ s with px := q } : State).ea o.ireg = s.ea o.ireg := rfl
  have hread : ({ s with px := q } : State).dregRead src = s.dregRead src := rfl
  have hnext : ({ s with px := q } : State).nextIndex o = s.nextIndex o := rfl
  have hwrite := dmBusWrite_withPx q hs'
  simp only [memWriteForm, hsrc, htext, Bool.false_eq_true, if_false, hea, hread, hwrite, hnext, commit_withPx,
    setI_withPx, advance_withPx]

theorem regMoveForm_withPx {op : ComputeOp} {e : ComputeEffect} {d1 d2 : Dreg}
    (h : regMoveForm op e d1 d2 s params = .next t) :
    regMoveForm op e d1 d2 { s with px := q } params = .next { t with px := q } := by
  obtain ⟨hdest, hsrc, rfl⟩ := regMoveForm_eq_next h
  have hread : ({ s with px := q } : State).dregRead d2 = s.dregRead d2 := rfl
  simp only [regMoveForm, hdest, hsrc, Bool.false_eq_true, if_false, hread, commit_withPx, dregWrite_withPx,
    advance_withPx]

theorem nonAluMoveForm_withPx {op : ComputeOp} {e : ComputeEffect} {d1 d2 : Dreg}
    (h : nonAluMoveForm op e d1 d2 s params = .next t) :
    nonAluMoveForm op e d1 d2 { s with px := q } params = .next { t with px := q } := by
  obtain ⟨hmove, hform⟩ := nonAluMoveForm_eq_next h
  exact (nonAluMoveForm_of_move _ hmove).trans (regMoveForm_withPx q hform)

theorem statusOnlyForm_withPx {e : ComputeEffect} (h : statusOnlyForm e s = .next t) :
    statusOnlyForm e { s with px := q } = .next { t with px := q } := by
  obtain rfl := Host.Outcome.next.inj h
  simp only [statusOnlyForm, commit_withPx, advance_withPx]

theorem execAluRegMove_withPx {c : AluClause} {z : AluDest} {d1 d2 : Dreg} (h : execAluRegMove c z d1 d2 s = .next t) :
    execAluRegMove c z d1 d2 { s with px := q } = .next { t with px := q } := by
  by_cases hmove : d1 = .ar ∧ d2 = .ar
  · unfold execAluRegMove at h ⊢
    rw [if_pos hmove] at h ⊢
    cases z with
    | ar => exact statusOnlyForm_withPx q h
    | af => cases h
  · rw [execAluRegMove_of_move hmove] at h ⊢
    exact regMoveForm_withPx q h

/-- An instruction that is no dual read neither reads nor writes PX (R23). The register view its compute clause reads
holds no PX (R104). -/
theorem exec_withPx {i : Instr} (h : exec i s = .next t) (hi : dualReadsIn i = none) :
    exec i { s with px := q } = .next { t with px := q } := by
  cases i with
  | aluDualRead | macDualRead | dualRead => cases hi
  | aluMemRead c z dst o => exact memReadForm_withPx q h
  | macMemRead c z dst o => exact memReadForm_withPx q h
  | shiftMemRead c dst o => exact memReadForm_withPx q h
  | aluMemWrite c z src o => exact memWriteForm_withPx q h
  | macMemWrite c z src o => exact memWriteForm_withPx q h
  | shiftMemWrite c src o => exact memWriteForm_withPx q h
  | aluStatusOnly c => exact statusOnlyForm_withPx q h
  | aluRegMove c z d1 d2 => exact execAluRegMove_withPx q h
  | macRegMove c z d1 d2 => exact nonAluMoveForm_withPx q h
  | shiftRegMove c d1 d2 => exact nonAluMoveForm_withPx q h

/-- A dual read answers the same next state whatever PX was (R23). -/
theorem exec_dual_withPx {i : Instr} {d : DualReads} (h : exec i s = .next t) (hi : dualReadsIn i = some d) :
    exec i { s with px := q } = .next t := by
  rw [exec_eq_execWith, execWith_of_dualReadsIn hi] at h ⊢
  exact dualReadForm_withPx q h

end

/-- PX after a dual read: the byte of the PM bus, unless the DM-bus access clears it (R47). -/
theorem pxAfter_params (k : MemKind) (p : Byte) :
    (pxAfter k p params = p) ∨ (k = .w24 ∧ Config.pxDm24 = true ∧ pxAfter k p params = 0) := by
  by_cases h : k = .w24 ∧ params.pxDm24 = true
  · obtain ⟨hk, hp⟩ := h
    exact .inr ⟨hk, hp, if_pos ⟨hk, hp⟩⟩
  · exact .inl (if_neg h)

/-- Settles O47: from another PX an instruction makes the same writes; a dual read's last one is PX. -/
theorem pxChangesOnlyInDualReads : Obligations.PxChangesOnlyInDualReads := by
  refine ⟨fun i s t h hi => ⟨execWith_px (execWith_of_exec h) hi, fun q => exec_withPx q h hi⟩,
    fun i d s t h hi => ⟨fun q => exec_dual_withPx q h hi, ?_⟩⟩
  obtain ⟨vD, vP, p, -, hPM, -, -, hpx⟩ := execWith_dualReads (execWith_of_exec h) hi
  refine ⟨vP, p, hPM, ?_⟩
  rw [hpx]
  exact pxAfter_params _ p

/-! ## The bank tables -/

/-- Settles O48: what the two buses deliver, by kind of memory. -/
theorem dualReadBankTable : Obligations.DualReadBankTable := by
  intro i d s t hd h aD aP
  obtain ⟨vD, vP, p, hD, hPM, hdx, hdy, hpx⟩ := execWith_dualReads (execWith_of_exec h) hd
  refine ⟨rfl, rfl, fun hk => ?_, fun hk => ?_, fun hk => ?_, fun hk => ?_⟩
  · exact hdx.trans (Option.some.inj (hD.symm.trans (dmBusRead_of_w16 hk)))
  · exact hdx.trans (Option.some.inj (hD.symm.trans (dmBusRead_of_w24 hk)))
  · obtain ⟨hv, hp⟩ := Prod.ext_iff.1 (Option.some.inj (hPM.symm.trans (pmBusRead_of_w16 hk)))
    refine ⟨hdy.trans hv, ?_⟩
    obtain hpx' | ⟨-, -, hpx'⟩ := pxAfter_params (s.memKind aD) p
    · exact hpx.trans (hpx'.trans hp)
    · exact hpx.trans hpx'
  · obtain ⟨hv, hp⟩ := Prod.ext_iff.1 (Option.some.inj (hPM.symm.trans (pmBusRead_of_w24 hk)))
    refine ⟨hdy.trans hv, fun hor => ?_, fun hand => hpx.trans (if_pos hand)⟩
    have hnot : ¬(s.memKind aD = .w24 ∧ params.pxDm24 = true) := by
      rintro ⟨hkD, hpar⟩
      obtain hkD' | hpar' := hor
      · cases hkD.symm.trans hkD'
      · cases hpar.symm.trans hpar'
    exact hpx.trans ((if_neg hnot).trans hp)

theorem self_mem_mw (r : Dreg) : r ∈ r.mw := by cases r <;> decide

/-- Settles O49: a single access is read off its address alone, and loads what the DM bus delivers. -/
theorem singleReadBankTable : Obligations.SingleReadBankTable := by
  refine ⟨fun _ _ _ => rfl, fun i dst o s t hi h => ?_⟩
  obtain ⟨v, hv, hloaded⟩ := exec_loaded h hi
  have hdst := hloaded dst (self_mem_mw dst)
  refine ⟨fun hk => ?_, fun hk => ?_, ?_⟩
  · rw [hdst, Option.some.inj (hv.symm.trans (dmBusRead_of_w16 hk))]
  · rw [hdst, Option.some.inj (hv.symm.trans (dmBusRead_of_w24 hk))]
  · have hdual : dualReadsIn i = none := by cases i <;> cases hi <;> rfl
    exact execWith_px (execWith_of_exec h) hdual

/-- Settles O50: a single access is read off its address alone, and stores what the DM-bus write stores. -/
theorem singleWriteBankTable : Obligations.SingleWriteBankTable := by
  refine ⟨fun _ _ _ => rfl, fun i src o s t hi h => ?_⟩
  obtain ⟨h16, h24, -⟩ := execWith_stored (execWith_of_exec h) hi
  have hdual : dualReadsIn i = none := by cases i <;> cases hi <;> rfl
  exact ⟨h16, fun hk => (h24 hk).1, fun p => ⟨_, exec_withPx p h hdual, fun _ => rfl⟩⟩

/-! ## What depends on what -/

/-- An instruction with a compute clause that answers a next state leaves the clause's value in its result register, or
leaves all result registers alone; which of the two depends on the instruction, not on the state. -/
theorem exec_resultValue {i : Instr} {op : ComputeOp} (hop : i.computeOp = some op) :
    (∀ s t, exec i s = .next t → t.comp.resultValue op.dest = (compute op s.view).result.value) ∨
      ∀ s t, exec i s = .next t → t.comp.resultValue op.dest = s.comp.resultValue op.dest := by
  simp only [exec_eq_execWith]
  by_cases hi : WellFormed i
  · obtain hres | hres := resultRegIn_of_computeOp hop
    · exact .inl fun s t h => execWith_resultValue params_contract h hi hop hres
    · exact .inr fun s t h => execWith_resultValue_of_none h hres op.dest
  · refine .inr fun s t h => ?_
    obtain ⟨c, rfl⟩ := (wellFormed_of_execWith h).resolve_left hi
    have hstatus : execWith params (.aluStatusOnly c) s = .next t := h
    exact execWith_resultValue_of_none hstatus rfl op.dest

/-- Settles O54: the value and the flags are functions of the register view. -/
theorem computeIgnoresTheDataMove : Obligations.ComputeIgnoresTheDataMove := by
  intro i op s s' t t' hop hview h h'
  have hflags : t.astat = t'.astat := by
    rw [execWith_astat (execWith_of_exec h), execWith_astat (execWith_of_exec h'),
      hview]
  have hcomp : s.comp = s'.comp := congrArg RegView.regs hview
  refine ⟨hflags, ?_⟩
  obtain hres | hres := exec_resultValue hop
  · rw [hres s t h, hres s' t' h', hview]
  · rw [hres s t h, hres s' t' h', hcomp]

/-- Settles O55: the two reads and the post-modifies are those of the state before. -/
theorem dualReadsIgnoreTheCompute : Obligations.DualReadsIgnoreTheCompute := by
  intro i j d s t u hi hj ht hu
  obtain ⟨vD, vP, p, hD, hPM, hdx, hdy, hpx⟩ := execWith_dualReads (execWith_of_exec ht) hi
  obtain ⟨vD', vP', p', hD', hPM', hdx', hdy', hpx'⟩ := execWith_dualReads (execWith_of_exec hu) hj
  obtain rfl : vD = vD' := Option.some.inj (hD.symm.trans hD')
  obtain ⟨rfl, rfl⟩ : vP = vP' ∧ p = p' := by simpa using hPM.symm.trans hPM'
  obtain ⟨-, -, hops, -⟩ := dualReadsIn_facts hi
  obtain ⟨-, -, hops', -⟩ := dualReadsIn_facts hj
  exact ⟨hdx.trans hdx'.symm, hdy.trans hdy'.symm, hpx.trans hpx'.symm, by rw [exec_dag ht, exec_dag hu, hops, hops']⟩

/-- Settles O56: the load reads the location that the store wrote. -/
theorem storedValueIsLoadedBack : Obligations.StoredValueIsLoadedBack := by
  intro i j src dst o o' s t u hi hj ht hu hea
  have hw := execWith_of_exec ht
  have hframe : StepFrame s t := execWith_stepFrame hw
  obtain ⟨h16, h24, -⟩ := execWith_stored hw hi
  obtain ⟨v, hv, hloaded⟩ := exec_loaded hu hj
  rw [hea] at hv
  have hkind := memKind_congr hframe.memMap hframe.text (s.ea o.ireg)
  have hval : v = s.dregRead src := by
    cases hk : s.memKind (s.ea o.ireg) with
    | w16 => rw [← h16 hk, Option.some.inj (hv.symm.trans (dmBusRead_of_w16 (hkind.trans hk)))]
    | w24 => rw [← (h24 hk).1, Option.some.inj (hv.symm.trans (dmBusRead_of_w24 (hkind.trans hk)))]
    | absent => cases hv.symm.trans (dmBusRead_of_absent (hkind.trans hk))
  rw [hloaded dst (self_mem_mw dst), hval]

/-! ## The cycle tables -/

theorem cycles_eq {i : Instr} {n : Nat} (h : n < fetchItems i) : cycles i n = some (1 + n) := if_pos h

/-- Settles O60: the rows of a form's table are as many as its accesses. -/
theorem cycleTables : Obligations.CycleTables := by
  refine ⟨fun i d hd => ?_, fun i r o hi => ?_, fun i hd hl hs => ?_⟩
  · have hitems : fetchItems i = 3 := by cases i <;> cases hd <;> rfl
    exact ⟨cycles_eq (by omega), cycles_eq (by omega), cycles_eq (by omega)⟩
  · have hitems : fetchItems i = 2 := by obtain hi | hi := hi <;> cases i <;> cases hi <;> rfl
    exact ⟨cycles_eq (by omega), cycles_eq (by omega)⟩
  · have hitems : fetchItems i = 1 := by
      cases i with
      | aluDualRead | macDualRead | dualRead => cases hd
      | aluMemRead | macMemRead | shiftMemRead => cases hl
      | aluMemWrite | macMemWrite | shiftMemWrite => cases hs
      | aluStatusOnly | aluRegMove | macRegMove | shiftRegMove => rfl
    exact cycles_eq (by omega)

end Sys2Proof.Machine
